-- ==== Sys2Proof/Word.lean ====
section
/-! DEFINITION. The machine's word types: a sample, an operand, a register and a buffer slot are all 32-bit words
(spec R7 `XLEN`, R8, R50). -/

namespace Sys2Proof

/-- A 32-bit word (R8): a `u32` read as an unsigned integer or an `f32` read as binary32. -/
abbrev Word := BitVec 32

/-- A byte, seen only where the register block is bound to a byte-addressed bus (R29, R52). -/
abbrev Byte := BitVec 8

end Sys2Proof
end

