-- ==== Sys2Proof/Config.lean ====
section
/-! DEFINITION. What is fixed for the machine (R7) and the free values: constants with no body, of which nothing can be
proved but their type. -/

namespace Sys2Proof.Config

/-- `CAP_MAX` (R7): the largest capacity of a buffer, at the value this hardware takes. -/
def capMax : Nat := 65536

/-- `MIX_TOL` is 2 to the minus this (R7: 2^-20), at the value this hardware takes. -/
def mixTolExp : Nat := 20

/-- `REG_BASE` (R7, R29: OPEN, the platform's): the byte address of register 0 on a byte-addressed bus. Free: log entry 8. -/
opaque regBase : Nat

/-- The sign and the 22 payload bits of a NaN result (R12, U1: unspecified). First argument: the draw counter of the
state; second: which operation of the command. Free: log entry 4. -/
opaque nanBits : Nat → Nat → BitVec 23

/-- The oscillator's answer to its `n`-th exchange when it is given this sample and State lists no answer
(R137: "any 32-bit pattern is accepted"). Free: log entry 3. -/
opaque oscAnswer : Nat → Word → Word

end Sys2Proof.Config
end

