-- ==== Sys2Proof/Syntax.lean ====
section
/-! DEFINITION. The fifteen commands (R73), the types of their operands (R72), a line of the textual form (R77) and the
actions of the host (R16, R29, R170). -/

namespace Sys2Proof

/-- The fifteen commands of R73. A command word carries no operand (R71), so no constructor has a field. -/
inductive Instr where
  | fdlNew
  | fdlTick
  | fdlRead
  | vdlNew
  | vdlTick
  | vdlRead
  | vdlSetoff
  | echoNewf
  | echoTick
  | echoSetdly
  | echoSetfb
  | echoSetmix
  | echoNewv
  | mdeNew
  | mdeTick
deriving DecidableEq, Repr

/-- The type a command reads an operand register as (R72). -/
inductive OperandType where
  | u32
  | f32
deriving DecidableEq, Repr

/-- The operand table of R72: the types of A0, A1, … as far as the command reads them. -/
def Instr.operands : Instr → List OperandType
  | .fdlNew => [.u32]
  | .fdlTick => [.f32]
  | .fdlRead => []
  | .vdlNew => [.u32, .u32]
  | .vdlTick => [.f32]
  | .vdlRead => []
  | .vdlSetoff => [.u32]
  | .echoNewf => [.u32, .f32, .f32, .f32]
  | .echoTick => [.f32]
  | .echoSetdly => [.u32]
  | .echoSetfb => [.f32]
  | .echoSetmix => [.f32, .f32]
  | .echoNewv => [.u32, .f32, .f32, .f32]
  | .mdeNew => [.u32, .f32, .f32, .f32, .f32, .f32]
  | .mdeTick => [.f32]

/-- The last column of R72: the six commands that return a sample in R0. -/
def Instr.writesR0 : Instr → Bool
  | .fdlTick | .fdlRead | .vdlTick | .vdlRead | .echoTick | .mdeTick => true
  | .fdlNew | .vdlNew | .vdlSetoff | .echoNewf | .echoSetdly | .echoSetfb | .echoSetmix | .echoNewv | .mdeNew => false

/-- The four unit kinds (R2), by which the UNIT field selects (R71). -/
inductive UnitKind where
  | fdl
  | vdl
  | echo
  | mde
deriving DecidableEq, Repr

/-- The unit a command addresses (R73). -/
def Instr.unit : Instr → UnitKind
  | .fdlNew | .fdlTick | .fdlRead => .fdl
  | .vdlNew | .vdlTick | .vdlRead | .vdlSetoff => .vdl
  | .echoNewf | .echoTick | .echoSetdly | .echoSetfb | .echoSetmix | .echoNewv => .echo
  | .mdeNew | .mdeTick => .mde

/-- The commands that construct a unit: FUNC 0, and FUNC 6 of the echo (R73). -/
def Instr.constructs : Instr → Bool
  | .fdlNew | .vdlNew | .echoNewf | .echoNewv | .mdeNew => true
  | .fdlTick | .fdlRead | .vdlTick | .vdlRead | .vdlSetoff | .echoTick | .echoSetdly | .echoSetfb | .echoSetmix
  | .mdeTick => false

/-- The four TICK commands, FUNC 1 (R73), the only ones besides the NEW commands that write a buffer (R54). -/
def Instr.ticks : Instr → Bool
  | .fdlTick | .vdlTick | .echoTick | .mdeTick => true
  | .fdlNew | .fdlRead | .vdlNew | .vdlRead | .vdlSetoff | .echoNewf | .echoSetdly | .echoSetfb | .echoSetmix | .echoNewv
  | .mdeNew => false

/-- An operand as a line writes it (R77): an integer, a decimal with a point, or an exact bit pattern. -/
inductive Literal where
  /-- An integer operand, decimal or hexadecimal. -/
  | int (n : Nat)
  /-- The decimal `± digits * 10 ^ exp10`. -/
  | dec (neg : Bool) (digits : Nat) (exp10 : Int)
  /-- The form `0x........f`. -/
  | bits (w : Word)
deriving DecidableEq, Repr

/-- One line of the textual form (R77): a command, its operands in the order A0, A1, …, and the oscillator's answer. -/
structure Line where
  instr : Instr
  args : List Literal
  osc : Option Literal
deriving DecidableEq, Repr

/-- What the host or the platform does to the DLC, one action at a time (R16, R29, R52, R170). -/
inductive HostAction where
  /-- A whole-word write of a register by its number (R29). -/
  | write (reg : Nat) (w : Word)
  /-- A whole-word read of a register by its number (R29). -/
  | read (reg : Nat)
  /-- A write of these bytes at this byte address of a byte-addressed bus (R29, R52). -/
  | busWrite (addr : Nat) (bytes : List Byte)
  /-- A read of this many bytes at this byte address of a byte-addressed bus (R29, R52). -/
  | busRead (addr : Nat) (size : Nat)
  /-- The `rst` input is asserted (R170). -/
  | reset
deriving DecidableEq, Repr

/-- What a read delivers to the host: a word, or on a byte-addressed bus its bytes, lowest address first (R29, R52). -/
inductive HostReply where
  | word (w : Word)
  | bytes (bs : List Byte)
deriving DecidableEq, Repr

end Sys2Proof
end

