-- ==== Sys2Proof/WellFormed.lean ====
section
/-! DEFINITION. When a line of the textual form is well formed (R72, R77). A command by itself has no field, so every
value of `Instr` is well formed; what can be wrong is its operands. -/

namespace Sys2Proof

/-- A literal fits the type of its slot (R77): an integer below 2^32 for `u32`, a decimal or a bit pattern for `f32`. -/
def Literal.fits : OperandType → Literal → Bool
  | .u32, .int n => decide (n < 2 ^ 32)
  | .u32, .dec _ _ _ => false
  | .u32, .bits _ => false
  | .f32, .int _ => false
  | .f32, .dec _ _ _ => true
  | .f32, .bits _ => true

/-- As many literals as slots, each of its slot's type. -/
def Literal.allFit : List OperandType → List Literal → Bool
  | [], [] => true
  | t :: ts, l :: ls => l.fits t && Literal.allFit ts ls
  | [], _ :: _ => false
  | _ :: _, [] => false

/-- The oscillator's answer is written for MDE.TICK and for no other command (R72, R77). -/
def Line.oscFits (l : Line) : Bool :=
  match l.osc with
  | none => decide (l.instr ≠ .mdeTick)
  | some v => decide (l.instr = .mdeTick) && v.fits .f32

/-- A line that R77 lets stand for a command. -/
def Line.wf (l : Line) : Bool :=
  Literal.allFit l.instr.operands l.args && l.oscFits

end Sys2Proof
end

