-- ==== Sys2Proof/Decode.lean ====
section
/-! DEFINITION. The command word (R71 to R76): decode, total on every word, and the encoder, both from the table of R73. -/

namespace Sys2Proof

/-- Why a word is illegal (R74). All three raise the same cause, ILLEGAL_COMMAND. -/
inductive Illegal where
  /-- ZERO (bits 23:0) is not zero. -/
  | zeroField
  /-- UNIT is 0 or 5 to 15. -/
  | reservedUnit
  /-- The unit has no such FUNC. -/
  | reservedFunc
deriving DecidableEq, Repr

/-- The fields of format CW (R71). -/
def unitField (w : Word) : BitVec 4 := w.extractLsb' 28 4
def funcField (w : Word) : BitVec 4 := w.extractLsb' 24 4
def zeroField (w : Word) : BitVec 24 := w.extractLsb' 0 24

/-- The rows of R75 for one unit, by FUNC. -/
def decodeFdl (f : Nat) : Except Illegal Instr :=
  if f = 0 then .ok .fdlNew
  else if f = 1 then .ok .fdlTick
  else if f = 2 then .ok .fdlRead
  else .error .reservedFunc

def decodeVdl (f : Nat) : Except Illegal Instr :=
  if f = 0 then .ok .vdlNew
  else if f = 1 then .ok .vdlTick
  else if f = 2 then .ok .vdlRead
  else if f = 3 then .ok .vdlSetoff
  else .error .reservedFunc

def decodeEcho (f : Nat) : Except Illegal Instr :=
  if f = 0 then .ok .echoNewf
  else if f = 1 then .ok .echoTick
  else if f = 3 then .ok .echoSetdly
  else if f = 4 then .ok .echoSetfb
  else if f = 5 then .ok .echoSetmix
  else if f = 6 then .ok .echoNewv
  else .error .reservedFunc

def decodeMde (f : Nat) : Except Illegal Instr :=
  if f = 0 then .ok .mdeNew
  else if f = 1 then .ok .mdeTick
  else .error .reservedFunc

/-- The decode procedure of R75. It reads only the word. -/
def decode (w : Word) : Except Illegal Instr :=
  if zeroField w ≠ 0 then .error .zeroField
  else if unitField w = 1 then decodeFdl (funcField w).toNat
  else if unitField w = 2 then decodeVdl (funcField w).toNat
  else if unitField w = 3 then decodeEcho (funcField w).toNat
  else if unitField w = 4 then decodeMde (funcField w).toNat
  else .error .reservedUnit

/-- UNIT of each command (R73). -/
def unitCode : UnitKind → BitVec 4
  | .fdl => 1
  | .vdl => 2
  | .echo => 3
  | .mde => 4

/-- FUNC of each command (R73): 0 construct, 1 TICK, 2 READ, 3 set the delay, 4 SETFB, 5 SETMIX, 6 NEWV. -/
def funcCode : Instr → BitVec 4
  | .fdlNew | .vdlNew | .echoNewf | .mdeNew => 0
  | .fdlTick | .vdlTick | .echoTick | .mdeTick => 1
  | .fdlRead | .vdlRead => 2
  | .vdlSetoff | .echoSetdly => 3
  | .echoSetfb => 4
  | .echoSetmix => 5
  | .echoNewv => 6

/-- The command word of a command: UNIT, FUNC, then the 24 zero bits (R71). -/
def encode (i : Instr) : Word := unitCode i.unit ++ funcCode i ++ (0 : BitVec 24)

/-- The instruction the decoder reads from an opcode-table row's bits: a command is one word (R76). -/
def decodeTableWord (nbits w : Nat) : Option Instr :=
  if nbits ≤ 32 then
    match decode (BitVec.ofNat 32 w) with
    | .ok i => some i
    | .error _ => none
  else none

end Sys2Proof
end

