-- ==== Sys2Proof/Machine/State.lean ====
section
/-! DEFINITION. The state of the DLC (R20 to R32), as plain data, and the state after reset (R35, R170). -/

namespace Sys2Proof.Machine

/-- The words of one buffer memory (R50): the slots that do not hold 0x00000000, by word address, addresses rising. An
unlisted slot reads 0x00000000, what every NEW command writes to all N words (R90, R100, R115, R116, R135; log entry 5).
The cell is a word, not a byte: "there is no byte, halfword or doubleword access" (R50). -/
structure Memory where
  cells : List (Nat × Word)
deriving DecidableEq, Repr

/-- The one definition of what an unlisted slot reads as (R90: "Buffer initialized to all zeros"; log entry 5). -/
def Memory.unlisted : Word := 0

/-- The canonical form: addresses strictly rising from `lo` on, and no cell that holds what an unlisted slot reads as. -/
def Memory.wfFrom : Nat → List (Nat × Word) → Bool
  | _, [] => true
  | lo, (i, v) :: rest => decide (lo ≤ i) && decide (v ≠ Memory.unlisted) && Memory.wfFrom (i + 1) rest

/-- The canonical form of a buffer. Equal buffers are equal data. -/
def Memory.wf (m : Memory) : Bool := Memory.wfFrom 0 m.cells

/-- The state of a fixed delay line (R22). -/
structure FDLState where
  N : Nat
  buf : Memory
  index : Nat
deriving DecidableEq, Repr

/-- The state of a variable delay line (R23). -/
structure VDLState where
  N : Nat
  buf : Memory
  widx : Nat
  ridx : Nat
  offset : Nat
deriving DecidableEq, Repr

/-- The one delay line an echo owns (R25): its backing, fixed or variable. -/
inductive DelayLine where
  | fixedLine (f : FDLState)
  | variableLine (v : VDLState)
deriving DecidableEq, Repr

/-- The state of a feedback echo (R25). The three coefficients are binary32 words. -/
structure EchoState where
  delay : DelayLine
  feedback : Word
  dry : Word
  wet : Word
deriving DecidableEq, Repr

/-- The state of the modulated delay effect (R26). -/
structure MDEState where
  base : Nat
  lfoIndex : Word
  depth : Word
  echo : EchoState
deriving DecidableEq, Repr

/-- The causes of the configuration fault (R151). -/
inductive Cause where
  | illegalCommand
  | notConstructed
  | alreadyConstructed
  | badCapacity
  | badOffset
  | badFeedback
  | badMix
  | delayNotResizable
deriving DecidableEq, Repr

/-- A recorded configuration fault (R20, R153): its cause and the command word. -/
structure FaultRecord where
  cause : Cause
  cmd : Word
deriving DecidableEq, Repr

/-- The six operand registers (R29). -/
structure OperandRegs where
  a0 : Word
  a1 : Word
  a2 : Word
  a3 : Word
  a4 : Word
  a5 : Word
deriving DecidableEq, Repr

/-- The whole state of R20, then the model's own fields: the inputs and outputs of the step, which R21 makes arguments
of it (log entries 2, 3, 4, 11). -/
structure State where
  /-- R20, R22: `none` is "unconstructed". -/
  fdl : Option FDLState
  /-- R20, R23: `none` is "unconstructed". -/
  vdl : Option VDLState
  /-- R20, R25: `none` is "unconstructed". -/
  echo : Option EchoState
  /-- R20, R26: `none` is "unconstructed". -/
  mde : Option MDEState
  /-- R20, R153: the recorded fault. -/
  fault : Option FaultRecord
  /-- R20, R29: the result register. -/
  r0 : Word
  /-- R20, R29: the operand registers A0 to A5. -/
  a : OperandRegs
  /-- Model's own: the host's pending actions, oldest first (log entry 2). -/
  host : List HostAction
  /-- Model's own: what register reads have delivered, newest first (log entry 11). -/
  reads : List HostReply
  /-- Model's own: the answers the oscillator will give, next first (R137; log entry 3). -/
  oscIn : List Word
  /-- Model's own: the samples presented to the oscillator, newest first (R137; log entry 3). -/
  oscOut : List Word
  /-- Model's own: the counter behind the free bits of NaN results (U1; log entry 4). -/
  draws : Nat
deriving DecidableEq, Repr

/-- The reasons the model stops. The DLC has no stop of its own: a configuration fault is a next state (R153). -/
inductive Fault where
  /-- Raised by a buffer access at an address outside [0, N), which R11 and R51 say no command forms. Safe: only states
  that no run reaches raise it (log entry 6). -/
  | bufferAddress
  /-- Raised by MDE.TICK when the inner echo is not variable-backed, which R26 excludes. Safe: only states that no run
  reaches raise it (log entry 6). -/
  | innerEchoFixed
deriving DecidableEq, Repr

/-- The reasons the model refuses. -/
inductive Refusal where
  /-- Raised by exec for an instruction that has no meaning yet. Safe. No arm raises it now. -/
  | notModelled (mnemonic : String)
  /-- Raised by a bus access that is not 32 bits wide, aligned or not (R52: "the model refuses it"; log entry 8). Safe. -/
  | narrowAccess
  /-- Raised by a 32-bit bus access that is not aligned to a register (R52, R53: "refused"; log entry 8). Safe. -/
  | misalignedAccess
  /-- Raised by a bus access below REG_BASE, which is no address of the DLC (R29). Safe. -/
  | outsideRegisters
deriving DecidableEq, Repr

/-- The machine right after reset (R35, R170). R0 and A0 to A5 have no value there (R35): 0 is the model's choice (log
entry 1). The model's own fields are empty (log entries 2, 3, 4, 11). -/
def State.reset : State where
  fdl := none
  vdl := none
  echo := none
  mde := none
  fault := none
  r0 := 0
  a := ⟨0, 0, 0, 0, 0, 0⟩
  host := []
  reads := []
  oscIn := []
  oscOut := []
  draws := 0

end Sys2Proof.Machine
end

