-- ==== Sys2Proof/Machine/Float.lean ====
section
/-! DEFINITION. The binary32 primitives of R12, the length conversion of R13 and the validation predicates of R14, all
computed exactly on integers and narrowed once at the end. The meaning of the IEEE 754 terms is IEEE 754's (G1; log entry 12). -/

namespace Sys2Proof.Machine

/-- The sign bit (R8: bit 31). -/
def fSign (v : Word) : Bool := decide (2 ^ 31 ≤ v.toNat)

/-- The word without its sign bit: exponent and fraction as one number. -/
def fMag (v : Word) : Nat := v.toNat % 2 ^ 31

/-- The pattern of infinity, exponent field all ones and fraction zero. -/
abbrev infMag : Nat := 255 * 2 ^ 23

/-- R12: exponent field all ones and fraction non-zero. -/
def isNaN (v : Word) : Bool := decide (infMag < fMag v)

/-- A NaN whose first fraction bit is 1 (log entry 12). -/
def isQuietNaN (v : Word) : Bool := decide (511 * 2 ^ 22 ≤ fMag v)

def isInf (v : Word) : Bool := decide (fMag v = infMag)

def isFinite (v : Word) : Bool := decide (fMag v < infMag)

/-- The magnitude that the pattern `p` (exponent and fraction fields) denotes, in units of 2^-149. -/
def magValue (p : Nat) : Nat :=
  if p / 2 ^ 23 = 0 then p else (2 ^ 23 + p % 2 ^ 23) * 2 ^ (p / 2 ^ 23 - 1)

/-- The exact real number a finite word denotes (R12 `real`), in units of 2^-149. -/
def scaled (v : Word) : Int := if fSign v then -(magValue (fMag v) : Int) else magValue (fMag v)

/-- The constants of R12. -/
def HALF : Word := 0x3F000000
def ONE : Word := 0x3F800000

/-- A word from its sign and its exponent and fraction fields. -/
def pack (neg : Bool) (p : Nat) : Word := BitVec.ofNat 32 (p + if neg then 2 ^ 31 else 0)

/-- Division by 2^k, rounded to nearest, ties to even (R12); k ≥ 1. -/
def rneShift (x k : Nat) : Nat :=
  let q := x / 2 ^ k
  let r := x % 2 ^ k
  if 2 ^ (k - 1) < r ∨ (r = 2 ^ (k - 1) ∧ q % 2 = 1) then q + 1 else q

/-- The place of the last kept bit of a magnitude in units of 2^-298: 24 significant bits, and never below 2^-149, so
that subnormal results are exact multiples of 2^-149 (R12: no flush to zero). -/
def roundShift (x : Nat) : Nat := max 149 (Nat.log2 x - 23)

/-- The pattern of the binary32 magnitude nearest to `x` units of 2^-298, ties to even, infinity on overflow (R12). -/
@[irreducible] def roundMag (x : Nat) : Nat :=
  min infMag (rneShift x (roundShift x) + (roundShift x - 149) * 2 ^ 23)

/-- The correctly rounded sum (R12). `nan` is the word returned when the result is a NaN (U1). -/
@[irreducible] def fadd (nan a b : Word) : Word :=
  if isNaN a || isNaN b then nan
  else if isInf a then (if isInf b && (fSign a != fSign b) then nan else a)
  else if isInf b then b
  else if scaled a + scaled b = 0 then pack (fSign a && fSign b) 0
  else pack (decide (scaled a + scaled b < 0)) (roundMag ((scaled a + scaled b).natAbs * 2 ^ 149))

/-- The sign bit turned over. -/
def fneg (v : Word) : Word := v ^^^ 0x80000000

/-- The correctly rounded difference (R12): the sum with the second operand's sign turned over. -/
def fsub (nan a b : Word) : Word := fadd nan a (fneg b)

/-- The correctly rounded product (R12). -/
@[irreducible] def fmul (nan a b : Word) : Word :=
  if isNaN a || isNaN b then nan
  else if isInf a || isInf b then
    (if fMag a = 0 ∨ fMag b = 0 then nan else pack (fSign a != fSign b) infMag)
  else pack (fSign a != fSign b) (roundMag (magValue (fMag a) * magValue (fMag b)))

/-- A quiet NaN (R12) with these sign and payload bits: exponent all ones, first fraction bit 1. -/
def quietNaN (b : BitVec 23) : Word := b.extractLsb' 22 1 ++ (0x1FF : BitVec 9) ++ b.extractLsb' 0 22

/-- The NaN that operation `k` of a command returns under draw `d`, when its result is a NaN (U1: "a draw"). -/
def nanDraw (d k : Nat) : Word := quietNaN (Config.nanBits d k)

/-- The order of the binary32 numbers on integers: sign and magnitude, both zeros 0. Infinities included, NaNs not. -/
def orderKey (v : Word) : Int := if fSign v then -(fMag v : Int) else fMag v

/-- The IEEE comparisons of R12: false when either operand is a NaN. -/
def flt (a b : Word) : Bool := !isNaN a && !isNaN b && decide (orderKey a < orderKey b)
def fle (a b : Word) : Bool := !isNaN a && !isNaN b && decide (orderKey a ≤ orderKey b)

/-- R12 `u2f`: a natural number as binary32, exact up to 2^24. -/
def u2f (n : Nat) : Word := pack false (roundMag (n * 2 ^ 298))

/-- The integer part of a number, toward zero (R13 `trunc`), for a word that is finite and not negative. -/
def ftrunc (v : Word) : Nat := magValue (fMag v) / 2 ^ 149

/-- R13: the computed delay length as an index in [0, N-1]. -/
@[irreducible] def clampLen (m : Word) (N : Nat) : Nat :=
  if isNaN m then 0
  else if flt m ONE then 0
  else if fle (u2f (N - 1)) m then N - 1
  else ftrunc m

/-- R14 `inUnit`: a number in [0, 1]. -/
def inUnit (v : Word) : Bool := !isNaN v && fle 0 v && fle v ONE

/-- R14 `mixOK`: both coefficients finite and not negative, their exact real sum within MIX_TOL of 1. -/
def mixOK (dry wet : Word) : Bool :=
  !isNaN dry && !isNaN wet && fle 0 dry && fle 0 wet && isFinite dry && isFinite wet &&
    decide ((scaled dry + scaled wet - 2 ^ 149).natAbs ≤ 2 ^ (149 - Config.mixTolExp))

end Sys2Proof.Machine
end

