-- ==== Sys2Proof/Machine/Ops.lean ====
section
/-! DEFINITION. The named operations every command is built from: buffer words (R11, R50), the two delay lines (R90 to R92,
R100 to R103, R121), the echo over them (R117), the oscillator port (R137), and taking the configuration fault (R15, R152,
R153, R155) with reset, the only way out of it (R154, R170). -/

namespace Sys2Proof.Machine

/-! ### Buffer memories -/

def cellsGet (i : Nat) : List (Nat × Word) → Word
  | [] => Memory.unlisted
  | (j, v) :: rest => if i = j then v else cellsGet i rest

def cellsSet (i : Nat) (v : Word) : List (Nat × Word) → List (Nat × Word)
  | [] => if v = Memory.unlisted then [] else [(i, v)]
  | (j, u) :: rest =>
    if i < j then (if v = Memory.unlisted then (j, u) :: rest else (i, v) :: (j, u) :: rest)
    else if i = j then (if v = Memory.unlisted then rest else (i, v) :: rest)
    else (j, u) :: cellsSet i v rest

/-- The word in slot `i`, whatever the capacity. -/
def Memory.get (m : Memory) (i : Nat) : Word := cellsGet i m.cells

/-- The buffer with `v` in slot `i`, in canonical form. -/
def Memory.set (m : Memory) (i : Nat) (v : Word) : Memory := ⟨cellsSet i v m.cells⟩

/-- N words of 0x00000000 (R54: the writes of a NEW command, order immaterial). -/
def Memory.zeroed : Memory := ⟨[]⟩

/-- `BufRead` (R11) in a buffer of `N` words; no such word outside [0, N) (R51). -/
def bufRead (N : Nat) (m : Memory) (i : Nat) : Option Word := if i < N then some (m.get i) else none

/-- `BufWrite` (R11) in a buffer of `N` words; no such word outside [0, N) (R51). -/
def bufWrite (N : Nat) (m : Memory) (i : Nat) (v : Word) : Option Memory :=
  if i < N then some (m.set i v) else none

/-! ### The fixed delay line -/

/-- A fresh fixed delay line (R90). -/
def FDLState.new (N : Nat) : FDLState := { N := N, buf := Memory.zeroed, index := 0 }

/-- The peek of R92. -/
def FDLState.peek (f : FDLState) : Option Word := bufRead f.N f.buf f.index

/-- R91: read, then write the same slot, then advance. Answers the word read. -/
def FDLState.tick (f : FDLState) (x : Word) : Option (Word × FDLState) :=
  match bufRead f.N f.buf f.index with
  | none => none
  | some out =>
    match bufWrite f.N f.buf f.index x with
    | none => none
    | some b => some (out, { f with buf := b, index := (f.index + 1) % f.N })

/-! ### The variable delay line -/

/-- The read index of R101 step 2. -/
def readIndex (N widx offset : Nat) : Nat := (widx + N - offset) % N

/-- A fresh variable delay line (R100). -/
def VDLState.new (N offset : Nat) : VDLState :=
  { N := N, buf := Memory.zeroed, widx := 0, ridx := readIndex N 0 offset, offset := offset }

/-- The peek of R102: the slot the last tick read. -/
def VDLState.peek (v : VDLState) : Option Word := bufRead v.N v.buf v.ridx

/-- R101: write, compute the read index, read (seeing the write), advance. Answers the word read. -/
def VDLState.tick (v : VDLState) (x : Word) : Option (Word × VDLState) :=
  match bufWrite v.N v.buf v.widx x with
  | none => none
  | some b =>
    match bufRead v.N b (readIndex v.N v.widx v.offset) with
    | none => none
    | some out =>
      some (out, { v with buf := b, ridx := readIndex v.N v.widx v.offset, widx := (v.widx + 1) % v.N })

/-- R103: only the offset changes. -/
def VDLState.setOffset (v : VDLState) (o : Nat) : VDLState := { v with offset := o }

/-! ### The delay line an echo owns -/

/-- `peek` of R121. -/
def DelayLine.peek : DelayLine → Option Word
  | .fixedLine f => f.peek
  | .variableLine v => v.peek

/-- `dtick` of R121. -/
def DelayLine.tick (d : DelayLine) (x : Word) : Option (Word × DelayLine) :=
  match d with
  | .fixedLine f => (f.tick x).map fun p => (p.1, .fixedLine p.2)
  | .variableLine v => (v.tick x).map fun p => (p.1, .variableLine p.2)

/-- The backing of an echo (R25). -/
def DelayLine.isVariable : DelayLine → Bool
  | .fixedLine _ => false
  | .variableLine _ => true

/-! ### The echo -/

/-- R117 step 2: the word fed to the delay line, product rounded, then sum rounded. -/
def EchoState.fed (nan : Nat → Word) (e : EchoState) (x r : Word) : Word :=
  fadd (nan 1) x (fmul (nan 0) e.feedback r)

/-- R117 step 4: two products, then one sum. -/
def EchoState.mix (nan : Nat → Word) (e : EchoState) (x delayed : Word) : Word :=
  fadd (nan 4) (fmul (nan 2) e.dry x) (fmul (nan 3) e.wet delayed)

/-- R117 steps 1 to 4. `nan k` is the word operation `k` answers when its result is a NaN (U1). -/
def EchoState.tick (nan : Nat → Word) (e : EchoState) (x : Word) : Option (Word × EchoState) :=
  match e.delay.peek with
  | none => none
  | some r =>
    match e.delay.tick (e.fed nan x r) with
    | none => none
    | some (delayed, d) => some (e.mix nan x delayed, { e with delay := d })

/-! ### The oscillator port -/

/-- `OscExchange` (R137): the answer, and the state after the exchange. The answer is the next the environment gives, and a
free value where the state lists none (log entry 3). -/
def oscExchange (x : Word) (s : State) : Word × State :=
  match s.oscIn with
  | v :: rest => (v, { s with oscIn := rest, oscOut := x :: s.oscOut })
  | [] => (Config.oscAnswer s.oscOut.length x, { s with oscOut := x :: s.oscOut })

/-! ### Taking the configuration fault -/

/-- What the body of a command comes to. -/
inductive Effect where
  /-- The command completed in this state. -/
  | done (s : State)
  /-- `raise ConfigFault(cause)` (R15): the command ends, with no effect. -/
  | raise (c : Cause)
  /-- The model stops (a state no run reaches; log entry 6). -/
  | stop (f : Fault)
deriving DecidableEq, Repr

/-- Fault entry (R153): the cause and the command word are recorded and nothing else changes. -/
def enterFault (c : Cause) (w : Word) (s : State) : State := { s with fault := some ⟨c, w⟩ }

/-- One command with word `w` (R152): ignored while a fault is recorded (R155; log entry 10); otherwise its body, or the
fault entry its body raises, from the state the command began in. -/
def perform (w : Word) (body : State → Effect) (s : State) : Host.Outcome State Fault Refusal :=
  match s.fault with
  | some _ => .next s
  | none =>
    match body s with
    | .done t => .next t
    | .raise c => .next (enterFault c w s)
    | .stop f => .fault f

/-- An illegal command word (R74): the configuration fault ILLEGAL_COMMAND, unless a fault is recorded already (R155). -/
def performIllegal (w : Word) (s : State) : Host.Outcome State Fault Refusal :=
  perform w (fun _ => .raise .illegalCommand) s

/-- Reset (R170): the DLC's own state goes to the reset state; what lies outside the DLC (the host's and the oscillator's
side of the interface) is not touched (log entry 10). There is no other way back from a fault (R154). -/
def resetPin (s : State) : State :=
  { State.reset with host := s.host, reads := s.reads, oscIn := s.oscIn, oscOut := s.oscOut, draws := s.draws }

end Sys2Proof.Machine
end

