-- ==== Sys2Proof/Machine/Operands.lean ====
section
/-! DEFINITION. The operand registers (R29) and the two ways a command reads one (R10, R72), with the operand checks that
several commands share (R151, R152). -/

namespace Sys2Proof.Machine

/-- Operand register A`k`. -/
def OperandRegs.get (r : OperandRegs) : Fin 6 → Word
  | 0 => r.a0
  | 1 => r.a1
  | 2 => r.a2
  | 3 => r.a3
  | 4 => r.a4
  | 5 => r.a5

/-- The operand registers after a host write of A`k`. -/
def OperandRegs.set (r : OperandRegs) (k : Fin 6) (w : Word) : OperandRegs :=
  match k with
  | 0 => { r with a0 := w }
  | 1 => { r with a1 := w }
  | 2 => { r with a2 := w }
  | 3 => { r with a3 := w }
  | 4 => { r with a4 := w }
  | 5 => { r with a5 := w }

/-- `A[k].u` (R10): operand `k` as a `u32`. -/
def State.opU (s : State) (k : Fin 6) : Nat := (s.a.get k).toNat

/-- `A[k].f` (R10): operand `k` as an `f32`, the word itself. -/
def State.opF (s : State) (k : Fin 6) : Word := s.a.get k

/-- The result register written (R10 `R0 <- v`). -/
def State.setR0 (s : State) (v : Word) : State := { s with r0 := v }

/-- BAD_CAPACITY (R151): zero, or above CAP_MAX. -/
def badCapacity (N : Nat) : Bool := decide (N = 0) || decide (Config.capMax < N)

/-- The draw counter advanced, once for a command that computes (U1; log entry 4). -/
def State.nextDraw (s : State) : State := { s with draws := s.draws + 1 }

end Sys2Proof.Machine
end

