-- ==== Sys2Proof/Machine/Flags.lean ====
section
/-! DEFINITION. The registers that are computed from the state (R31, R32), the fault pin (R157) and what a host read of each
register gives (R29). -/

namespace Sys2Proof.Machine

/-- The cause codes (R151). -/
def Cause.code : Cause → BitVec 4
  | .illegalCommand => 1
  | .notConstructed => 2
  | .alreadyConstructed => 3
  | .badCapacity => 4
  | .badOffset => 5
  | .badFeedback => 6
  | .badMix => 7
  | .delayNotResizable => 8

/-- STATUS.FAULT (R31). -/
def State.faulted (s : State) : Bool := s.fault.isSome

/-- STATUS.BUSY (R31): a command is one step, so it is never seen as 1 (log entry 7). -/
def State.busy (_ : State) : Bool := false

/-- STATUS.CAUSE (R31): 0 when no fault is recorded. -/
def State.causeField (s : State) : BitVec 4 :=
  match s.fault with
  | none => 0
  | some r => r.cause.code

/-- STATUS.ECHO_VAR (R31): 0 when the echo is unconstructed or fixed. -/
def State.echoVar (s : State) : Bool :=
  match s.echo with
  | none => false
  | some e => e.delay.isVariable

/-- STATUS (R31): bits 31:13 zero, ECHO_VAR, C_MDE, C_ECHO, C_VDL, C_FDL, CAUSE, bits 3:2 zero, BUSY, FAULT. -/
def State.status (s : State) : Word :=
  (0 : BitVec 19) ++ BitVec.ofBool s.echoVar ++ BitVec.ofBool s.mde.isSome ++ BitVec.ofBool s.echo.isSome
    ++ BitVec.ofBool s.vdl.isSome ++ BitVec.ofBool s.fdl.isSome ++ s.causeField ++ (0 : BitVec 2)
    ++ BitVec.ofBool s.busy ++ BitVec.ofBool s.faulted

/-- FAULTCMD (R32). -/
def State.faultCmd (s : State) : Word :=
  match s.fault with
  | none => 0
  | some r => r.cmd

/-- The fault output pin (R157). -/
def State.faultPin (s : State) : Bool := s.faulted

/-- A host register (R29). -/
inductive HostReg where
  | cmd
  | status
  | faultCmd
  | r0
  | operand (k : Fin 6)
  | reserved
deriving DecidableEq, Repr

/-- The register numbers of R29. -/
def HostReg.ofNumber : Nat → HostReg
  | 0 => .cmd
  | 1 => .status
  | 2 => .faultCmd
  | 3 => .r0
  | 8 => .operand 0
  | 9 => .operand 1
  | 10 => .operand 2
  | 11 => .operand 3
  | 12 => .operand 4
  | 13 => .operand 5
  | _ => .reserved

/-- What a host read gives (R29): CMD and the reserved registers read 0. -/
def State.readReg (s : State) : HostReg → Word
  | .cmd => 0
  | .status => s.status
  | .faultCmd => s.faultCmd
  | .r0 => s.r0
  | .operand k => s.a.get k
  | .reserved => 0

/-- What the DLC answers to a command (R70): OK, or the cause of the fault. -/
structure Answer where
  fault : Option Cause
  r0 : Option Word
deriving DecidableEq, Repr

/-- The answer to command `i`, read in the state after it (R70): the status as STATUS.FAULT and STATUS.CAUSE give it back,
and R0 for a command that returns a sample. -/
def State.answer (i : Instr) (t : State) : Answer where
  fault := t.fault.map FaultRecord.cause
  r0 := if i.writesR0 && !t.faulted then some t.r0 else none

end Sys2Proof.Machine
end

