-- ==== Sys2Proof/Machine/Echo.lean ====
section
/-! DEFINITION. The commands of the feedback echo (R115 to R121). -/

namespace Sys2Proof.Machine

/-- What ECHO.NEWF and ECHO.NEWV share (R115, R116): the same operands and checks, over the delay line `backing` builds. -/
def newEcho (backing : Nat → DelayLine) (s : State) : Effect :=
  match s.echo with
  | some _ => .raise .alreadyConstructed
  | none =>
    if badCapacity (s.opU 0) then .raise .badCapacity
    else if !inUnit (s.opF 1) then .raise .badFeedback
    else if !mixOK (s.opF 2) (s.opF 3) then .raise .badMix
    else .done { s with echo := some { delay := backing (s.opU 0), feedback := s.opF 1, dry := s.opF 2, wet := s.opF 3 } }

/-- ECHO.NEWF (R115). -/
def echoNewfBody (s : State) : Effect := newEcho (fun N => .fixedLine (FDLState.new N)) s

/-- ECHO.NEWF as a command. -/
def execEchoNewf (s : State) : Host.Outcome State Fault Refusal := perform (encode .echoNewf) echoNewfBody s

/-- ECHO.NEWV (R116): the first offset is N - 1. -/
def echoNewvBody (s : State) : Effect := newEcho (fun N => .variableLine (VDLState.new N (N - 1))) s

/-- ECHO.NEWV as a command. -/
def execEchoNewv (s : State) : Host.Outcome State Fault Refusal := perform (encode .echoNewv) echoNewvBody s

/-- ECHO.TICK (R117). -/
def echoTickBody (s : State) : Effect :=
  match s.echo with
  | none => .raise .notConstructed
  | some e =>
    match e.tick (nanDraw s.draws) (s.opF 0) with
    | none => .stop .bufferAddress
    | some (out, e') => .done (({ s with echo := some e' }.setR0 out).nextDraw)

/-- ECHO.TICK as a command. -/
def execEchoTick (s : State) : Host.Outcome State Fault Refusal := perform (encode .echoTick) echoTickBody s

/-- ECHO.SETDLY (R118): the backing is checked before the length. -/
def echoSetdlyBody (s : State) : Effect :=
  match s.echo with
  | none => .raise .notConstructed
  | some e =>
    match e.delay with
    | .fixedLine _ => .raise .delayNotResizable
    | .variableLine v =>
      if v.N ≤ s.opU 0 then .raise .badOffset
      else .done { s with echo := some { e with delay := .variableLine (v.setOffset (s.opU 0)) } }

/-- ECHO.SETDLY as a command. -/
def execEchoSetdly (s : State) : Host.Outcome State Fault Refusal := perform (encode .echoSetdly) echoSetdlyBody s

/-- ECHO.SETFB (R119). -/
def echoSetfbBody (s : State) : Effect :=
  match s.echo with
  | none => .raise .notConstructed
  | some e =>
    if !inUnit (s.opF 0) then .raise .badFeedback
    else .done { s with echo := some { e with feedback := s.opF 0 } }

/-- ECHO.SETFB as a command. -/
def execEchoSetfb (s : State) : Host.Outcome State Fault Refusal := perform (encode .echoSetfb) echoSetfbBody s

/-- ECHO.SETMIX (R120): both coefficients in one step. -/
def echoSetmixBody (s : State) : Effect :=
  match s.echo with
  | none => .raise .notConstructed
  | some e =>
    if !mixOK (s.opF 0) (s.opF 1) then .raise .badMix
    else .done { s with echo := some { e with dry := s.opF 0, wet := s.opF 1 } }

/-- ECHO.SETMIX as a command. -/
def execEchoSetmix (s : State) : Host.Outcome State Fault Refusal := perform (encode .echoSetmix) echoSetmixBody s

end Sys2Proof.Machine
end

