-- ==== Sys2Proof/Machine/Fdl.lean ====
section
/-! DEFINITION. The commands of the fixed delay line (R90 to R92, R94). -/

namespace Sys2Proof.Machine

/-- FDL.NEW (R90). -/
def fdlNewBody (s : State) : Effect :=
  match s.fdl with
  | some _ => .raise .alreadyConstructed
  | none =>
    if badCapacity (s.opU 0) then .raise .badCapacity
    else .done { s with fdl := some (FDLState.new (s.opU 0)) }

/-- FDL.NEW as a command. -/
def execFdlNew (s : State) : Host.Outcome State Fault Refusal := perform (encode .fdlNew) fdlNewBody s

/-- FDL.TICK (R91). -/
def fdlTickBody (s : State) : Effect :=
  match s.fdl with
  | none => .raise .notConstructed
  | some f =>
    match f.tick (s.opF 0) with
    | none => .stop .bufferAddress
    | some (out, f') => .done ({ s with fdl := some f' }.setR0 out)

/-- FDL.TICK as a command. -/
def execFdlTick (s : State) : Host.Outcome State Fault Refusal := perform (encode .fdlTick) fdlTickBody s

/-- FDL.READ (R92). -/
def fdlReadBody (s : State) : Effect :=
  match s.fdl with
  | none => .raise .notConstructed
  | some f =>
    match f.peek with
    | none => .stop .bufferAddress
    | some out => .done (s.setR0 out)

/-- FDL.READ as a command. -/
def execFdlRead (s : State) : Host.Outcome State Fault Refusal := perform (encode .fdlRead) fdlReadBody s

end Sys2Proof.Machine
end

