-- ==== Sys2Proof/Machine/Mde.lean ====
section
/-! DEFINITION. The commands of the modulated delay effect (R135, R136). -/

namespace Sys2Proof.Machine

/-- MDE.NEW (R135). `lfo_index` and `depth` are not checked. -/
def mdeNewBody (s : State) : Effect :=
  match s.mde with
  | some _ => .raise .alreadyConstructed
  | none =>
    if Config.capMax - 1 < s.opU 0 then .raise .badCapacity
    else if !inUnit (s.opF 3) then .raise .badFeedback
    else if !mixOK (s.opF 4) (s.opF 5) then .raise .badMix
    else .done { s with mde := some { base := s.opU 0, lfoIndex := s.opF 1, depth := s.opF 2, echo := { delay := .variableLine (VDLState.new (s.opU 0 + 1) (s.opU 0)), feedback := s.opF 3, dry := s.opF 4, wet := s.opF 5 } } }

/-- MDE.NEW as a command. -/
def execMdeNew (s : State) : Host.Outcome State Fault Refusal := perform (encode .mdeNew) mdeNewBody s

/-- R136 step 1b: the oscillator's answer as an lfo value, `osc * 0.5 + 0.5`, two roundings. -/
def lfoValue (nan : Nat → Word) (osc : Word) : Word := fadd (nan 1) (fmul (nan 0) osc HALF) HALF

/-- R136 steps 2a to 2c: `base * (1 - lfo * lfo_index)`, three roundings. -/
def MDEState.modulated (nan : Nat → Word) (m : MDEState) (lfo : Word) : Word :=
  fmul (nan 4) (u2f m.base) (fsub (nan 3) ONE (fmul (nan 2) lfo m.lfoIndex))

/-- R136 steps 1b to 2d: the delay length of this tick. -/
def MDEState.length (nan : Nat → Word) (m : MDEState) (osc : Word) : Nat :=
  clampLen (m.modulated nan (lfoValue nan osc)) (m.base + 1)

/-- R136 steps 1b to 4b for one oscillator answer: the result and the effect's state after. The inner echo's operations
draw their NaNs after the five of steps 1 and 2, and step 4b after those. -/
def MDEState.tick (nan : Nat → Word) (m : MDEState) (osc x : Word) : Option (Word × MDEState) :=
  match m.echo.delay with
  | .fixedLine _ => none
  | .variableLine v =>
    match { m.echo with delay := .variableLine (v.setOffset (m.length nan osc)) }.tick (fun k => nan (k + 5)) x with
    | none => none
    | some (y, e) => some (fmul (nan 10) y m.depth, { m with echo := e })

/-- MDE.TICK (R136): the oscillator is exchanged with once, and only when the unit is constructed (R137). -/
def mdeTickBody (s : State) : Effect :=
  match s.mde with
  | none => .raise .notConstructed
  | some m =>
    if !m.echo.delay.isVariable then .stop .innerEchoFixed
    else
      match m.tick (nanDraw s.draws) (oscExchange (s.opF 0) s).1 (s.opF 0) with
      | none => .stop .bufferAddress
      | some (out, m') => .done ((({ (oscExchange (s.opF 0) s).2 with mde := some m' }).setR0 out).nextDraw)

/-- MDE.TICK as a command. -/
def execMdeTick (s : State) : Host.Outcome State Fault Refusal := perform (encode .mdeTick) mdeTickBody s

end Sys2Proof.Machine
end

