-- ==== Sys2Proof/Machine/Vdl.lean ====
section
/-! DEFINITION. The commands of the variable delay line (R100 to R103). -/

namespace Sys2Proof.Machine

/-- VDL.NEW (R100). -/
def vdlNewBody (s : State) : Effect :=
  match s.vdl with
  | some _ => .raise .alreadyConstructed
  | none =>
    if badCapacity (s.opU 0) then .raise .badCapacity
    else if s.opU 0 ≤ s.opU 1 then .raise .badOffset
    else .done { s with vdl := some (VDLState.new (s.opU 0) (s.opU 1)) }

/-- VDL.NEW as a command. -/
def execVdlNew (s : State) : Host.Outcome State Fault Refusal := perform (encode .vdlNew) vdlNewBody s

/-- VDL.TICK (R101). -/
def vdlTickBody (s : State) : Effect :=
  match s.vdl with
  | none => .raise .notConstructed
  | some v =>
    match v.tick (s.opF 0) with
    | none => .stop .bufferAddress
    | some (out, v') => .done ({ s with vdl := some v' }.setR0 out)

/-- VDL.TICK as a command. -/
def execVdlTick (s : State) : Host.Outcome State Fault Refusal := perform (encode .vdlTick) vdlTickBody s

/-- VDL.READ (R102). -/
def vdlReadBody (s : State) : Effect :=
  match s.vdl with
  | none => .raise .notConstructed
  | some v =>
    match v.peek with
    | none => .stop .bufferAddress
    | some out => .done (s.setR0 out)

/-- VDL.READ as a command. -/
def execVdlRead (s : State) : Host.Outcome State Fault Refusal := perform (encode .vdlRead) vdlReadBody s

/-- VDL.SETOFF (R103). -/
def vdlSetoffBody (s : State) : Effect :=
  match s.vdl with
  | none => .raise .notConstructed
  | some v =>
    if v.N ≤ s.opU 0 then .raise .badOffset
    else .done { s with vdl := some (v.setOffset (s.opU 0)) }

/-- VDL.SETOFF as a command. -/
def execVdlSetoff (s : State) : Host.Outcome State Fault Refusal := perform (encode .vdlSetoff) vdlSetoffBody s

end Sys2Proof.Machine
end

