-- ==== Sys2Proof/Machine/Dispatch.lean ====
section
/-! DEFINITION. One arm per command (R73). -/

namespace Sys2Proof.Machine

def exec (i : Instr) (s : State) : Host.Outcome State Fault Refusal :=
  match i with
  | .fdlNew => Sys2Proof.Machine.execFdlNew s
  | .fdlTick => Sys2Proof.Machine.execFdlTick s
  | .fdlRead => Sys2Proof.Machine.execFdlRead s
  | .vdlNew => Sys2Proof.Machine.execVdlNew s
  | .vdlTick => Sys2Proof.Machine.execVdlTick s
  | .vdlRead => Sys2Proof.Machine.execVdlRead s
  | .vdlSetoff => Sys2Proof.Machine.execVdlSetoff s
  | .echoNewf => Sys2Proof.Machine.execEchoNewf s
  | .echoTick => Sys2Proof.Machine.execEchoTick s
  | .echoSetdly => Sys2Proof.Machine.execEchoSetdly s
  | .echoSetfb => Sys2Proof.Machine.execEchoSetfb s
  | .echoSetmix => Sys2Proof.Machine.execEchoSetmix s
  | .echoNewv => Sys2Proof.Machine.execEchoNewv s
  | .mdeNew => Sys2Proof.Machine.execMdeNew s
  | .mdeTick => Sys2Proof.Machine.execMdeTick s

end Sys2Proof.Machine
end

