-- ==== Sys2Proof/Machine/Bus.lean ====
section
/-! DEFINITION. What each action of the host does (R16, R29, R30, R52, R53, R155, R170). -/

namespace Sys2Proof.Machine

/-- Issuing a command word (R30, R152): decoded, then performed with the operand words A0 to A5 hold now. -/
def issue (w : Word) (s : State) : Host.Outcome State Fault Refusal :=
  match decode w with
  | .error _ => performIllegal w s
  | .ok i => exec i s

/-- A whole-word host write (R29): CMD issues, A0 to A5 take the word, every other register ignores it. -/
def writeReg (r : HostReg) (w : Word) (s : State) : Host.Outcome State Fault Refusal :=
  match r with
  | .cmd => issue w s
  | .operand k => .next { s with a := s.a.set k w }
  | .status => .next s
  | .faultCmd => .next s
  | .r0 => .next s
  | .reserved => .next s

/-- A reply delivered to the host; nothing of the DLC changes (R55: no register has a read side effect). -/
def State.reply (s : State) (r : HostReply) : State := { s with reads := r :: s.reads }

/-- The register a bus access of `size` bytes at byte address `addr` names (R29: register k at REG_BASE + 4k), or why the
access is refused (R52, R53). DESIGN CHOICE, safe (log entry 8): the names of the refusals and their order (the size before
the alignment), alignment measured from REG_BASE, and addresses below it refused. -/
def busReg (addr size : Nat) : Except Refusal HostReg :=
  if addr < Config.regBase then .error .outsideRegisters
  else if size ≠ 4 then .error .narrowAccess
  else if (addr - Config.regBase) % 4 ≠ 0 then .error .misalignedAccess
  else .ok (HostReg.ofNumber ((addr - Config.regBase) / 4))

/-- The word of four bytes, the first (lowest address) least significant (R52: little-endian). -/
def wordOfBytes : List Byte → Word
  | [] => 0
  | b :: rest => b.zeroExtend 32 ||| (wordOfBytes rest <<< 8)

/-- The four bytes of a word, least significant first (R52). -/
def bytesOfWord (w : Word) : List Byte :=
  [w.extractLsb' 0 8, w.extractLsb' 8 8, w.extractLsb' 16 8, w.extractLsb' 24 8]

/-- One action of the host. -/
def performAction (act : HostAction) (s : State) : Host.Outcome State Fault Refusal :=
  match act with
  | .write k w => writeReg (HostReg.ofNumber k) w s
  | .read k => .next (s.reply (.word (s.readReg (HostReg.ofNumber k))))
  | .busWrite addr bytes =>
    match busReg addr bytes.length with
    | .error r => .refused r
    | .ok reg => writeReg reg (wordOfBytes bytes) s
  | .busRead addr size =>
    match busReg addr size with
    | .error r => .refused r
    | .ok reg => .next (s.reply (.bytes (bytesOfWord (s.readReg reg))))
  | .reset => .next (resetPin s)

end Sys2Proof.Machine
end

