-- ==== Sys2Proof/Machine/Step.lean ====
section
/-! DEFINITION. One step of the machine: the host's next action (R3, R16, R58). The DLC has no program counter and fetches
nothing (R33, R60); with no action pending it does nothing. Log entry 2. -/

namespace Sys2Proof.Machine

/-- One step: the oldest pending action of the host, or nothing when none is pending. -/
def step (s : State) : Host.Outcome State Fault Refusal :=
  match s.host with
  | [] => .next s
  | act :: rest => performAction act { s with host := rest }

/-- The state in which the host's next action writes this command word to CMD (R30), so that the next step performs it. -/
def State.withFetchWord (s : State) (_nbits w : Nat) : State :=
  { s with host := .write 0 (BitVec.ofNat 32 w) :: s.host }

end Sys2Proof.Machine
end

