-- ==== Sys2Proof/Machine/Asm.lean ====
section
/-! DEFINITION. The textual form of a program (R16, R77, R78): its lines, read from characters, and the host actions and
oscillator answers a line stands for. Spelling details R77 leaves open: log entry 15; answers that no
exchange takes: log entry 16. -/

namespace Sys2Proof.Machine

/-! ### What a line stands for -/

/-- The binary32 magnitude nearest to `num / den`, ties to even (R77): the quotient in units of 2^-297 with one more bit
that tells an inexact quotient from a tie. -/
def nearestMag (num den : Nat) : Nat :=
  roundMag (2 * (num * 2 ^ 297 / den) + if num * 2 ^ 297 % den = 0 then 0 else 1)

/-- The binary32 value nearest to the decimal (R77). -/
def decimalWord (neg : Bool) (digits : Nat) (exp10 : Int) : Word :=
  pack neg (nearestMag (digits * 10 ^ exp10.toNat) (10 ^ (-exp10).toNat))

/-- The word an operand stands for (R77). -/
def literalWord : Literal → Word
  | .int n => BitVec.ofNat 32 n
  | .dec neg digits exp10 => decimalWord neg digits exp10
  | .bits w => w

/-- The host writes of a line's operands to A`k`, A`k+1`, … (R29: A0 is register 8). -/
def operandWrites : Nat → List Literal → List HostAction
  | _, [] => []
  | k, l :: ls => .write (8 + k) (literalWord l) :: operandWrites (k + 1) ls

/-- A line as host actions (R77): the operand words, then the command word to CMD. Operand registers the command does not
read are left as they were. -/
def lineActions (l : Line) : List HostAction := operandWrites 0 l.args ++ [.write 0 (encode l.instr)]

/-- A program put before the machine (R16): its actions at the end of the host's, its oscillator answers at the end of the
oscillator's. DESIGN CHOICE, unsafe (log entry 16): R77 does not say what becomes of the answer on an MDE.TICK line whose
command faults or is ignored, so that no exchange happens. Here it stays in `oscIn`, through a reset too, and the next
exchange takes it. -/
def State.load (ls : List Line) (s : State) : State :=
  { s with host := s.host ++ ls.flatMap lineActions, oscIn := s.oscIn ++ ls.filterMap fun l => l.osc.map literalWord }

/-! ### Reading a line from characters -/

/-- The mnemonics of R73. -/
def mnemonicChars : Instr → List Char
  | .fdlNew => ['F', 'D', 'L', '.', 'N', 'E', 'W']
  | .fdlTick => ['F', 'D', 'L', '.', 'T', 'I', 'C', 'K']
  | .fdlRead => ['F', 'D', 'L', '.', 'R', 'E', 'A', 'D']
  | .vdlNew => ['V', 'D', 'L', '.', 'N', 'E', 'W']
  | .vdlTick => ['V', 'D', 'L', '.', 'T', 'I', 'C', 'K']
  | .vdlRead => ['V', 'D', 'L', '.', 'R', 'E', 'A', 'D']
  | .vdlSetoff => ['V', 'D', 'L', '.', 'S', 'E', 'T', 'O', 'F', 'F']
  | .echoNewf => ['E', 'C', 'H', 'O', '.', 'N', 'E', 'W', 'F']
  | .echoTick => ['E', 'C', 'H', 'O', '.', 'T', 'I', 'C', 'K']
  | .echoSetdly => ['E', 'C', 'H', 'O', '.', 'S', 'E', 'T', 'D', 'L', 'Y']
  | .echoSetfb => ['E', 'C', 'H', 'O', '.', 'S', 'E', 'T', 'F', 'B']
  | .echoSetmix => ['E', 'C', 'H', 'O', '.', 'S', 'E', 'T', 'M', 'I', 'X']
  | .echoNewv => ['E', 'C', 'H', 'O', '.', 'N', 'E', 'W', 'V']
  | .mdeNew => ['M', 'D', 'E', '.', 'N', 'E', 'W']
  | .mdeTick => ['M', 'D', 'E', '.', 'T', 'I', 'C', 'K']

/-- The fifteen commands, to look a mnemonic up. -/
def allInstrs : List Instr :=
  [.fdlNew, .fdlTick, .fdlRead, .vdlNew, .vdlTick, .vdlRead, .vdlSetoff, .echoNewf, .echoTick, .echoSetdly, .echoSetfb,
    .echoSetmix, .echoNewv, .mdeNew, .mdeTick]

/-- The command a mnemonic names. -/
def readMnemonic (cs : List Char) : Option Instr := allInstrs.find? fun i => mnemonicChars i == cs

/-- The value of a hexadecimal digit; a decimal digit is one below 10. -/
def digitValue (c : Char) : Option Nat :=
  if 48 ≤ c.toNat ∧ c.toNat ≤ 57 then some (c.toNat - 48)
  else if 65 ≤ c.toNat ∧ c.toNat ≤ 70 then some (c.toNat - 55)
  else if 97 ≤ c.toNat ∧ c.toNat ≤ 102 then some (c.toNat - 87)
  else none

def readDigitsFrom (base : Nat) : Nat → List Char → Option Nat
  | acc, [] => some acc
  | acc, c :: cs =>
    match digitValue c with
    | none => none
    | some d => if d < base then readDigitsFrom base (acc * base + d) cs else none

/-- A non-empty string of digits of this base. -/
def readDigits (base : Nat) (cs : List Char) : Option Nat :=
  if cs.isEmpty then none else readDigitsFrom base 0 cs

/-- The string before the first `c`, and what follows it where there is one. -/
def cutAt (c : Char) : List Char → List Char × Option (List Char)
  | [] => ([], none)
  | d :: ds => if d = c then ([], some ds) else (d :: (cutAt c ds).1, (cutAt c ds).2)

/-- The strings between the commas. -/
def splitCommas : List Char → List (List Char)
  | [] => [[]]
  | d :: ds =>
    if d = ',' then [] :: splitCommas ds
    else
      match splitCommas ds with
      | [] => [[d]]
      | t :: ts => (d :: t) :: ts

/-- A string without the blanks around it; a blank is the space character alone (log entry 15). -/
def trim (cs : List Char) : List Char := ((cs.dropWhile (· == ' ')).reverse.dropWhile (· == ' ')).reverse

/-- An integer operand (R77): decimal, or hexadecimal after `0x`; no sign (log entry 15). -/
def readInt : List Char → Option Literal
  | '0' :: 'x' :: hs => (readDigits 16 hs).map Literal.int
  | cs => (readDigits 10 cs).map Literal.int

/-- An exponent after a decimal: none, or `e` and digits, with a minus sign or not (log entry 15). -/
def readExponent : Option (List Char) → Option Int
  | none => some 0
  | some ('-' :: ds) => (readDigits 10 ds).map fun n => -(n : Int)
  | some ds => (readDigits 10 ds).map fun n => (n : Int)

/-- A decimal with a point (R77). DESIGN CHOICE, safe (log entry 15): at least one digit on each side of the point, so `1.`
and `.5` are refused. -/
def readDecimal (neg : Bool) (cs : List Char) : Option Literal :=
  match cutAt '.' (cutAt 'e' cs).1 with
  | (_, none) => none
  | (whole, some frac) =>
    match readDigits 10 whole, readDigits 10 frac, readDigits 10 (whole ++ frac), readExponent (cutAt 'e' cs).2 with
    | some _, some _, some digits, some e => some (.dec neg digits (e - frac.length))
    | _, _, _, _ => none

/-- A floating operand (R77): `0x........f` with eight hexadecimal digits, or a decimal with a point, a minus sign before
it or none (log entry 15). -/
def readFloat : List Char → Option Literal
  | '0' :: 'x' :: hs =>
    if hs.length = 9 ∧ hs.getLast? = some 'f' then (readDigits 16 hs.dropLast).map fun n => .bits (BitVec.ofNat 32 n)
    else none
  | '-' :: cs => readDecimal true cs
  | cs => readDecimal false cs

/-- An operand of this type. -/
def readLiteral : OperandType → List Char → Option Literal
  | .u32, cs => readInt cs
  | .f32, cs => readFloat cs

/-- The operands of these types, in order, and no other. -/
def readOperands : List OperandType → List (List Char) → Option (List Literal)
  | [], [] => some []
  | t :: ts, c :: cs =>
    match readLiteral t (trim c), readOperands ts cs with
    | some l, some ls => some (l :: ls)
    | _, _ => none
  | [], _ :: _ => none
  | _ :: _, [] => none

/-- The operand text after a mnemonic: nothing, or strings between commas. -/
def operandTexts (cs : List Char) : List (List Char) := if (trim cs).isEmpty then [] else splitCommas (trim cs)

/-- The text after the semicolon (R77): `osc = ` and a floating operand. -/
def readOsc (cs : List Char) : Option Literal :=
  match cutAt '=' cs with
  | (name, some v) => if trim name = ['o', 's', 'c'] then readFloat (trim v) else none
  | (_, none) => none

/-- A line of the textual form (R77), read from its characters; only a well-formed line is read. -/
def readLine (cs : List Char) : Option Line :=
  match readMnemonic (cutAt ' ' (trim (cutAt ';' cs).1)).1 with
  | none => none
  | some i =>
    match readOperands i.operands (operandTexts (((cutAt ' ' (trim (cutAt ';' cs).1)).2).getD [])) with
    | none => none
    | some args =>
      match (cutAt ';' cs).2 with
      | none => if Line.wf ⟨i, args, none⟩ then some ⟨i, args, none⟩ else none
      | some t =>
        match readOsc t with
        | none => none
        | some v => if Line.wf ⟨i, args, some v⟩ then some ⟨i, args, some v⟩ else none

end Sys2Proof.Machine
end

