-- ==== Sys2Proof/Safety.lean ====
section
/-! DEFINITION. The invariants the spec gives the state (R22, R23, R25, R26), the checks of R151 and
R152 as one list, and the words the statements about many ticks are written in (R93, R104, R122, R123, R140). -/

namespace Sys2Proof.Machine

/-! ### Invariants -/

/-- A buffer of `N` words in canonical form, with no word outside [0, N) (R50, R51). -/
abbrev Memory.Ok (N : Nat) (m : Memory) : Prop := m.wf = true ∧ ∀ c ∈ m.cells, c.1 < N

/-- R22: 1 ≤ N ≤ CAP_MAX and 0 ≤ index < N. -/
abbrev FDLState.Inv (f : FDLState) : Prop := 1 ≤ f.N ∧ f.N ≤ Config.capMax ∧ f.index < f.N ∧ f.buf.Ok f.N

/-- R23: 1 ≤ N ≤ CAP_MAX, and widx, ridx and offset in [0, N). -/
abbrev VDLState.Inv (v : VDLState) : Prop :=
  1 ≤ v.N ∧ v.N ≤ Config.capMax ∧ v.widx < v.N ∧ v.ridx < v.N ∧ v.offset < v.N ∧ v.buf.Ok v.N

def DelayLine.fixed? : DelayLine → Option FDLState
  | .fixedLine f => some f
  | .variableLine _ => none

def DelayLine.variable? : DelayLine → Option VDLState
  | .fixedLine _ => none
  | .variableLine v => some v

/-- The capacity of the delay line an echo owns. -/
def DelayLine.capacity : DelayLine → Nat
  | .fixedLine f => f.N
  | .variableLine v => v.N

/-- The buffer of the delay line an echo owns. -/
def DelayLine.buf : DelayLine → Memory
  | .fixedLine f => f.buf
  | .variableLine v => v.buf

abbrev DelayLine.Inv (d : DelayLine) : Prop := (∀ f ∈ d.fixed?, f.Inv) ∧ ∀ v ∈ d.variable?, v.Inv

/-- R25: the owned delay line is well formed, `inUnit(feedback)`, `mixOK(dry, wet)`. -/
abbrev EchoState.Inv (e : EchoState) : Prop := e.delay.Inv ∧ inUnit e.feedback = true ∧ mixOK e.dry e.wet = true

/-- R26: base ≤ CAP_MAX - 1, and the inner echo is variable-backed with capacity base + 1. -/
abbrev MDEState.Inv (m : MDEState) : Prop :=
  m.base ≤ Config.capMax - 1 ∧ m.echo.Inv ∧ m.echo.delay.isVariable = true ∧ m.echo.delay.capacity = m.base + 1

/-- What the spec says of every state the machine reaches (R22, R23, R25, R26). -/
abbrev State.Inv (s : State) : Prop :=
  (∀ f ∈ s.fdl, f.Inv) ∧ (∀ v ∈ s.vdl, v.Inv) ∧ (∀ e ∈ s.echo, e.Inv) ∧ ∀ m ∈ s.mde, m.Inv

/-! ### Reading outcomes -/

/-- The same outcome with its next state, where there is one, changed by `f`. -/
def mapNext (f : State → State) : Host.Outcome State Fault Refusal → Host.Outcome State Fault Refusal
  | .next t => .next (f t)
  | .fault r => .fault r
  | .refused r => .refused r

/-- A unit that `i` addresses is constructed. -/
def State.constructed (s : State) : UnitKind → Bool
  | .fdl => s.fdl.isSome
  | .vdl => s.vdl.isSome
  | .echo => s.echo.isSome
  | .mde => s.mde.isSome

/-- The capacity of a unit's buffer, where the unit is constructed. -/
def State.capacity (s : State) : UnitKind → Option Nat
  | .fdl => s.fdl.map FDLState.N
  | .vdl => s.vdl.map VDLState.N
  | .echo => s.echo.map fun e => e.delay.capacity
  | .mde => s.mde.map fun m => m.echo.delay.capacity

/-- The buffer of a unit, where the unit is constructed. -/
def State.buffer (s : State) : UnitKind → Option Memory
  | .fdl => s.fdl.map FDLState.buf
  | .vdl => s.vdl.map VDLState.buf
  | .echo => s.echo.map fun e => e.delay.buf
  | .mde => s.mde.map fun m => m.echo.delay.buf

/-- The slot a delay line's next tick writes: the fixed cursor (R91) or the write index (R101). -/
def DelayLine.writeCursor : DelayLine → Nat
  | .fixedLine f => f.index
  | .variableLine v => v.widx

/-- The slot a unit's next TICK writes, where the unit is constructed (R57 `EA_write`). -/
def State.writeCursor (s : State) : UnitKind → Option Nat
  | .fdl => s.fdl.map FDLState.index
  | .vdl => s.vdl.map VDLState.widx
  | .echo => s.echo.map fun e => e.delay.writeCursor
  | .mde => s.mde.map fun m => m.echo.delay.writeCursor

/-- The state with the units other than `u` replaced by those of `o`. -/
def State.othersFrom (u : UnitKind) (o s : State) : State :=
  match u with
  | .fdl => { s with vdl := o.vdl, echo := o.echo, mde := o.mde }
  | .vdl => { s with fdl := o.fdl, echo := o.echo, mde := o.mde }
  | .echo => { s with fdl := o.fdl, vdl := o.vdl, mde := o.mde }
  | .mde => { s with fdl := o.fdl, vdl := o.vdl, echo := o.echo }

/-! ### Faults -/

/-- Command `i` takes the configuration fault with this cause (R153): the cause and the command's own word are recorded and
nothing else changes. -/
def raises (i : Instr) (c : Cause) (s : State) : Prop := exec i s = .next { s with fault := some ⟨c, encode i⟩ }

/-- The capacity a constructing command asks for (R151 row 4). -/
def State.askedCapacity (s : State) : Instr → Option Nat
  | .fdlNew | .vdlNew | .echoNewf | .echoNewv => some s.a.a0.toNat
  | .mdeNew => some (s.a.a0.toNat + 1)
  | .fdlTick | .fdlRead | .vdlTick | .vdlRead | .vdlSetoff | .echoTick | .echoSetdly | .echoSetfb | .echoSetmix
  | .mdeTick => none

/-- The delay a command asks for, with the capacity it has to lie below (R151 row 5). -/
def State.askedDelay (s : State) : Instr → Option (Nat × Nat)
  | .vdlNew => some (s.a.a1.toNat, s.a.a0.toNat)
  | .vdlSetoff => s.vdl.map fun v => (s.a.a0.toNat, v.N)
  | .echoSetdly => s.echo.map fun e => (s.a.a0.toNat, e.delay.capacity)
  | .fdlNew | .fdlTick | .fdlRead | .vdlTick | .vdlRead | .echoNewf | .echoNewv | .echoTick | .echoSetfb | .echoSetmix
  | .mdeNew | .mdeTick => none

/-- The feedback a command gives (R151 row 6). -/
def State.givenFeedback (s : State) : Instr → Option Word
  | .echoNewf | .echoNewv => some s.a.a1
  | .echoSetfb => some s.a.a0
  | .mdeNew => some s.a.a3
  | .fdlNew | .fdlTick | .fdlRead | .vdlNew | .vdlTick | .vdlRead | .vdlSetoff | .echoTick | .echoSetdly | .echoSetmix
  | .mdeTick => none

/-- The dry and wet a command gives (R151 row 7). -/
def State.givenMix (s : State) : Instr → Option (Word × Word)
  | .echoNewf | .echoNewv => some (s.a.a2, s.a.a3)
  | .echoSetmix => some (s.a.a0, s.a.a1)
  | .mdeNew => some (s.a.a4, s.a.a5)
  | .fdlNew | .fdlTick | .fdlRead | .vdlNew | .vdlTick | .vdlRead | .vdlSetoff | .echoTick | .echoSetdly | .echoSetfb
  | .mdeTick => none

/-- The checks of R152 (3) to (5) in their order, each with the condition of R151 under which it fails. -/
def State.checks (s : State) (i : Instr) : List (Cause × Bool) :=
  [ (.notConstructed, !i.constructs && !s.constructed i.unit),
    (.alreadyConstructed, i.constructs && s.constructed i.unit),
    (.delayNotResizable, decide (i = .echoSetdly) && s.echo.any fun e => !e.delay.isVariable),
    (.badCapacity, (s.askedCapacity i).any fun N => decide (N = 0) || decide (Config.capMax < N)),
    (.badOffset, (s.askedDelay i).any fun p => decide (p.2 ≤ p.1)),
    (.badFeedback, (s.givenFeedback i).any fun v => !inUnit v),
    (.badMix, (s.givenMix i).any fun p => !mixOK p.1 p.2) ]

/-- The cause of the first check that fails (R152). -/
def State.firstFailing (s : State) (i : Instr) : Option Cause := ((s.checks i).find? Prod.snd).map Prod.fst

/-! ### Many commands -/

/-- A command that ran, with the states it began in (its operand words in place) and ended in. -/
structure Ran where
  instr : Instr
  pre : State
  post : State
deriving DecidableEq, Repr

/-- A program as R16 has it: commands in order, each with its operand words. Answers what ran and the last state; `none` if
some command does not end in a next state. -/
def history : List (Instr × OperandRegs) → State → Option (List Ran × State)
  | [], s => some ([], s)
  | (i, a) :: cs, s =>
    match exec i { s with a := a } with
    | .next t => (history cs t).map fun p => (⟨i, { s with a := a }, t⟩ :: p.1, p.2)
    | .fault _ => none
    | .refused _ => none

/-- The commands `i` of a history that completed with status OK, in order: the ticks R93, R104, R122, R123 and R140 number
0, 1, 2, … (a command that faulted or was ignored is none of them). -/
def ticksOf (i : Instr) (h : List Ran) : List Ran := h.filter fun r => decide (r.instr = i) && !r.post.faulted

/-- The samples `x_0, x_1, …` given to these ticks. -/
def samples (ks : List Ran) : List Word := ks.map fun r => r.pre.a.a0

/-- The sample `d` before the `k`-th of a sequence, zero before the first (R93, R104: "or 0 if none"). -/
def before (xs : List Word) (k d : Nat) : Word := if d ≤ k then xs.getD (k - d) 0 else 0

/-- What slot `j` of a buffer of `N` words holds after the samples `xs` have been written in turn (R93, R104): the latest
`x_i` with `i mod N = j`, or zero when there is none. -/
def slotAfter (xs : List Word) (N j : Nat) : Word :=
  if j < xs.length then xs.getD (xs.length - 1 - (xs.length - 1 - j) % N) 0 else 0

end Sys2Proof.Machine
end

