-- ==== Sys2Proof/Certificates/Slice0/Obligations.lean ====
section
/-! DEFINITION. The statements for the provers, from the spec's numbered rules. Where a NaN can come out, a statement says
only that each NaN drawn is some quiet NaN (R12, U1). -/

open Sys2Proof Sys2Proof.Machine

/-! ### The command word -/

/-- R73: the fifteen command words; and some words its section 4 calls illegal. -/
def Obligations.CommandWordsOfTheMap : Prop :=
  decode 0x10000000 = .ok .fdlNew ∧ decode 0x11000000 = .ok .fdlTick ∧ decode 0x12000000 = .ok .fdlRead ∧
    decode 0x20000000 = .ok .vdlNew ∧ decode 0x21000000 = .ok .vdlTick ∧ decode 0x22000000 = .ok .vdlRead ∧
    decode 0x23000000 = .ok .vdlSetoff ∧ decode 0x30000000 = .ok .echoNewf ∧ decode 0x31000000 = .ok .echoTick ∧
    decode 0x33000000 = .ok .echoSetdly ∧ decode 0x34000000 = .ok .echoSetfb ∧ decode 0x35000000 = .ok .echoSetmix ∧
    decode 0x36000000 = .ok .echoNewv ∧ decode 0x40000000 = .ok .mdeNew ∧ decode 0x41000000 = .ok .mdeTick ∧
    decode 0x32000000 = .error .reservedFunc ∧ decode 0x00000000 = .error .reservedUnit ∧
    decode 0xFFFFFFFF = .error .zeroField

/-- R73 to R75: a word decodes to a command exactly when it is that command's word, so every encoding decodes back and no
other of the 2^32 words decodes to anything. -/
def Obligations.DecodeInvertsEncode : Prop := ∀ (w : Word) (i : Instr), decode w = .ok i ↔ w = encode i

/-! ### The step: what the host does -/

/-- R30: a write of a command word to CMD runs the command it decodes to, with the operand words of that moment. -/
def Obligations.StepRunsDecodedCommand : Prop :=
  ∀ (s : State) (rest : List HostAction) (w : Word) (i : Instr),
    s.host = .write 0 w :: rest → decode w = .ok i → step s = exec i { s with host := rest }

/-- The model's choice (log entry 2): with no host action pending, a step changes nothing. -/
def Obligations.StepWaitsForHost : Prop := ∀ s : State, s.host = [] → step s = .next s

/-- R74: a word that is no command's word raises ILLEGAL_COMMAND and changes nothing else. -/
def Obligations.IllegalWordFaults : Prop :=
  ∀ (s : State) (rest : List HostAction) (w : Word),
    s.host = .write 0 w :: rest → s.fault = none → (∀ i : Instr, w ≠ encode i) →
      step s = .next { s with host := rest, fault := some ⟨.illegalCommand, w⟩ }

/-- R29, R155: a host write of an operand register stores the word there, in every state; a write of any register but CMD
and A0 to A5 changes nothing. -/
def Obligations.HostWritesRegister : Prop :=
  ∀ (s : State) (rest : List HostAction) (k : Nat) (w : Word), s.host = .write k w :: rest →
    (k = 8 → step s = .next { s with host := rest, a := { s.a with a0 := w } }) ∧
    (k = 9 → step s = .next { s with host := rest, a := { s.a with a1 := w } }) ∧
    (k = 10 → step s = .next { s with host := rest, a := { s.a with a2 := w } }) ∧
    (k = 11 → step s = .next { s with host := rest, a := { s.a with a3 := w } }) ∧
    (k = 12 → step s = .next { s with host := rest, a := { s.a with a4 := w } }) ∧
    (k = 13 → step s = .next { s with host := rest, a := { s.a with a5 := w } }) ∧
    (k ≠ 0 ∧ (k < 8 ∨ 13 < k) → step s = .next { s with host := rest })

/-- R29, R155: what a host read of each register number gives, in every state, and that it changes nothing of the DLC. -/
def Obligations.HostReadsRegister : Prop :=
  ∀ (s : State) (rest : List HostAction) (k : Nat), s.host = .read k :: rest →
    ∃ v : Word, step s = .next { s with host := rest, reads := .word v :: s.reads } ∧
      v = if k = 1 then s.status else if k = 2 then s.faultCmd else if k = 3 then s.r0
        else if k = 8 then s.a.a0 else if k = 9 then s.a.a1 else if k = 10 then s.a.a2
        else if k = 11 then s.a.a3 else if k = 12 then s.a.a4 else if k = 13 then s.a.a5 else 0

/-- R52, R53: register `k` is the aligned word at REG_BASE + 4k, its least significant byte at the lowest address; a
register-space access of another width or alignment is refused. The model's choice (log entry 8): that alignment is measured
from REG_BASE, the names of the two refusals, and that the size is looked at first, so that an access of another size is
narrowAccess, aligned or not, and only one of four bytes is misalignedAccess. -/
def Obligations.BusAccessIsWholeWords : Prop :=
  ∀ (s : State) (rest : List HostAction),
    (∀ (k : Nat) (b0 b1 b2 b3 : Byte),
      step { s with host := .busWrite (Config.regBase + 4 * k) [b0, b1, b2, b3] :: rest } =
        step { s with host := .write k (b3 ++ b2 ++ b1 ++ b0) :: rest }) ∧
    (∀ k : Nat, ∃ w : Word,
      step { s with host := .read k :: rest } = .next { s with host := rest, reads := .word w :: s.reads } ∧
      step { s with host := .busRead (Config.regBase + 4 * k) 4 :: rest } =
        .next { s with host := rest, reads := .bytes [w.extractLsb' 0 8, w.extractLsb' 8 8, w.extractLsb' 16 8, w.extractLsb' 24 8] :: s.reads }) ∧
    ∀ (addr : Nat) (bytes : List Byte), Config.regBase ≤ addr →
      (bytes.length ≠ 4 →
        step { s with host := .busRead addr bytes.length :: rest } = .refused .narrowAccess ∧
        step { s with host := .busWrite addr bytes :: rest } = .refused .narrowAccess) ∧
      (bytes.length = 4 ∧ (addr - Config.regBase) % 4 ≠ 0 →
        step { s with host := .busRead addr 4 :: rest } = .refused .misalignedAccess ∧
        step { s with host := .busWrite addr bytes :: rest } = .refused .misalignedAccess)

/-! ### STATUS, FAULTCMD, reset -/

/-- R31, R151, R32, R157: every bit of STATUS in every state, with the code of every cause; FAULTCMD; the fault pin. -/
def Obligations.StatusFaultCommandAndPin : Prop :=
  ∀ s : State,
    s.status.getLsbD 0 = s.fault.isSome ∧ s.status.getLsbD 1 = false ∧ s.status.extractLsb' 2 2 = 0 ∧
    s.status.extractLsb' 4 4 =
      (match s.fault with
        | none => 0
        | some ⟨.illegalCommand, _⟩ => 1
        | some ⟨.notConstructed, _⟩ => 2
        | some ⟨.alreadyConstructed, _⟩ => 3
        | some ⟨.badCapacity, _⟩ => 4
        | some ⟨.badOffset, _⟩ => 5
        | some ⟨.badFeedback, _⟩ => 6
        | some ⟨.badMix, _⟩ => 7
        | some ⟨.delayNotResizable, _⟩ => 8) ∧
    s.status.getLsbD 8 = s.fdl.isSome ∧ s.status.getLsbD 9 = s.vdl.isSome ∧ s.status.getLsbD 10 = s.echo.isSome ∧
    s.status.getLsbD 11 = s.mde.isSome ∧
    (s.status.getLsbD 12 = true ↔ ∃ e v, s.echo = some e ∧ e.delay = .variableLine v) ∧
    s.status.extractLsb' 13 19 = 0 ∧
    (s.fault = none → s.faultCmd = 0) ∧ (∀ c w, s.fault = some ⟨c, w⟩ → s.faultCmd = w) ∧
    s.faultPin = s.fault.isSome

/-- R35: what the spec gives the reset state. -/
def Obligations.ResetLeaves : Prop :=
  State.reset.fdl = none ∧ State.reset.vdl = none ∧ State.reset.echo = none ∧ State.reset.mde = none ∧
    State.reset.fault = none ∧ State.reset.status = 0 ∧ State.reset.faultCmd = 0

/-- R170: asserting reset takes every unit and the fault away, whatever the state. -/
def Obligations.ResetPinClearsEverything : Prop :=
  ∀ (s : State) (rest : List HostAction), s.host = .reset :: rest →
    ∃ t, step s = .next t ∧ t.fdl = none ∧ t.vdl = none ∧ t.echo = none ∧ t.mde = none ∧ t.fault = none ∧
      t.status = 0 ∧ t.faultCmd = 0

/-! ### The configuration fault -/

/-- R155: while a fault is recorded every command, legal or not, is ignored; host reads, and host writes of A0 to A5, still
work. -/
def Obligations.FaultedIgnoresCommands : Prop :=
  ∀ (s : State) (r : FaultRecord), s.fault = some r →
    (∀ i : Instr, exec i s = .next s) ∧
    (∀ (w : Word) (rest : List HostAction), s.host = .write 0 w :: rest → step s = .next { s with host := rest }) ∧
    (∀ (k : Fin 6) (w : Word) (rest : List HostAction), s.host = .write (8 + k.val) w :: rest →
      ∃ a : OperandRegs, step s = .next { s with host := rest, a := a } ∧ a.get k = w ∧
        ∀ j, j ≠ k → a.get j = s.a.get j) ∧
    ∀ (k : Nat) (rest : List HostAction), s.host = .read k :: rest →
      ∃ v : Word, step s = .next { s with host := rest, reads := .word v :: s.reads } ∧
        (k = 1 → v = s.status) ∧ (k = 2 → v = r.cmd) ∧ (k = 3 → v = s.r0) ∧ ∀ j : Fin 6, k = 8 + j.val → v = s.a.get j

/-- R154: nothing but reset clears a recorded fault, and until then no unit and no result changes. -/
def Obligations.FaultIsPermanentUntilReset : Prop :=
  ∀ (s t : State) (r : FaultRecord), s.fault = some r → s.host.head? ≠ some .reset → step s = .next t →
      t.fault = some r ∧ t.fdl = s.fdl ∧ t.vdl = s.vdl ∧ t.echo = s.echo ∧ t.mde = s.mde ∧ t.r0 = s.r0 ∧
        t.oscIn = s.oscIn ∧ t.oscOut = s.oscOut

/-- R153: a command that raises a fault changes nothing but the fault record, which holds the cause and its own word. -/
def Obligations.FaultEntryIsPrecise : Prop :=
  ∀ (i : Instr) (s t : State), s.fault = none → exec i s = .next t → t.fault ≠ none →
    ∃ c, t = { s with fault := some ⟨c, encode i⟩ }

/-- R151, R152: a command reports the first of its checks that fails, in the order fault recorded already, decode,
constructed, backing, capacity, delay, feedback, mix, with that check's cause; where none fails it completes. -/
def Obligations.FirstFailingCheckIsReported : Prop :=
  ∀ (s : State) (rest : List HostAction) (w : Word), s.host = .write 0 w :: rest → s.Inv →
    (s.fault ≠ none → step s = .next { s with host := rest }) ∧
    (s.fault = none → (∀ i : Instr, w ≠ encode i) →
      step s = .next { s with host := rest, fault := some ⟨.illegalCommand, w⟩ }) ∧
    ∀ i : Instr, s.fault = none → w = encode i →
      (∀ c, s.firstFailing i = some c → step s = .next { s with host := rest, fault := some ⟨c, w⟩ }) ∧
      (s.firstFailing i = none → ∃ t, step s = .next t ∧ t.fault = none)

/-! ### The fixed delay line -/

/-- R90: FDL.NEW with a capacity in [1, CAP_MAX] builds N words of zero with the cursor at 0; otherwise, and on a
constructed unit, it faults. -/
def Obligations.FdlNewConstructs : Prop :=
  ∀ s : State, s.fault = none →
    (s.fdl ≠ none → raises .fdlNew .alreadyConstructed s) ∧
    (s.fdl = none → s.a.a0.toNat = 0 ∨ Config.capMax < s.a.a0.toNat → raises .fdlNew .badCapacity s) ∧
    (s.fdl = none → 1 ≤ s.a.a0.toNat → s.a.a0.toNat ≤ Config.capMax →
      ∃ f : FDLState, exec .fdlNew s = .next { s with fdl := some f } ∧ f.N = s.a.a0.toNat ∧ f.index = 0 ∧
        ∀ j, j < f.N → bufRead f.N f.buf j = some 0)

/-- R91: FDL.TICK answers the word at the cursor, stores the operand there, advances the cursor mod N, and changes
nothing else; on an unconstructed unit it faults. -/
def Obligations.FdlTickReadsThenWrites : Prop :=
  ∀ s : State, s.fault = none →
    (s.fdl = none → raises .fdlTick .notConstructed s) ∧
    ∀ f : FDLState, s.fdl = some f → f.Inv →
      ∃ b : Memory,
        exec .fdlTick s = .next { s with fdl := some { f with buf := b, index := (f.index + 1) % f.N },
                                         r0 := f.buf.get f.index } ∧
        b.get f.index = s.a.a0 ∧ ∀ j, j ≠ f.index → b.get j = f.buf.get j

/-- R92: FDL.READ answers the word at the cursor and changes nothing but R0; on an unconstructed unit it faults. -/
def Obligations.FdlReadPeeks : Prop :=
  ∀ s : State, s.fault = none →
    (s.fdl = none → raises .fdlRead .notConstructed s) ∧
    ∀ f : FDLState, s.fdl = some f → f.index < f.N → exec .fdlRead s = .next { s with r0 := f.buf.get f.index }

/-- R92's corner case, which the spec marks as its own inference from R91: the word FDL.READ returns is the word the next FDL.TICK returns, whatever the tick's sample. -/
def Obligations.FdlReadLooksForward : Prop :=
  ∀ (s t : State) (x : Word), s.fault = none → s.fdl ≠ none → exec .fdlRead s = .next t →
    ∃ u, exec .fdlTick { t with a := { t.a with a0 := x } } = .next u ∧ u.r0 = t.r0

/-- R93, whose state between ticks the spec marks as its own inference from R90 and R91: the delay law of the fixed delay
line after a successful FDL.NEW, whatever other commands come between the ticks: results, cursor and slots. -/
def Obligations.FdlDelayLaw : Prop :=
  ∀ (s₀ s : State) (cs : List (Instr × OperandRegs)), s₀.Inv → s₀.fault = none → s₀.fdl = none →
    exec .fdlNew s₀ = .next s → s.fault = none →
      ∃ (h : List Ran) (t : State) (f : FDLState),
        history cs s = some (h, t) ∧ t.fdl = some f ∧ f.N = s₀.a.a0.toNat ∧
        (∀ k r, (ticksOf .fdlTick h)[k]? = some r → r.post.r0 = before (samples (ticksOf .fdlTick h)) k f.N) ∧
        f.index = (ticksOf .fdlTick h).length % f.N ∧
        ∀ j, j < f.N → f.buf.get j = slotAfter (samples (ticksOf .fdlTick h)) f.N j

/-! ### The variable delay line -/

/-- R100: VDL.NEW with a legal capacity and offset builds N words of zero, widx 0 and ridx (N - offset) mod N; otherwise
it faults, the capacity checked first. -/
def Obligations.VdlNewConstructs : Prop :=
  ∀ s : State, s.fault = none →
    (s.vdl ≠ none → raises .vdlNew .alreadyConstructed s) ∧
    (s.vdl = none → s.a.a0.toNat = 0 ∨ Config.capMax < s.a.a0.toNat → raises .vdlNew .badCapacity s) ∧
    (s.vdl = none → 1 ≤ s.a.a0.toNat → s.a.a0.toNat ≤ Config.capMax → s.a.a0.toNat ≤ s.a.a1.toNat →
      raises .vdlNew .badOffset s) ∧
    (s.vdl = none → 1 ≤ s.a.a0.toNat → s.a.a0.toNat ≤ Config.capMax → s.a.a1.toNat < s.a.a0.toNat →
      ∃ v : VDLState, exec .vdlNew s = .next { s with vdl := some v } ∧ v.N = s.a.a0.toNat ∧ v.widx = 0 ∧
        v.offset = s.a.a1.toNat ∧ v.ridx = (v.N - v.offset) % v.N ∧ ∀ j, j < v.N → bufRead v.N v.buf j = some 0)

/-- R101: VDL.TICK writes, computes the read index from the present offset, reads (seeing the write), and advances; on an
unconstructed unit it faults. -/
def Obligations.VdlTickWritesThenReads : Prop :=
  ∀ s : State, s.fault = none →
    (s.vdl = none → raises .vdlTick .notConstructed s) ∧
    ∀ v : VDLState, s.vdl = some v → v.Inv →
      ∃ b : Memory,
        exec .vdlTick s = .next { s with vdl := some { v with buf := b, ridx := (v.widx + v.N - v.offset) % v.N,
                                                              widx := (v.widx + 1) % v.N },
                                         r0 := b.get ((v.widx + v.N - v.offset) % v.N) } ∧
        b.get v.widx = s.a.a0 ∧ ∀ j, j ≠ v.widx → b.get j = v.buf.get j

/-- R102: VDL.READ answers the word at the last computed read index and changes nothing but R0; on an unconstructed unit
it faults. -/
def Obligations.VdlReadPeeks : Prop :=
  ∀ s : State, s.fault = none →
    (s.vdl = none → raises .vdlRead .notConstructed s) ∧
    ∀ v : VDLState, s.vdl = some v → v.ridx < v.N → exec .vdlRead s = .next { s with r0 := v.buf.get v.ridx }

/-- R24, which the spec marks as its own inference from R100, R101 and R103: between commands the read index of a variable delay line is the one its last tick computed: one behind the
write index that tick advanced, by the offset of that tick; no command but a tick moves either. -/
def Obligations.ReadIndexBetweenCommands : Prop :=
  ∀ (i : Instr) (s t : State) (v v' : VDLState), s.vdl = some v → v.Inv → exec i s = .next t → t.vdl = some v' →
    (i = .vdlTick ∧ t.fault = none → v'.ridx = (v'.widx + v.N - 1 - v.offset) % v.N) ∧
    (i ≠ .vdlTick → v'.ridx = v.ridx ∧ v'.widx = v.widx)

/-- R102's corner case, which the spec marks as its own inference from R101: VDL.READ returns the word the last VDL.TICK returned, also after a VDL.SETOFF issued since. -/
def Obligations.VdlReadLooksBack : Prop :=
  ∀ (s t u : State) (w : Word), s.fault = none → s.vdl ≠ none → exec .vdlTick s = .next t →
    exec .vdlSetoff { t with a := { t.a with a0 := w } } = .next u → u.fault = none →
      (∃ r, exec .vdlRead t = .next r ∧ r.r0 = t.r0) ∧ ∃ r, exec .vdlRead u = .next r ∧ r.r0 = t.r0

/-- R103: VDL.SETOFF below the capacity changes the offset and nothing else; otherwise it faults. -/
def Obligations.VdlSetoffRetunes : Prop :=
  ∀ s : State, s.fault = none →
    (s.vdl = none → raises .vdlSetoff .notConstructed s) ∧
    ∀ v : VDLState, s.vdl = some v →
      (v.N ≤ s.a.a0.toNat → raises .vdlSetoff .badOffset s) ∧
      (s.a.a0.toNat < v.N → exec .vdlSetoff s = .next { s with vdl := some { v with offset := s.a.a0.toNat } })

/-- R104, which the spec marks as its own inference from R100, R101 and R103: the delay law of the variable delay line after a successful VDL.NEW, each tick delayed by the offset in force when
it runs, whatever other commands come between the ticks: the results, the write index and the slots. -/
def Obligations.VdlDelayLaw : Prop :=
  ∀ (s₀ s : State) (cs : List (Instr × OperandRegs)), s₀.Inv → s₀.fault = none → s₀.vdl = none →
    exec .vdlNew s₀ = .next s → s.fault = none →
      ∃ (h : List Ran) (t : State) (v : VDLState),
        history cs s = some (h, t) ∧ t.vdl = some v ∧ v.N = s₀.a.a0.toNat ∧
        (∀ k r, (ticksOf .vdlTick h)[k]? = some r →
          ∃ u, r.pre.vdl = some u ∧ r.post.r0 = before (samples (ticksOf .vdlTick h)) k u.offset) ∧
        v.widx = (ticksOf .vdlTick h).length % v.N ∧
        ∀ j, j < v.N → v.buf.get j = slotAfter (samples (ticksOf .vdlTick h)) v.N j

/-! ### The feedback echo -/

/-- R115: ECHO.NEWF with legal operands builds a fixed delay line of zeros and stores the coefficients as given; otherwise
it faults, by capacity, then feedback, then mix. -/
def Obligations.EchoNewfConstructs : Prop :=
  ∀ s : State, s.fault = none →
    (s.echo ≠ none → raises .echoNewf .alreadyConstructed s) ∧
    (s.echo = none → s.a.a0.toNat = 0 ∨ Config.capMax < s.a.a0.toNat → raises .echoNewf .badCapacity s) ∧
    (s.echo = none → 1 ≤ s.a.a0.toNat → s.a.a0.toNat ≤ Config.capMax → inUnit s.a.a1 = false →
      raises .echoNewf .badFeedback s) ∧
    (s.echo = none → 1 ≤ s.a.a0.toNat → s.a.a0.toNat ≤ Config.capMax → inUnit s.a.a1 = true →
      mixOK s.a.a2 s.a.a3 = false → raises .echoNewf .badMix s) ∧
    (s.echo = none → 1 ≤ s.a.a0.toNat → s.a.a0.toNat ≤ Config.capMax → inUnit s.a.a1 = true →
      mixOK s.a.a2 s.a.a3 = true →
        ∃ f : FDLState,
          exec .echoNewf s = .next { s with echo := some { delay := .fixedLine f, feedback := s.a.a1, dry := s.a.a2,
                                                           wet := s.a.a3 } } ∧
          f.N = s.a.a0.toNat ∧ f.index = 0 ∧ ∀ j, j < f.N → bufRead f.N f.buf j = some 0)

/-- R116: ECHO.NEWV with legal operands builds a variable delay line of zeros with offset N - 1 and ridx 1 mod N and stores
the coefficients as given; otherwise it faults as ECHO.NEWF does. -/
def Obligations.EchoNewvConstructs : Prop :=
  ∀ s : State, s.fault = none →
    (s.echo ≠ none → raises .echoNewv .alreadyConstructed s) ∧
    (s.echo = none → s.a.a0.toNat = 0 ∨ Config.capMax < s.a.a0.toNat → raises .echoNewv .badCapacity s) ∧
    (s.echo = none → 1 ≤ s.a.a0.toNat → s.a.a0.toNat ≤ Config.capMax → inUnit s.a.a1 = false →
      raises .echoNewv .badFeedback s) ∧
    (s.echo = none → 1 ≤ s.a.a0.toNat → s.a.a0.toNat ≤ Config.capMax → inUnit s.a.a1 = true →
      mixOK s.a.a2 s.a.a3 = false → raises .echoNewv .badMix s) ∧
    (s.echo = none → 1 ≤ s.a.a0.toNat → s.a.a0.toNat ≤ Config.capMax → inUnit s.a.a1 = true →
      mixOK s.a.a2 s.a.a3 = true →
        ∃ v : VDLState,
          exec .echoNewv s = .next { s with echo := some { delay := .variableLine v, feedback := s.a.a1, dry := s.a.a2,
                                                           wet := s.a.a3 } } ∧
          v.N = s.a.a0.toNat ∧ v.widx = 0 ∧ v.offset = v.N - 1 ∧ v.ridx = 1 % v.N ∧
          ∀ j, j < v.N → bufRead v.N v.buf j = some 0)

/-- R117, R121: ECHO.TICK on a fixed backing peeks and returns the word at the cursor and stores `fed` there; on a variable
one it peeks at the old ridx, stores `fed` at widx and returns the slot at the new ridx; then it mixes. On an unconstructed
unit it faults. -/
def Obligations.EchoTickFeedsBackAndMixes : Prop :=
  ∀ s : State, s.fault = none →
    (s.echo = none → raises .echoTick .notConstructed s) ∧
    (∀ (e : EchoState) (f : FDLState), s.echo = some e → e.delay = .fixedLine f → f.Inv →
      ∃ (nan : Nat → Word) (d : Nat) (b : Memory), (∀ k, isQuietNaN (nan k) = true) ∧
        exec .echoTick s = .next { s with
          echo := some { e with delay := .fixedLine { f with buf := b, index := (f.index + 1) % f.N } },
          r0 := fadd (nan 4) (fmul (nan 2) e.dry s.a.a0) (fmul (nan 3) e.wet (f.buf.get f.index)),
          draws := d } ∧
        b.get f.index = fadd (nan 1) s.a.a0 (fmul (nan 0) e.feedback (f.buf.get f.index)) ∧
        ∀ j, j ≠ f.index → b.get j = f.buf.get j) ∧
    ∀ (e : EchoState) (v : VDLState), s.echo = some e → e.delay = .variableLine v → v.Inv →
      ∃ (nan : Nat → Word) (d : Nat) (b : Memory) (ri : Nat), (∀ k, isQuietNaN (nan k) = true) ∧
        ri = (v.widx + v.N - v.offset) % v.N ∧
        exec .echoTick s = .next { s with
          echo := some { e with delay := .variableLine { v with buf := b, ridx := ri, widx := (v.widx + 1) % v.N } },
          r0 := fadd (nan 4) (fmul (nan 2) e.dry s.a.a0) (fmul (nan 3) e.wet (b.get ri)),
          draws := d } ∧
        b.get v.widx = fadd (nan 1) s.a.a0 (fmul (nan 0) e.feedback (v.buf.get v.ridx)) ∧
        ∀ j, j ≠ v.widx → b.get j = v.buf.get j

/-- R118: ECHO.SETDLY below the capacity of a variable backing changes the offset and nothing else; otherwise it faults, the
backing checked before the length. -/
def Obligations.EchoSetdlyRetunes : Prop :=
  ∀ s : State, s.fault = none →
    (s.echo = none → raises .echoSetdly .notConstructed s) ∧
    (∀ e f, s.echo = some e → e.delay = .fixedLine f → raises .echoSetdly .delayNotResizable s) ∧
    (∀ e v, s.echo = some e → e.delay = .variableLine v → v.N ≤ s.a.a0.toNat → raises .echoSetdly .badOffset s) ∧
    ∀ e v, s.echo = some e → e.delay = .variableLine v → s.a.a0.toNat < v.N →
      exec .echoSetdly s =
        .next { s with echo := some { e with delay := .variableLine { v with offset := s.a.a0.toNat } } }

/-- R119, R120: the coefficient setters with legal operands change those coefficients and nothing else; otherwise they
fault. -/
def Obligations.EchoCoefficientSetters : Prop :=
  ∀ s : State, s.fault = none →
    (s.echo = none → raises .echoSetfb .notConstructed s ∧ raises .echoSetmix .notConstructed s) ∧
    ∀ e : EchoState, s.echo = some e →
      (inUnit s.a.a0 = false → raises .echoSetfb .badFeedback s) ∧
      (inUnit s.a.a0 = true → exec .echoSetfb s = .next { s with echo := some { e with feedback := s.a.a0 } }) ∧
      (mixOK s.a.a0 s.a.a1 = false → raises .echoSetmix .badMix s) ∧
      (mixOK s.a.a0 s.a.a1 = true →
        exec .echoSetmix s = .next { s with echo := some { e with dry := s.a.a0, wet := s.a.a1 } })

/-- R122, which the spec marks as its own inference from R115, R117, R121 and R93: the recurrence of a fixed-backed echo after a successful ECHO.NEWF, with the coefficients in force at each tick,
whatever other commands come between the ticks. -/
def Obligations.EchoFixedRecurrence : Prop :=
  ∀ (s₀ s : State) (cs : List (Instr × OperandRegs)), s₀.Inv → s₀.fault = none → s₀.echo = none →
    exec .echoNewf s₀ = .next s → s.fault = none →
      ∃ (h : List Ran) (t : State) (fed : List Word) (nan : Nat → Nat → Word),
        history cs s = some (h, t) ∧ fed.length = (ticksOf .echoTick h).length ∧ (∀ k j, isQuietNaN (nan k j) = true) ∧
        ∀ k r, (ticksOf .echoTick h)[k]? = some r →
          ∃ e, r.pre.echo = some e ∧
            fed.getD k 0 = fadd (nan k 1) r.pre.a.a0 (fmul (nan k 0) e.feedback (before fed k s₀.a.a0.toNat)) ∧
            r.post.r0 = fadd (nan k 4) (fmul (nan k 2) e.dry r.pre.a.a0)
              (fmul (nan k 3) e.wet (before fed k s₀.a.a0.toNat))

/-- R123, which the spec marks as its own inference from R116, R117, R121, R102 and R104: the recurrence of a variable-backed echo after a successful ECHO.NEWV, with the coefficients and the offset in
force at each tick, whatever other commands come between the ticks: what is fed back is the delayed sample of the tick
before. -/
def Obligations.EchoVariableRecurrence : Prop :=
  ∀ (s₀ s : State) (cs : List (Instr × OperandRegs)), s₀.Inv → s₀.fault = none → s₀.echo = none →
    exec .echoNewv s₀ = .next s → s.fault = none →
      ∃ (h : List Ran) (t : State) (fed delayed : List Word) (nan : Nat → Nat → Word),
        history cs s = some (h, t) ∧ fed.length = (ticksOf .echoTick h).length ∧
        delayed.length = (ticksOf .echoTick h).length ∧ (∀ k j, isQuietNaN (nan k j) = true) ∧
        ∀ k r, (ticksOf .echoTick h)[k]? = some r →
          ∃ e v, r.pre.echo = some e ∧ e.delay = .variableLine v ∧
            fed.getD k 0 = fadd (nan k 1) r.pre.a.a0 (fmul (nan k 0) e.feedback (before delayed k 1)) ∧
            delayed.getD k 0 = before fed k v.offset ∧
            r.post.r0 = fadd (nan k 4) (fmul (nan k 2) e.dry r.pre.a.a0) (fmul (nan k 3) e.wet (delayed.getD k 0))

/-- R124: with feedback 0, dry 1 and wet 0 (a zero of either sign), a finite input over finite buffer words comes back as the same number (the same
word, but for the sign of a zero), and the buffer stays finite. -/
def Obligations.EchoIdentitySetting : Prop :=
  ∀ (s : State) (e : EchoState), s.fault = none → s.echo = some e → e.Inv → fMag e.feedback = 0 → e.dry = ONE → fMag e.wet = 0 →
    isFinite s.a.a0 = true → (∀ j, isFinite (e.delay.buf.get j) = true) →
      ∃ (t : State) (e' : EchoState), exec .echoTick s = .next t ∧ t.echo = some e' ∧ isFinite t.r0 = true ∧
        scaled t.r0 = scaled s.a.a0 ∧ (fMag s.a.a0 ≠ 0 → t.r0 = s.a.a0) ∧
        ∀ j, isFinite (e'.delay.buf.get j) = true

/-! ### The modulated delay effect -/

/-- R135: MDE.NEW with legal operands builds the variable-backed echo of capacity base + 1; lfo_index and depth are any
words. Otherwise it faults: capacity (base + 1 without wrap-around), then feedback, then mix. -/
def Obligations.MdeNewConstructs : Prop :=
  ∀ s : State, s.fault = none →
    (s.mde ≠ none → raises .mdeNew .alreadyConstructed s) ∧
    (s.mde = none → Config.capMax < s.a.a0.toNat + 1 → raises .mdeNew .badCapacity s) ∧
    (s.mde = none → s.a.a0.toNat + 1 ≤ Config.capMax → inUnit s.a.a3 = false → raises .mdeNew .badFeedback s) ∧
    (s.mde = none → s.a.a0.toNat + 1 ≤ Config.capMax → inUnit s.a.a3 = true → mixOK s.a.a4 s.a.a5 = false →
      raises .mdeNew .badMix s) ∧
    (s.mde = none → s.a.a0.toNat + 1 ≤ Config.capMax → inUnit s.a.a3 = true → mixOK s.a.a4 s.a.a5 = true →
      ∃ v : VDLState,
        exec .mdeNew s = .next { s with mde := some { base := s.a.a0.toNat, lfoIndex := s.a.a1, depth := s.a.a2, echo := { delay := .variableLine v, feedback := s.a.a3, dry := s.a.a4, wet := s.a.a5 } } } ∧
        v.N = s.a.a0.toNat + 1 ∧ v.widx = 0 ∧ v.offset = s.a.a0.toNat ∧ v.ridx = 1 % v.N ∧
        ∀ j, j < v.N → bufRead v.N v.buf j = some 0)

/-- R136, R137: MDE.TICK exchanges once with the oscillator, computes the length from the answer, sets it, ticks the inner
echo and scales the result by depth; on an unconstructed unit it faults and the oscillator is not exchanged with. -/
def Obligations.MdeTickModulates : Prop :=
  ∀ s : State, s.fault = none →
    (s.mde = none → raises .mdeTick .notConstructed s) ∧
    ∀ (m : MDEState) (v : VDLState), s.mde = some m → m.Inv → m.echo.delay = .variableLine v →
      ∃ (osc : Word) (nan : Nat → Word) (d : Nat) (b : Memory) (L ri : Nat),
        (∀ k, isQuietNaN (nan k) = true) ∧ (∀ o rest, s.oscIn = o :: rest → osc = o) ∧
        L = clampLen (fmul (nan 4) (u2f m.base) (fsub (nan 3) ONE
              (fmul (nan 2) (fadd (nan 1) (fmul (nan 0) osc HALF) HALF) m.lfoIndex))) (m.base + 1) ∧
        ri = (v.widx + v.N - L) % v.N ∧
        exec .mdeTick s = .next { s with
          mde := some { m with echo := { m.echo with delay := .variableLine { v with buf := b, offset := L, ridx := ri, widx := (v.widx + 1) % v.N } } },
          oscIn := s.oscIn.tail, oscOut := s.a.a0 :: s.oscOut,
          r0 := fmul (nan 10) (fadd (nan 9) (fmul (nan 7) m.echo.dry s.a.a0) (fmul (nan 8) m.echo.wet (b.get ri))) m.depth,
          draws := d } ∧
        b.get v.widx = fadd (nan 6) s.a.a0 (fmul (nan 5) m.echo.feedback (v.buf.get v.ridx)) ∧
        ∀ j, j ≠ v.widx → b.get j = v.buf.get j

/-- R137: the oscillator is exchanged with once, and given the input sample, by an MDE.TICK that raises no fault and is not
ignored, and by nothing else. -/
def Obligations.OneOscillatorExchangePerTick : Prop :=
  ∀ (i : Instr) (s t : State), exec i s = .next t →
    (i = .mdeTick ∧ t.fault = none → t.oscOut = s.a.a0 :: s.oscOut ∧ t.oscIn = s.oscIn.tail) ∧
    (i ≠ .mdeTick ∨ t.fault ≠ none → t.oscOut = s.oscOut ∧ t.oscIn = s.oscIn)

/-- R138: with lfo_index a zero, every finite oscillator answer gives the length base, and an infinite or NaN one gives 0. -/
def Obligations.MdeDegenerateModulation : Prop :=
  ∀ (s t : State) (m m' : MDEState) (v : VDLState) (osc : Word) (rest : List Word), s.fault = none → s.mde = some m →
    m.Inv → fMag m.lfoIndex = 0 → s.oscIn = osc :: rest → exec .mdeTick s = .next t → t.mde = some m' →
    m'.echo.delay = .variableLine v →
      (isFinite osc = true → v.offset = m.base) ∧ (isFinite osc = false → v.offset = 0)

/-- R140, which the spec marks as its own inference from R136 and R123: the recurrence of the modulated effect after a successful MDE.NEW, for every oscillator, whatever other commands
come between the ticks. -/
def Obligations.MdeRecurrence : Prop :=
  ∀ (s₀ s : State) (cs : List (Instr × OperandRegs)), s₀.Inv → s₀.fault = none → s₀.mde = none →
    exec .mdeNew s₀ = .next s → s.fault = none →
      ∃ (h : List Ran) (t : State) (fed delayed : List Word) (L : List Nat) (nan : Nat → Nat → Word),
        history cs s = some (h, t) ∧ fed.length = (ticksOf .mdeTick h).length ∧
        delayed.length = (ticksOf .mdeTick h).length ∧ L.length = (ticksOf .mdeTick h).length ∧
        (∀ k j, isQuietNaN (nan k j) = true) ∧
        ∀ k r, (ticksOf .mdeTick h)[k]? = some r →
          L.getD k 0 = clampLen (fmul (nan k 4) (u2f s₀.a.a0.toNat) (fsub (nan k 3) ONE (fmul (nan k 2)
            (fadd (nan k 1) (fmul (nan k 0) (oscExchange r.pre.a.a0 r.pre).1 HALF) HALF) s₀.a.a1)))
              (s₀.a.a0.toNat + 1) ∧
          L.getD k 0 ≤ s₀.a.a0.toNat ∧
          fed.getD k 0 = fadd (nan k 6) r.pre.a.a0 (fmul (nan k 5) s₀.a.a3 (before delayed k 1)) ∧
          delayed.getD k 0 = before fed k (L.getD k 0) ∧
          r.post.r0 = fmul (nan k 10) (fadd (nan k 9) (fmul (nan k 7) s₀.a.a4 r.pre.a.a0)
            (fmul (nan k 8) s₀.a.a5 (delayed.getD k 0))) s₀.a.a2

/-! ### Arithmetic -/

/-- R12: a finite sum is the binary32 number nearest to the exact sum, the even one of two that are equally near. -/
def Obligations.SumCorrectlyRounded : Prop :=
  ∀ nan a b v : Word, isFinite a = true → isFinite b = true → isFinite (fadd nan a b) = true → isFinite v = true →
    (scaled (fadd nan a b) - (scaled a + scaled b)).natAbs ≤ (scaled v - (scaled a + scaled b)).natAbs ∧
    ((scaled (fadd nan a b) - (scaled a + scaled b)).natAbs = (scaled v - (scaled a + scaled b)).natAbs →
      scaled v ≠ scaled (fadd nan a b) → fMag (fadd nan a b) % 2 = 0)

/-- R12: a finite product is the binary32 number nearest to the exact product, the even one of two equally near. -/
def Obligations.ProductCorrectlyRounded : Prop :=
  ∀ nan a b v : Word, isFinite a = true → isFinite b = true → isFinite (fmul nan a b) = true → isFinite v = true →
    (scaled (fmul nan a b) * 2 ^ 149 - scaled a * scaled b).natAbs ≤ (scaled v * 2 ^ 149 - scaled a * scaled b).natAbs ∧
    ((scaled (fmul nan a b) * 2 ^ 149 - scaled a * scaled b).natAbs = (scaled v * 2 ^ 149 - scaled a * scaled b).natAbs →
      scaled v ≠ scaled (fmul nan a b) → fMag (fmul nan a b) % 2 = 0)

/-- R12, IEEE 754's default results: sums and products of finite words are never NaN, and are infinite exactly when the
exact value is half a unit in the last place beyond the largest finite number or more. -/
def Obligations.OverflowThreshold : Prop :=
  ∀ nan a b : Word, isFinite a = true → isFinite b = true →
    isNaN (fadd nan a b) = false ∧ isNaN (fmul nan a b) = false ∧
    (isInf (fadd nan a b) = true ↔ (2 ^ 25 - 1) * 2 ^ 252 ≤ (scaled a + scaled b).natAbs) ∧
    (isInf (fmul nan a b) = true ↔ (2 ^ 25 - 1) * 2 ^ 401 ≤ (scaled a * scaled b).natAbs)

/-- R14: the two validation predicates, on the exact real numbers the words denote. -/
def Obligations.ValidationPredicatesAreReal : Prop :=
  (∀ v : Word, inUnit v = true ↔ isFinite v = true ∧ 0 ≤ scaled v ∧ scaled v ≤ 2 ^ 149) ∧
  ∀ d w : Word, mixOK d w = true ↔
    isFinite d = true ∧ isFinite w = true ∧ 0 ≤ scaled d ∧ 0 ≤ scaled w ∧
      (scaled d + scaled w - 2 ^ 149).natAbs ≤ 2 ^ 129

/-- R13: truncate toward zero, then clamp to [0, N-1]; a NaN gives 0 (the spec's own choice D4). -/
def Obligations.ClampTruncatesThenClamps : Prop :=
  ∀ (m : Word) (N : Nat), 1 ≤ N → N ≤ Config.capMax →
    clampLen m N < N ∧
    (isFinite m = true → clampLen m N = min (N - 1) (scaled m / 2 ^ 149).toNat) ∧
    (isNaN m = true → clampLen m N = 0) ∧
    (isInf m = true → clampLen m N = if fSign m then 0 else N - 1)

/-! ### The whole machine -/

/-- R22, R23, R25, R26 hold at reset. -/
def Obligations.ResetMeetsInvariant : Prop := State.reset.Inv

/-- R22, R23, R25, R26: every step keeps the invariants of the four units: capacities in range, cursors and offsets below
the capacity, buffers in canonical form with no word outside [0, N), coefficients valid, the effect's echo variable-backed
with capacity base + 1. -/
def Obligations.StepKeepsInvariant : Prop := ∀ s t : State, s.Inv → step s = .next t → t.Inv

/-- R51, R156: from a state that meets the invariants no step stops with a fault, and one is refused only for a bus access
that names no register. -/
def Obligations.StepNeverStops : Prop :=
  ∀ s : State, s.Inv → (∃ t, step s = .next t) ∨
    ∃ r addr size, busReg addr size = .error r ∧ step s = .refused r ∧
      (s.host.head? = some (.busRead addr size) ∨
        ∃ bytes : List Byte, bytes.length = size ∧ s.host.head? = some (.busWrite addr bytes))

/-- R156: a TICK or READ on a constructed unit with no fault recorded completes with no fault, for every operand word and
every oscillator answer. -/
def Obligations.TicksAndReadsNeverFault : Prop :=
  ∀ (i : Instr) (s : State), i.writesR0 = true → s.fault = none → s.constructed i.unit = true → s.Inv →
    ∃ t, exec i s = .next t ∧ t.fault = none

/-- R29, R55: a command changes no operand register, no host action and no delivered reply, and it writes R0 only when it is
a TICK or READ that raises no fault. -/
def Obligations.CommandFrame : Prop :=
  ∀ (i : Instr) (s t : State), exec i s = .next t →
    t.a = s.a ∧ t.host = s.host ∧ t.reads = s.reads ∧
    (i.writesR0 = false ∨ t.fault ≠ none → t.r0 = s.r0) ∧
    (i.unit ≠ .fdl → t.fdl = s.fdl) ∧ (i.unit ≠ .vdl → t.vdl = s.vdl) ∧ (i.unit ≠ .echo → t.echo = s.echo) ∧
    (i.unit ≠ .mde → t.mde = s.mde)

/-- R20: a unit comes to be constructed only by its own NEW command, and only when that raises no fault. -/
def Obligations.OnlyNewConstructs : Prop :=
  ∀ (i : Instr) (s t : State) (u : UnitKind), exec i s = .next t → s.constructed u = false → t.constructed u = true →
    i.constructs = true ∧ i.unit = u ∧ t.fault = none

/-- R27, R54: no command changes a word of an existing buffer but a TICK, and that only the one slot at the unit's own
write cursor. -/
def Obligations.BufferFrame : Prop :=
  ∀ (i : Instr) (s t : State) (u : UnitKind) (m : Memory), exec i s = .next t → s.buffer u = some m →
    ∃ m', t.buffer u = some m' ∧
      ∀ j, ¬(i.ticks = true ∧ u = i.unit ∧ s.writeCursor u = some j) → m'.get j = m.get j

/-- R20, R27: a command neither reads nor writes a unit it does not address: with the other units replaced by any others it
does the same. -/
def Obligations.UnitsAreIndependent : Prop :=
  ∀ (i : Instr) (s o : State),
    exec i (State.othersFrom i.unit o s) = mapNext (State.othersFrom i.unit o) (exec i s)

/-- R72: a command reads only the operand registers its row names: with the others replaced by any words it does the
same. -/
def Obligations.OnlyNamedOperandsAreRead : Prop :=
  ∀ (i : Instr) (s : State) (a : OperandRegs),
    (∀ k : Fin 6, k.val < i.operands.length → a.get k = s.a.get k) →
      exec i { s with a := a } = mapNext (fun t => { t with a := a }) (exec i s)

/-- R20, R28, R62, R139: until reset a constructed unit stays constructed with the same capacity, an echo keeps its backing,
and base, lfo_index and depth keep their values. -/
def Obligations.LifetimeUntilReset : Prop :=
  ∀ (s t : State), s.host.head? ≠ some .reset → step s = .next t →
    (∀ u N, s.capacity u = some N → t.capacity u = some N) ∧
    (∀ e, s.echo = some e → ∃ e', t.echo = some e' ∧ e'.delay.isVariable = e.delay.isVariable) ∧
    ∀ m, s.mde = some m → ∃ m', t.mde = some m' ∧ m'.base = m.base ∧ m'.lfoIndex = m.lfoIndex ∧ m'.depth = m.depth

/-- R16, R70: a transaction over the registers (the six operand words, the command word, then reads of STATUS and R0) runs
the command once, on those operands, and delivers its status and result. -/
def Obligations.TransactionAnswers : Prop :=
  ∀ (i : Instr) (a : OperandRegs) (s t : State), s.host = [] → exec i { s with a := a } = .next t →
    Host.Core.run core 9 { s with host := [.write 8 a.a0, .write 9 a.a1, .write 10 a.a2, .write 11 a.a3, .write 12 a.a4, .write 13 a.a5, .write 0 (encode i), .read 1, .read 3] } =
      .next { t with reads := .word t.r0 :: .word t.status :: s.reads }

/-- R77: a well-formed line runs as its command with its operand words in A0, A1, … and the other operand registers left as
they were. The model's choice (log entries 3 and 16): its oscillator answer waits at the end of the oscillator's list, behind
any answer there already. -/
def Obligations.LineRunsItsCommand : Prop :=
  ∀ (l : Line) (s : State), l.wf = true → s.host = [] →
    ∃ a : OperandRegs,
      (∀ k : Fin 6, a.get k = (l.args[k.val]?.map literalWord).getD (s.a.get k)) ∧
      Host.Core.run core (l.args.length + 1) (State.load [l] s) =
        exec l.instr { s with a := a, oscIn := s.oscIn ++ (l.osc.map literalWord).toList }
end

