-- ==== Sys2Proof/Laws/State.lean ====
section
/-! SUPPORT. What each update of the state does to each field, true by definition. -/

namespace Sys2Proof.Machine

/-! `R0 written` -/

@[simp] theorem State.setR0_fdl (s : State) (v : Word) : (s.setR0 v).fdl = s.fdl := rfl
@[simp] theorem State.setR0_vdl (s : State) (v : Word) : (s.setR0 v).vdl = s.vdl := rfl
@[simp] theorem State.setR0_echo (s : State) (v : Word) : (s.setR0 v).echo = s.echo := rfl
@[simp] theorem State.setR0_mde (s : State) (v : Word) : (s.setR0 v).mde = s.mde := rfl
@[simp] theorem State.setR0_fault (s : State) (v : Word) : (s.setR0 v).fault = s.fault := rfl
@[simp] theorem State.setR0_r0 (s : State) (v : Word) : (s.setR0 v).r0 = v := rfl
@[simp] theorem State.setR0_a (s : State) (v : Word) : (s.setR0 v).a = s.a := rfl
@[simp] theorem State.setR0_host (s : State) (v : Word) : (s.setR0 v).host = s.host := rfl
@[simp] theorem State.setR0_reads (s : State) (v : Word) : (s.setR0 v).reads = s.reads := rfl
@[simp] theorem State.setR0_oscIn (s : State) (v : Word) : (s.setR0 v).oscIn = s.oscIn := rfl
@[simp] theorem State.setR0_oscOut (s : State) (v : Word) : (s.setR0 v).oscOut = s.oscOut := rfl
@[simp] theorem State.setR0_draws (s : State) (v : Word) : (s.setR0 v).draws = s.draws := rfl

/-! `the draw counter advanced` -/

@[simp] theorem State.nextDraw_fdl (s : State) : (s.nextDraw).fdl = s.fdl := rfl
@[simp] theorem State.nextDraw_vdl (s : State) : (s.nextDraw).vdl = s.vdl := rfl
@[simp] theorem State.nextDraw_echo (s : State) : (s.nextDraw).echo = s.echo := rfl
@[simp] theorem State.nextDraw_mde (s : State) : (s.nextDraw).mde = s.mde := rfl
@[simp] theorem State.nextDraw_fault (s : State) : (s.nextDraw).fault = s.fault := rfl
@[simp] theorem State.nextDraw_r0 (s : State) : (s.nextDraw).r0 = s.r0 := rfl
@[simp] theorem State.nextDraw_a (s : State) : (s.nextDraw).a = s.a := rfl
@[simp] theorem State.nextDraw_host (s : State) : (s.nextDraw).host = s.host := rfl
@[simp] theorem State.nextDraw_reads (s : State) : (s.nextDraw).reads = s.reads := rfl
@[simp] theorem State.nextDraw_oscIn (s : State) : (s.nextDraw).oscIn = s.oscIn := rfl
@[simp] theorem State.nextDraw_oscOut (s : State) : (s.nextDraw).oscOut = s.oscOut := rfl
@[simp] theorem State.nextDraw_draws (s : State) : (s.nextDraw).draws = s.draws + 1 := rfl

/-! `fault entry` -/

@[simp] theorem enterFault_fdl (c : Cause) (w : Word) (s : State) : (enterFault c w s).fdl = s.fdl := rfl
@[simp] theorem enterFault_vdl (c : Cause) (w : Word) (s : State) : (enterFault c w s).vdl = s.vdl := rfl
@[simp] theorem enterFault_echo (c : Cause) (w : Word) (s : State) : (enterFault c w s).echo = s.echo := rfl
@[simp] theorem enterFault_mde (c : Cause) (w : Word) (s : State) : (enterFault c w s).mde = s.mde := rfl
@[simp] theorem enterFault_fault (c : Cause) (w : Word) (s : State) : (enterFault c w s).fault = some ⟨c, w⟩ := rfl
@[simp] theorem enterFault_r0 (c : Cause) (w : Word) (s : State) : (enterFault c w s).r0 = s.r0 := rfl
@[simp] theorem enterFault_a (c : Cause) (w : Word) (s : State) : (enterFault c w s).a = s.a := rfl
@[simp] theorem enterFault_host (c : Cause) (w : Word) (s : State) : (enterFault c w s).host = s.host := rfl
@[simp] theorem enterFault_reads (c : Cause) (w : Word) (s : State) : (enterFault c w s).reads = s.reads := rfl
@[simp] theorem enterFault_oscIn (c : Cause) (w : Word) (s : State) : (enterFault c w s).oscIn = s.oscIn := rfl
@[simp] theorem enterFault_oscOut (c : Cause) (w : Word) (s : State) : (enterFault c w s).oscOut = s.oscOut := rfl
@[simp] theorem enterFault_draws (c : Cause) (w : Word) (s : State) : (enterFault c w s).draws = s.draws := rfl

/-! `a reply delivered` -/

@[simp] theorem State.reply_fdl (s : State) (r : HostReply) : (s.reply r).fdl = s.fdl := rfl
@[simp] theorem State.reply_vdl (s : State) (r : HostReply) : (s.reply r).vdl = s.vdl := rfl
@[simp] theorem State.reply_echo (s : State) (r : HostReply) : (s.reply r).echo = s.echo := rfl
@[simp] theorem State.reply_mde (s : State) (r : HostReply) : (s.reply r).mde = s.mde := rfl
@[simp] theorem State.reply_fault (s : State) (r : HostReply) : (s.reply r).fault = s.fault := rfl
@[simp] theorem State.reply_r0 (s : State) (r : HostReply) : (s.reply r).r0 = s.r0 := rfl
@[simp] theorem State.reply_a (s : State) (r : HostReply) : (s.reply r).a = s.a := rfl
@[simp] theorem State.reply_host (s : State) (r : HostReply) : (s.reply r).host = s.host := rfl
@[simp] theorem State.reply_reads (s : State) (r : HostReply) : (s.reply r).reads = r :: s.reads := rfl
@[simp] theorem State.reply_oscIn (s : State) (r : HostReply) : (s.reply r).oscIn = s.oscIn := rfl
@[simp] theorem State.reply_oscOut (s : State) (r : HostReply) : (s.reply r).oscOut = s.oscOut := rfl
@[simp] theorem State.reply_draws (s : State) (r : HostReply) : (s.reply r).draws = s.draws := rfl

/-! `reset` -/

@[simp] theorem resetPin_fdl (s : State) : (resetPin s).fdl = none := rfl
@[simp] theorem resetPin_vdl (s : State) : (resetPin s).vdl = none := rfl
@[simp] theorem resetPin_echo (s : State) : (resetPin s).echo = none := rfl
@[simp] theorem resetPin_mde (s : State) : (resetPin s).mde = none := rfl
@[simp] theorem resetPin_fault (s : State) : (resetPin s).fault = none := rfl
@[simp] theorem resetPin_r0 (s : State) : (resetPin s).r0 = 0 := rfl
@[simp] theorem resetPin_a (s : State) : (resetPin s).a = ⟨0, 0, 0, 0, 0, 0⟩ := rfl
@[simp] theorem resetPin_host (s : State) : (resetPin s).host = s.host := rfl
@[simp] theorem resetPin_reads (s : State) : (resetPin s).reads = s.reads := rfl
@[simp] theorem resetPin_oscIn (s : State) : (resetPin s).oscIn = s.oscIn := rfl
@[simp] theorem resetPin_oscOut (s : State) : (resetPin s).oscOut = s.oscOut := rfl
@[simp] theorem resetPin_draws (s : State) : (resetPin s).draws = s.draws := rfl

/-! `the host's next command placed` -/

@[simp] theorem State.withFetchWord_fdl (s : State) (nbits w : Nat) : (s.withFetchWord nbits w).fdl = s.fdl := rfl
@[simp] theorem State.withFetchWord_vdl (s : State) (nbits w : Nat) : (s.withFetchWord nbits w).vdl = s.vdl := rfl
@[simp] theorem State.withFetchWord_echo (s : State) (nbits w : Nat) : (s.withFetchWord nbits w).echo = s.echo := rfl
@[simp] theorem State.withFetchWord_mde (s : State) (nbits w : Nat) : (s.withFetchWord nbits w).mde = s.mde := rfl
@[simp] theorem State.withFetchWord_fault (s : State) (nbits w : Nat) : (s.withFetchWord nbits w).fault = s.fault := rfl
@[simp] theorem State.withFetchWord_r0 (s : State) (nbits w : Nat) : (s.withFetchWord nbits w).r0 = s.r0 := rfl
@[simp] theorem State.withFetchWord_a (s : State) (nbits w : Nat) : (s.withFetchWord nbits w).a = s.a := rfl
@[simp] theorem State.withFetchWord_host (s : State) (nbits w : Nat) : (s.withFetchWord nbits w).host = .write 0 (BitVec.ofNat 32 w) :: s.host := rfl
@[simp] theorem State.withFetchWord_reads (s : State) (nbits w : Nat) : (s.withFetchWord nbits w).reads = s.reads := rfl
@[simp] theorem State.withFetchWord_oscIn (s : State) (nbits w : Nat) : (s.withFetchWord nbits w).oscIn = s.oscIn := rfl
@[simp] theorem State.withFetchWord_oscOut (s : State) (nbits w : Nat) : (s.withFetchWord nbits w).oscOut = s.oscOut := rfl
@[simp] theorem State.withFetchWord_draws (s : State) (nbits w : Nat) : (s.withFetchWord nbits w).draws = s.draws := rfl

/-! The oscillator exchange: only the port changes. -/

@[simp] theorem oscExchange_fdl (x : Word) (s : State) : (oscExchange x s).2.fdl = s.fdl := by
  unfold oscExchange; cases s.oscIn <;> rfl
@[simp] theorem oscExchange_vdl (x : Word) (s : State) : (oscExchange x s).2.vdl = s.vdl := by
  unfold oscExchange; cases s.oscIn <;> rfl
@[simp] theorem oscExchange_echo (x : Word) (s : State) : (oscExchange x s).2.echo = s.echo := by
  unfold oscExchange; cases s.oscIn <;> rfl
@[simp] theorem oscExchange_mde (x : Word) (s : State) : (oscExchange x s).2.mde = s.mde := by
  unfold oscExchange; cases s.oscIn <;> rfl
@[simp] theorem oscExchange_fault (x : Word) (s : State) : (oscExchange x s).2.fault = s.fault := by
  unfold oscExchange; cases s.oscIn <;> rfl
@[simp] theorem oscExchange_r0 (x : Word) (s : State) : (oscExchange x s).2.r0 = s.r0 := by
  unfold oscExchange; cases s.oscIn <;> rfl
@[simp] theorem oscExchange_a (x : Word) (s : State) : (oscExchange x s).2.a = s.a := by
  unfold oscExchange; cases s.oscIn <;> rfl
@[simp] theorem oscExchange_host (x : Word) (s : State) : (oscExchange x s).2.host = s.host := by
  unfold oscExchange; cases s.oscIn <;> rfl
@[simp] theorem oscExchange_reads (x : Word) (s : State) : (oscExchange x s).2.reads = s.reads := by
  unfold oscExchange; cases s.oscIn <;> rfl
@[simp] theorem oscExchange_oscIn (x : Word) (s : State) : (oscExchange x s).2.oscIn = s.oscIn.tail := by
  unfold oscExchange; cases s.oscIn <;> rfl
@[simp] theorem oscExchange_oscOut (x : Word) (s : State) : (oscExchange x s).2.oscOut = x :: s.oscOut := by
  unfold oscExchange; cases s.oscIn <;> rfl
@[simp] theorem oscExchange_draws (x : Word) (s : State) : (oscExchange x s).2.draws = s.draws := by
  unfold oscExchange; cases s.oscIn <;> rfl

/-- The answer of an exchange that the environment listed. -/
theorem oscExchange_listed (x v : Word) (rest : List Word) (s : State) (h : s.oscIn = v :: rest) :
    (oscExchange x s).1 = v := by
  unfold oscExchange; rw [h]

/-! Operand registers. -/

@[simp] theorem OperandRegs.get_set_same (r : OperandRegs) (k : Fin 6) (w : Word) : (r.set k w).get k = w := by
  fin_cases k <;> rfl

theorem OperandRegs.get_set_other (r : OperandRegs) (j k : Fin 6) (w : Word) (h : j ≠ k) :
    (r.set k w).get j = r.get j := by
  fin_cases k <;> fin_cases j <;> first | rfl | exact absurd rfl h

@[simp] theorem OperandRegs.set_set_same (r : OperandRegs) (k : Fin 6) (v w : Word) : (r.set k v).set k w = r.set k w := by
  fin_cases k <;> rfl

/-! The operands by register name. -/

@[simp] theorem State.opU_0 (s : State) : s.opU 0 = s.a.a0.toNat := rfl
@[simp] theorem State.opF_0 (s : State) : s.opF 0 = s.a.a0 := rfl
@[simp] theorem OperandRegs.get_0 (r : OperandRegs) : r.get 0 = r.a0 := rfl
@[simp] theorem State.opU_1 (s : State) : s.opU 1 = s.a.a1.toNat := rfl
@[simp] theorem State.opF_1 (s : State) : s.opF 1 = s.a.a1 := rfl
@[simp] theorem OperandRegs.get_1 (r : OperandRegs) : r.get 1 = r.a1 := rfl
@[simp] theorem State.opU_2 (s : State) : s.opU 2 = s.a.a2.toNat := rfl
@[simp] theorem State.opF_2 (s : State) : s.opF 2 = s.a.a2 := rfl
@[simp] theorem OperandRegs.get_2 (r : OperandRegs) : r.get 2 = r.a2 := rfl
@[simp] theorem State.opU_3 (s : State) : s.opU 3 = s.a.a3.toNat := rfl
@[simp] theorem State.opF_3 (s : State) : s.opF 3 = s.a.a3 := rfl
@[simp] theorem OperandRegs.get_3 (r : OperandRegs) : r.get 3 = r.a3 := rfl
@[simp] theorem State.opU_4 (s : State) : s.opU 4 = s.a.a4.toNat := rfl
@[simp] theorem State.opF_4 (s : State) : s.opF 4 = s.a.a4 := rfl
@[simp] theorem OperandRegs.get_4 (r : OperandRegs) : r.get 4 = r.a4 := rfl
@[simp] theorem State.opU_5 (s : State) : s.opU 5 = s.a.a5.toNat := rfl
@[simp] theorem State.opF_5 (s : State) : s.opF 5 = s.a.a5 := rfl
@[simp] theorem OperandRegs.get_5 (r : OperandRegs) : r.get 5 = r.a5 := rfl

/-- BAD_CAPACITY as a proposition (R151). -/
theorem badCapacity_eq_true {N : Nat} : badCapacity N = true ↔ N = 0 ∨ Config.capMax < N := by simp [badCapacity]

theorem badCapacity_eq_false {N : Nat} : badCapacity N = false ↔ 1 ≤ N ∧ N ≤ Config.capMax := by
  rw [← Bool.not_eq_true, badCapacity_eq_true]; omega

@[simp] theorem DelayLine.isVariable_fixed (f : FDLState) : (DelayLine.fixedLine f).isVariable = false := rfl
@[simp] theorem DelayLine.isVariable_variable (v : VDLState) : (DelayLine.variableLine v).isVariable = true := rfl
@[simp] theorem DelayLine.capacity_fixed (f : FDLState) : (DelayLine.fixedLine f).capacity = f.N := rfl
@[simp] theorem DelayLine.capacity_variable (v : VDLState) : (DelayLine.variableLine v).capacity = v.N := rfl
@[simp] theorem DelayLine.buf_fixed (f : FDLState) : (DelayLine.fixedLine f).buf = f.buf := rfl
@[simp] theorem DelayLine.buf_variable (v : VDLState) : (DelayLine.variableLine v).buf = v.buf := rfl

@[simp] theorem VDLState.setOffset_N (v : VDLState) (o : Nat) : (v.setOffset o).N = v.N := rfl
@[simp] theorem VDLState.setOffset_buf (v : VDLState) (o : Nat) : (v.setOffset o).buf = v.buf := rfl
@[simp] theorem VDLState.setOffset_widx (v : VDLState) (o : Nat) : (v.setOffset o).widx = v.widx := rfl
@[simp] theorem VDLState.setOffset_ridx (v : VDLState) (o : Nat) : (v.setOffset o).ridx = v.ridx := rfl
@[simp] theorem VDLState.setOffset_offset (v : VDLState) (o : Nat) : (v.setOffset o).offset = o := rfl

end Sys2Proof.Machine
end

