-- ==== Sys2Proof/Laws/Float.lean ====
section
/-! SUPPORT. The small lemmas of the binary32 primitives (R12 to R14). -/

namespace Sys2Proof.Machine

theorem fMag_lt (v : Word) : fMag v < 2 ^ 31 := Nat.mod_lt _ (by decide)

/-- A word is its sign and its other bits. -/
theorem toNat_eq (v : Word) : v.toNat = fMag v + if fSign v then 2 ^ 31 else 0 := by
  have h := v.isLt
  unfold fMag fSign
  split <;> rename_i hs <;> simp only [decide_eq_true_eq, not_le] at hs <;> omega

/-- Every word is a NaN, an infinity or finite. -/
theorem isNaN_or_isInf_or_isFinite (v : Word) : isNaN v = true ∨ isInf v = true ∨ isFinite v = true := by
  simp only [isNaN, isInf, isFinite, decide_eq_true_eq]; omega

theorem isNaN_of_isFinite {v : Word} (h : isFinite v = true) : isNaN v = false := by
  simp only [isNaN, isFinite, decide_eq_true_eq, decide_eq_false_iff_not] at *; omega

theorem isInf_of_isFinite {v : Word} (h : isFinite v = true) : isInf v = false := by
  simp only [isInf, isFinite, decide_eq_true_eq, decide_eq_false_iff_not] at *; omega

theorem pack_toNat {p : Nat} (neg : Bool) (h : p < 2 ^ 31) : (pack neg p).toNat = p + if neg then 2 ^ 31 else 0 := by
  unfold pack; rw [BitVec.toNat_ofNat]; split <;> omega

@[simp] theorem fMag_pack {p : Nat} (neg : Bool) (h : p < 2 ^ 31) : fMag (pack neg p) = p := by
  unfold fMag; rw [pack_toNat neg h]; split <;> omega

@[simp] theorem fSign_pack {p : Nat} (neg : Bool) (h : p < 2 ^ 31) : fSign (pack neg p) = neg := by
  unfold fSign; rw [pack_toNat neg h]
  cases neg
  · simp; omega
  · simp

/-- Packing a word's own sign and other bits gives the word back. -/
theorem pack_self (v : Word) : pack (fSign v) (fMag v) = v := by
  apply BitVec.eq_of_toNat_eq; rw [pack_toNat _ (fMag_lt v), ← toNat_eq]

theorem roundMag_le (x : Nat) : roundMag x ≤ infMag := by unfold roundMag; exact Nat.min_le_left _ _

theorem roundMag_lt (x : Nat) : roundMag x < 2 ^ 31 :=
  Nat.lt_of_le_of_lt (roundMag_le x) (by decide)

/-- Each word drawn for a NaN result is a quiet NaN (R12, U1). -/
theorem isQuietNaN_quietNaN (b : BitVec 23) : isQuietNaN (quietNaN b) = true := by
  have hb : (b.extractLsb' 0 22).toNat < 2 ^ 22 := (b.extractLsb' 0 22).isLt
  have hc : (b.extractLsb' 22 1).toNat < 2 := (b.extractLsb' 22 1).isLt
  have h : (quietNaN b).toNat = (b.extractLsb' 22 1).toNat * 2 ^ 31 + 511 * 2 ^ 22 + (b.extractLsb' 0 22).toNat := by
    unfold quietNaN
    rw [BitVec.toNat_append, BitVec.toNat_append, ← Nat.shiftLeft_add_eq_or_of_lt hb, Nat.shiftLeft_eq,
      ← Nat.shiftLeft_add_eq_or_of_lt (b := (0x1FF : BitVec 9).toNat) (by decide), Nat.shiftLeft_eq]
    have h511 : (0x1FF : BitVec 9).toNat = 511 := rfl
    omega
  simp only [isQuietNaN, decide_eq_true_eq, fMag, h]
  omega

theorem isQuietNaN_nanDraw (d k : Nat) : isQuietNaN (nanDraw d k) = true := by
  rw [nanDraw]; exact isQuietNaN_quietNaN _

theorem isNaN_of_isQuietNaN {v : Word} (h : isQuietNaN v = true) : isNaN v = true := by
  simp only [isQuietNaN, decide_eq_true_eq] at h
  simp only [isNaN, infMag, decide_eq_true_eq]
  omega

/-- A sum with a NaN is the NaN drawn (R12). -/
theorem fadd_of_isNaN {nan a b : Word} (h : isNaN a = true ∨ isNaN b = true) : fadd nan a b = nan := by
  unfold fadd; rcases h with h | h <;> simp [h]

/-- A product with a NaN is the NaN drawn (R12). -/
theorem fmul_of_isNaN {nan a b : Word} (h : isNaN a = true ∨ isNaN b = true) : fmul nan a b = nan := by
  unfold fmul; rcases h with h | h <;> simp [h]

/-- The sum of finite words (R12). -/
theorem fadd_of_isFinite {nan a b : Word} (ha : isFinite a = true) (hb : isFinite b = true) :
    fadd nan a b = if scaled a + scaled b = 0 then pack (fSign a && fSign b) 0
      else pack (decide (scaled a + scaled b < 0)) (roundMag ((scaled a + scaled b).natAbs * 2 ^ 149)) := by
  simp [fadd, isNaN_of_isFinite ha, isNaN_of_isFinite hb, isInf_of_isFinite ha, isInf_of_isFinite hb]

/-- The product of finite words (R12). -/
theorem fmul_of_isFinite {nan a b : Word} (ha : isFinite a = true) (hb : isFinite b = true) :
    fmul nan a b = pack (fSign a != fSign b) (roundMag (magValue (fMag a) * magValue (fMag b))) := by
  simp [fmul, isNaN_of_isFinite ha, isNaN_of_isFinite hb, isInf_of_isFinite ha, isInf_of_isFinite hb]

/-! ### Magnitudes in order, and the length conversion -/

theorem magValue_lt_succ (n : Nat) : magValue n < magValue (n + 1) := by
  unfold magValue
  have h23 : (2 : Nat) ^ 23 = 8388608 := by norm_num
  rw [h23]
  have hpos : ∀ k : Nat, 0 < 2 ^ k := fun k => Nat.two_pow_pos k
  by_cases hr : (n + 1) % 8388608 = 0
  · have he : (n + 1) / 8388608 = n / 8388608 + 1 := by omega
    have hf : n % 8388608 = 8388607 := by omega
    rw [he, hr, hf]
    by_cases h0 : n / 8388608 = 0
    · simp [h0]; omega
    · obtain ⟨e, he'⟩ := Nat.exists_eq_succ_of_ne_zero h0
      rw [he']; simp only [Nat.succ_eq_add_one, Nat.add_one_ne_zero, if_false, Nat.add_sub_cancel]
      have := hpos e
      rw [pow_succ]; nlinarith
  · have he : (n + 1) / 8388608 = n / 8388608 := by omega
    have hf : (n + 1) % 8388608 = n % 8388608 + 1 := by omega
    rw [he, hf]
    by_cases h0 : n / 8388608 = 0
    · simp [h0]
    · simp only [h0, if_false]
      have := hpos (n / 8388608 - 1)
      nlinarith

/-- A larger pattern denotes a larger magnitude. -/
theorem magValue_strictMono : StrictMono magValue := strictMono_nat_of_lt_succ magValue_lt_succ

/-- A multiple of 2^k is divided by 2^k exactly. -/
theorem rneShift_mul (q k : Nat) : rneShift (q * 2 ^ k) k = q := by
  unfold rneShift
  have : 0 < 2 ^ k := Nat.two_pow_pos k
  have h2 : ¬ (2 ^ (k - 1) < q * 2 ^ k % 2 ^ k ∨ (q * 2 ^ k % 2 ^ k = 2 ^ (k - 1) ∧ q * 2 ^ k / 2 ^ k % 2 = 1)) := by
    rw [Nat.mul_mod_left]
    have : 0 < 2 ^ (k - 1) := Nat.two_pow_pos _
    omega
  simp only [h2, if_false]
  exact Nat.mul_div_cancel _ this

/-- `u2f` is exact up to 2^24 (R12). -/
theorem u2f_value (n : Nat) (h : n ≤ 2 ^ 24) : fSign (u2f n) = false ∧ fMag (u2f n) < infMag ∧ magValue (fMag (u2f n)) = n * 2 ^ 149 := by
  unfold u2f
  rw [fMag_pack _ (roundMag_lt _), fSign_pack _ (roundMag_lt _)]
  refine ⟨rfl, ?_⟩
  rcases Nat.eq_zero_or_pos n with rfl | hn
  · decide +kernel
  have hl := (Nat.log2_eq_iff (by omega : n ≠ 0)).mp rfl
  generalize Nat.log2 n = l at hl
  have hl' : l ≤ 24 := by
    by_contra hc
    have : 2 ^ 25 ≤ 2 ^ l := Nat.pow_le_pow_right (by norm_num) (by omega)
    omega
  have hx : Nat.log2 (n * 2 ^ 298) = l + 298 := by
    rw [Nat.log2_eq_iff (by positivity)]
    constructor
    · rw [pow_add]; exact Nat.mul_le_mul_right _ hl.1
    · rw [show l + 298 + 1 = (l + 1) + 298 from by omega, pow_add]; exact Nat.mul_lt_mul_of_pos_right hl.2 (by positivity)
  have hs : roundShift (n * 2 ^ 298) = l + 275 := by unfold roundShift; rw [hx]; omega
  unfold roundMag; rw [hs]
  rcases Nat.lt_or_ge l 24 with h24 | h24
  · have hq : rneShift (n * 2 ^ 298) (l + 275) = n * 2 ^ (23 - l) := by
      rw [show n * 2 ^ 298 = (n * 2 ^ (23 - l)) * 2 ^ (l + 275) from by rw [mul_assoc, ← pow_add, show 23 - l + (l + 275) = 298 from by omega]]
      exact rneShift_mul _ _
    have hq1 : 2 ^ 23 ≤ n * 2 ^ (23 - l) := by
      calc 2 ^ 23 = 2 ^ l * 2 ^ (23 - l) := by rw [← pow_add]; congr 1; omega
        _ ≤ _ := Nat.mul_le_mul_right _ hl.1
    have hq2 : n * 2 ^ (23 - l) < 2 ^ 24 := by
      calc n * 2 ^ (23 - l) < 2 ^ (l + 1) * 2 ^ (23 - l) := Nat.mul_lt_mul_of_pos_right hl.2 (by positivity)
        _ = 2 ^ 24 := by rw [← pow_add]; congr 1; omega
    have hv : n * 2 ^ 149 = n * 2 ^ (23 - l) * 2 ^ (l + 126) := by
      rw [mul_assoc, ← pow_add, show 23 - l + (l + 126) = 149 from by omega]
    rw [hq, hv]
    clear hq hv hx hs
    generalize n * 2 ^ (23 - l) = q at hq1 hq2 ⊢
    have h1 : (2:Nat) ^ 23 = 8388608 := by norm_num
    have h2 : (2:Nat) ^ 24 = 16777216 := by norm_num
    have h3 : infMag = 2139095040 := by norm_num [infMag]
    rw [h1] at hq1; rw [h2] at hq2
    have hm : min infMag (q + (l + 275 - 149) * 2 ^ 23) = q + (l + 126) * 8388608 := by rw [h1, h3]; omega
    rw [hm]
    refine ⟨by rw [h3]; omega, ?_⟩
    unfold magValue
    rw [h1]
    have e1 : (q + (l + 126) * 8388608) / 8388608 = l + 127 := by omega
    have e2 : (q + (l + 126) * 8388608) % 8388608 = q - 8388608 := by omega
    rw [e1, e2, if_neg (by omega), show l + 127 - 1 = l + 126 from by omega, show 8388608 + (q - 8388608) = q from by omega]
  · have hn24 : n = 2 ^ 24 := by
      have : l = 24 := by omega
      subst this; omega
    have : l = 24 := by omega
    subst this; subst hn24
    clear hx hs hl
    refine ⟨by decide +kernel, by decide +kernel⟩

theorem orderKey_u2f {n : Nat} (h : n ≤ 2 ^ 24) : orderKey (u2f n) = fMag (u2f n) := by
  simp [orderKey, (u2f_value n h).1]

/-- The clamped length is below the capacity (R13, R136 step 2d). -/
theorem clampLen_lt (m : Word) {N : Nat} (h1 : 1 ≤ N) (h2 : N ≤ 2 ^ 24) : clampLen m N < N := by
  unfold clampLen
  split
  · omega
  split
  · omega
  split
  · omega
  · rename_i hn hlt hge
    simp only [Bool.not_eq_true] at hn hlt hge
    have hu := u2f_value (N - 1) (by omega)
    have hun : isNaN (u2f (N - 1)) = false := by simp only [isNaN, decide_eq_false_iff_not]; omega
    have h1n : isNaN ONE = false := by decide
    simp only [fle, flt, hn, hun, h1n, Bool.not_false, Bool.true_and, decide_eq_false_iff_not, not_le, not_lt] at hge hlt
    rw [orderKey_u2f (by omega)] at hge
    have hone : orderKey ONE = 1065353216 := by decide
    rw [hone] at hlt
    have hs : fSign m = false := by
      by_contra hc
      simp only [Bool.not_eq_false] at hc
      simp only [orderKey, hc, if_true] at hlt; omega
    simp only [orderKey, hs] at hge
    have hlt' : fMag m < fMag (u2f (N - 1)) := by simpa using hge
    have := magValue_strictMono hlt'
    rw [hu.2.2] at this
    have : magValue (fMag m) / 2 ^ 149 < N - 1 := (Nat.div_lt_iff_lt_mul (by positivity)).mpr this
    unfold ftrunc; omega

end Sys2Proof.Machine
end

