-- ==== Sys2Proof/Laws/Memory.lean ====
section
/-! SUPPORT. The buffer memories: reading after writing, and that every memory operation keeps the canonical form (R11, R50). -/

namespace Sys2Proof.Machine

theorem cellsGet_cellsSet_other (i j : Nat) (v : Word) (cs : List (Nat × Word)) (h : j ≠ i) :
    cellsGet j (cellsSet i v cs) = cellsGet j cs := by
  induction cs with
  | nil => unfold cellsSet; split <;> simp [cellsGet, h]
  | cons c rest ih =>
    obtain ⟨k, u⟩ := c
    unfold cellsSet
    split
    · split
      · rfl
      · simp [cellsGet, h]
    · split
      · subst_vars; split <;> simp [cellsGet, h]
      · simp only [cellsGet, ih]

theorem cellsGet_below {lo i : Nat} {cs : List (Nat × Word)} (hw : Memory.wfFrom lo cs = true) (h : i < lo) :
    cellsGet i cs = Memory.unlisted := by
  induction cs generalizing lo with
  | nil => rfl
  | cons c rest ih =>
    obtain ⟨k, u⟩ := c
    simp only [Memory.wfFrom, Bool.and_eq_true, decide_eq_true_eq] at hw
    have hne : i ≠ k := by omega
    simp only [cellsGet, hne, if_false]
    exact ih hw.2 (by omega)

theorem cellsGet_cellsSet_same {lo : Nat} (i : Nat) (v : Word) {cs : List (Nat × Word)}
    (hw : Memory.wfFrom lo cs = true) : cellsGet i (cellsSet i v cs) = v := by
  induction cs generalizing lo with
  | nil => unfold cellsSet; split <;> simp_all [cellsGet]
  | cons c rest ih =>
    obtain ⟨k, u⟩ := c
    have hw' := hw
    simp only [Memory.wfFrom, Bool.and_eq_true, decide_eq_true_eq] at hw
    unfold cellsSet
    split
    · rename_i hlt
      split
      · rename_i hv; rw [hv]
        have hne : i ≠ k := by omega
        simp only [cellsGet, hne, if_false]
        exact cellsGet_below hw.2 (by omega)
      · simp [cellsGet]
    · split
      · rename_i heq; subst heq
        split
        · rename_i hv; rw [hv]; exact cellsGet_below hw.2 (by omega)
        · simp [cellsGet]
      · rename_i hne; simp only [cellsGet, hne, if_false]; exact ih hw.2

theorem wfFrom_cellsSet {lo : Nat} (i : Nat) (v : Word) {cs : List (Nat × Word)} (hlo : lo ≤ i)
    (hw : Memory.wfFrom lo cs = true) : Memory.wfFrom lo (cellsSet i v cs) = true := by
  induction cs generalizing lo with
  | nil => unfold cellsSet; split <;> simp_all [Memory.wfFrom]
  | cons c rest ih =>
    obtain ⟨k, u⟩ := c
    have hw' := hw
    simp only [Memory.wfFrom, Bool.and_eq_true, decide_eq_true_eq] at hw
    have weaken : ∀ {a b : Nat} {l : List (Nat × Word)}, a ≤ b → Memory.wfFrom b l = true → Memory.wfFrom a l = true := by
      intro a b l hab hl
      cases l with
      | nil => rfl
      | cons d l =>
        obtain ⟨m, x⟩ := d
        simp only [Memory.wfFrom, Bool.and_eq_true, decide_eq_true_eq] at hl ⊢
        exact ⟨⟨by omega, hl.1.2⟩, hl.2⟩
    unfold cellsSet
    split
    · split
      · exact hw'
      · simp only [Memory.wfFrom, Bool.and_eq_true, decide_eq_true_eq]
        exact ⟨⟨hlo, by assumption⟩, ⟨by omega, hw.1.2⟩, hw.2⟩
    · split
      · rename_i heq; subst heq
        split
        · exact weaken (by omega) hw.2
        · simp only [Memory.wfFrom, Bool.and_eq_true, decide_eq_true_eq]
          exact ⟨⟨hlo, by assumption⟩, hw.2⟩
      · simp only [Memory.wfFrom, Bool.and_eq_true, decide_eq_true_eq]
        exact ⟨hw.1, ih (by omega) hw.2⟩

theorem mem_cellsSet {i : Nat} {v : Word} {cs : List (Nat × Word)} {c : Nat × Word} (h : c ∈ cellsSet i v cs) :
    c = (i, v) ∨ c ∈ cs := by
  induction cs with
  | nil => unfold cellsSet at h; split at h <;> simp_all
  | cons d rest ih =>
    obtain ⟨k, u⟩ := d
    unfold cellsSet at h
    split at h
    · split at h <;> simp_all
    · split at h
      · split at h <;> simp_all; tauto
      · rcases List.mem_cons.mp h with h | h
        · simp [h]
        · rcases ih h with h | h <;> simp [h]

/-- A slot just written holds the word written. -/
theorem Memory.get_set_same (m : Memory) (i : Nat) (v : Word) (h : m.wf = true) : (m.set i v).get i = v :=
  cellsGet_cellsSet_same i v h

/-- A write leaves every other slot alone. -/
theorem Memory.get_set_other (m : Memory) (i j : Nat) (v : Word) (h : j ≠ i) : (m.set i v).get j = m.get j :=
  cellsGet_cellsSet_other i j v m.cells h

@[simp] theorem Memory.get_zeroed (i : Nat) : Memory.zeroed.get i = 0 := rfl

/-- A write keeps the canonical form. -/
theorem Memory.set_wf (m : Memory) (i : Nat) (v : Word) (h : m.wf = true) : (m.set i v).wf = true :=
  wfFrom_cellsSet i v (Nat.zero_le i) h

theorem Memory.zeroed_wf : Memory.zeroed.wf = true := rfl

theorem Memory.zeroed_ok (N : Nat) : Memory.zeroed.Ok N := ⟨rfl, by intro c h; cases h⟩

/-- A write inside the buffer keeps the canonical form and adds no word outside. -/
theorem Memory.set_ok {N i : Nat} {m : Memory} (v : Word) (hi : i < N) (h : m.Ok N) : (m.set i v).Ok N := by
  refine ⟨Memory.set_wf m i v h.1, fun c hc => ?_⟩
  rcases mem_cellsSet hc with rfl | hc
  · exact hi
  · exact h.2 c hc

/-- `BufRead` answers inside the buffer, and there it answers the slot (R11). -/
theorem bufRead_of_lt {N i : Nat} (m : Memory) (h : i < N) : bufRead N m i = some (m.get i) := if_pos h

theorem bufRead_eq_some {N i : Nat} {m : Memory} {v : Word} : bufRead N m i = some v ↔ i < N ∧ m.get i = v := by
  unfold bufRead; split <;> simp_all

/-- `BufWrite` answers inside the buffer, and there it sets the slot (R11). -/
theorem bufWrite_of_lt {N i : Nat} (m : Memory) (v : Word) (h : i < N) : bufWrite N m i v = some (m.set i v) := if_pos h

theorem bufWrite_eq_some {N i : Nat} {m m' : Memory} {v : Word} :
    bufWrite N m i v = some m' ↔ i < N ∧ m.set i v = m' := by
  unfold bufWrite; split <;> simp_all

/-- The memory of the reset state is in canonical form: no unit owns a buffer (R35). -/
theorem State.reset_memory_ok (u : UnitKind) : State.reset.buffer u = none := by cases u <;> rfl

end Sys2Proof.Machine
end

