-- ==== Sys2Proof/Laws/Delay.lean ====
section
/-! SUPPORT. What the delay-line and echo operations do, said once: what they answer on a well-formed state, and that they
keep the invariants. -/

namespace Sys2Proof.Machine

/-- The fixed tick on a cursor inside the buffer (R91). -/
theorem FDLState.tick_of_lt (f : FDLState) (x : Word) (h : f.index < f.N) :
    f.tick x = some (f.buf.get f.index, { f with buf := f.buf.set f.index x, index := (f.index + 1) % f.N }) := by
  unfold FDLState.tick; rw [bufRead_of_lt _ h]; simp only [bufWrite_of_lt _ _ h]

/-- Everything a fixed tick can answer. -/
theorem FDLState.tick_eq_some {f g : FDLState} {x out : Word} (h : f.tick x = some (out, g)) :
    f.index < f.N ∧ out = f.buf.get f.index ∧
      g = { f with buf := f.buf.set f.index x, index := (f.index + 1) % f.N } := by
  by_cases hi : f.index < f.N
  · rw [FDLState.tick_of_lt f x hi] at h; cases h; exact ⟨hi, rfl, rfl⟩
  · simp [FDLState.tick, bufRead, hi] at h

theorem FDLState.peek_of_lt (f : FDLState) (h : f.index < f.N) : f.peek = some (f.buf.get f.index) := bufRead_of_lt _ h

theorem readIndex_lt {N : Nat} (widx offset : Nat) (h : 0 < N) : readIndex N widx offset < N := Nat.mod_lt _ h

/-- The variable tick on a write cursor inside the buffer (R101). -/
theorem VDLState.tick_of_lt (v : VDLState) (x : Word) (h : v.widx < v.N) :
    v.tick x = some ((v.buf.set v.widx x).get (readIndex v.N v.widx v.offset),
      { v with buf := v.buf.set v.widx x, ridx := readIndex v.N v.widx v.offset, widx := (v.widx + 1) % v.N }) := by
  unfold VDLState.tick
  rw [bufWrite_of_lt _ _ h]
  simp only [bufRead_of_lt _ (readIndex_lt v.widx v.offset (by omega : 0 < v.N))]

/-- Everything a variable tick can answer. -/
theorem VDLState.tick_eq_some {v u : VDLState} {x out : Word} (h : v.tick x = some (out, u)) :
    v.widx < v.N ∧ out = (v.buf.set v.widx x).get (readIndex v.N v.widx v.offset) ∧
      u = { v with buf := v.buf.set v.widx x, ridx := readIndex v.N v.widx v.offset, widx := (v.widx + 1) % v.N } := by
  by_cases hi : v.widx < v.N
  · rw [VDLState.tick_of_lt v x hi] at h; cases h; exact ⟨hi, rfl, rfl⟩
  · simp [VDLState.tick, bufWrite, hi] at h

theorem VDLState.peek_of_lt (v : VDLState) (h : v.ridx < v.N) : v.peek = some (v.buf.get v.ridx) := bufRead_of_lt _ h

/-! ### Invariants -/

theorem FDLState.new_inv {N : Nat} (h1 : 1 ≤ N) (h2 : N ≤ Config.capMax) : (FDLState.new N).Inv :=
  ⟨h1, h2, h1, Memory.zeroed_ok N⟩

theorem VDLState.new_inv {N o : Nat} (h1 : 1 ≤ N) (h2 : N ≤ Config.capMax) (ho : o < N) : (VDLState.new N o).Inv :=
  ⟨h1, h2, h1, readIndex_lt 0 o h1, ho, Memory.zeroed_ok N⟩

theorem FDLState.tick_inv {f g : FDLState} {x out : Word} (hf : f.Inv) (h : f.tick x = some (out, g)) : g.Inv := by
  obtain ⟨hi, -, rfl⟩ := FDLState.tick_eq_some h
  exact ⟨hf.1, hf.2.1, Nat.mod_lt _ hf.1, Memory.set_ok x hi hf.2.2.2⟩

theorem VDLState.tick_inv {v u : VDLState} {x out : Word} (hv : v.Inv) (h : v.tick x = some (out, u)) : u.Inv := by
  obtain ⟨hi, -, rfl⟩ := VDLState.tick_eq_some h
  exact ⟨hv.1, hv.2.1, Nat.mod_lt _ hv.1, readIndex_lt _ _ hv.1, hv.2.2.2.2.1, Memory.set_ok x hi hv.2.2.2.2.2⟩

theorem VDLState.setOffset_inv {v : VDLState} {o : Nat} (hv : v.Inv) (ho : o < v.N) : (v.setOffset o).Inv :=
  ⟨hv.1, hv.2.1, hv.2.2.1, hv.2.2.2.1, ho, hv.2.2.2.2.2⟩

theorem DelayLine.inv_fixed {f : FDLState} : (DelayLine.fixedLine f).Inv ↔ f.Inv := by
  simp [DelayLine.Inv, DelayLine.fixed?, DelayLine.variable?]

theorem DelayLine.inv_variable {v : VDLState} : (DelayLine.variableLine v).Inv ↔ v.Inv := by
  simp [DelayLine.Inv, DelayLine.fixed?, DelayLine.variable?]

/-- An owned delay line that is well formed peeks. -/
theorem DelayLine.peek_of_inv {d : DelayLine} (h : d.Inv) : ∃ r, d.peek = some r := by
  cases d with
  | fixedLine f => exact ⟨_, FDLState.peek_of_lt f (DelayLine.inv_fixed.mp h).2.2.1⟩
  | variableLine v => exact ⟨_, VDLState.peek_of_lt v (DelayLine.inv_variable.mp h).2.2.2.1⟩

/-- An owned delay line that is well formed ticks, keeps its invariant, its backing and its capacity. -/
theorem DelayLine.tick_of_inv {d : DelayLine} (x : Word) (h : d.Inv) :
    ∃ out d', d.tick x = some (out, d') ∧ d'.Inv ∧ d'.isVariable = d.isVariable ∧ d'.capacity = d.capacity := by
  cases d with
  | fixedLine f =>
    have hf := DelayLine.inv_fixed.mp h
    have ht := FDLState.tick_of_lt f x hf.2.2.1
    exact ⟨_, _, by simp only [DelayLine.tick, ht]; rfl, DelayLine.inv_fixed.mpr (FDLState.tick_inv hf ht), rfl, rfl⟩
  | variableLine v =>
    have hv := DelayLine.inv_variable.mp h
    have ht := VDLState.tick_of_lt v x hv.2.2.1
    exact ⟨_, _, by simp only [DelayLine.tick, ht]; rfl, DelayLine.inv_variable.mpr (VDLState.tick_inv hv ht), rfl, rfl⟩

/-- Everything a tick of an owned delay line can answer: the backing and the capacity stay, and no slot but the one at the
write cursor changes (R27, R57). -/
theorem DelayLine.tick_keeps {d d' : DelayLine} {x out : Word} (h : d.tick x = some (out, d')) :
    d'.isVariable = d.isVariable ∧ d'.capacity = d.capacity ∧
      ∀ j, j ≠ d.writeCursor → d'.buf.get j = d.buf.get j := by
  cases d with
  | fixedLine f =>
    simp only [DelayLine.tick, Option.map_eq_some_iff, Prod.exists] at h
    obtain ⟨o, g, hg, he⟩ := h
    obtain ⟨-, -, rfl⟩ := FDLState.tick_eq_some hg
    cases he; exact ⟨rfl, rfl, fun j hj => Memory.get_set_other _ _ _ _ hj⟩
  | variableLine v =>
    simp only [DelayLine.tick, Option.map_eq_some_iff, Prod.exists] at h
    obtain ⟨o, g, hg, he⟩ := h
    obtain ⟨-, -, rfl⟩ := VDLState.tick_eq_some hg
    cases he; exact ⟨rfl, rfl, fun j hj => Memory.get_set_other _ _ _ _ hj⟩

/-- Everything an echo tick can answer (R117). -/
theorem EchoState.tick_eq_some {nan : Nat → Word} {e e' : EchoState} {x out : Word}
    (h : e.tick nan x = some (out, e')) :
    ∃ r delayed d, e.delay.peek = some r ∧ e.delay.tick (e.fed nan x r) = some (delayed, d) ∧
      out = e.mix nan x delayed ∧ e' = { e with delay := d } := by
  unfold EchoState.tick at h
  split at h
  · cases h
  · rename_i r hr
    split at h
    · cases h
    · rename_i delayed d hd
      cases h; exact ⟨r, delayed, d, hr, hd, rfl, rfl⟩

/-- What every echo tick keeps: the coefficients, the backing, the capacity, and every slot but the one at the write
cursor. -/
theorem EchoState.tick_keeps {nan : Nat → Word} {e e' : EchoState} {x out : Word} (h : e.tick nan x = some (out, e')) :
    e'.feedback = e.feedback ∧ e'.dry = e.dry ∧ e'.wet = e.wet ∧ e'.delay.isVariable = e.delay.isVariable ∧
      e'.delay.capacity = e.delay.capacity ∧
      ∀ j, j ≠ e.delay.writeCursor → e'.delay.buf.get j = e.delay.buf.get j := by
  obtain ⟨r, delayed, d, -, hd, -, rfl⟩ := EchoState.tick_eq_some h
  obtain ⟨h1, h2, h3⟩ := DelayLine.tick_keeps hd
  exact ⟨rfl, rfl, rfl, h1, h2, h3⟩

/-- An echo that is well formed ticks and keeps its invariant, its backing and its capacity (R156). -/
theorem EchoState.tick_of_inv {e : EchoState} (nan : Nat → Word) (x : Word) (h : e.Inv) :
    ∃ out e', e.tick nan x = some (out, e') ∧ e'.Inv ∧ e'.delay.isVariable = e.delay.isVariable ∧
      e'.delay.capacity = e.delay.capacity := by
  obtain ⟨r, hr⟩ := DelayLine.peek_of_inv h.1
  obtain ⟨out, d, hd, hi, hv, hc⟩ := DelayLine.tick_of_inv (e.fed nan x r) h.1
  exact ⟨e.mix nan x out, { e with delay := d }, by simp only [EchoState.tick, hr, hd], ⟨hi, h.2⟩, hv, hc⟩

/-- An echo tick over a fixed backing, cursor inside the buffer (R117, R121). -/
theorem EchoState.tick_fixed {e : EchoState} {f : FDLState} (nan : Nat → Word) (x : Word) (hd : e.delay = .fixedLine f)
    (h : f.index < f.N) :
    e.tick nan x = some (e.mix nan x (f.buf.get f.index),
      { e with delay := .fixedLine { f with buf := f.buf.set f.index (e.fed nan x (f.buf.get f.index)), index := (f.index + 1) % f.N } }) := by
  unfold EchoState.tick
  simp only [hd, DelayLine.peek, FDLState.peek_of_lt f h, DelayLine.tick, FDLState.tick_of_lt f _ h, Option.map_some]

/-- An echo tick over a variable backing, both indices inside the buffer (R117, R121). -/
theorem EchoState.tick_variable {e : EchoState} {v : VDLState} (nan : Nat → Word) (x : Word)
    (hd : e.delay = .variableLine v) (hw : v.widx < v.N) (hr : v.ridx < v.N) :
    e.tick nan x = some
      (e.mix nan x ((v.buf.set v.widx (e.fed nan x (v.buf.get v.ridx))).get (readIndex v.N v.widx v.offset)),
      { e with delay := .variableLine { v with buf := v.buf.set v.widx (e.fed nan x (v.buf.get v.ridx)), ridx := readIndex v.N v.widx v.offset, widx := (v.widx + 1) % v.N } }) := by
  unfold EchoState.tick
  simp only [hd, DelayLine.peek, VDLState.peek_of_lt v hr, DelayLine.tick, VDLState.tick_of_lt v _ hw, Option.map_some]

/-- `fed` and `mix` read only the coefficients. -/
@[simp] theorem EchoState.fed_delay (nan : Nat → Word) (e : EchoState) (d : DelayLine) (x r : Word) :
    EchoState.fed nan { e with delay := d } x r = e.fed nan x r := rfl

@[simp] theorem EchoState.mix_delay (nan : Nat → Word) (e : EchoState) (d : DelayLine) (x r : Word) :
    EchoState.mix nan { e with delay := d } x r = e.mix nan x r := rfl

/-- An echo tick over a variable backing whose offset was just set (R136 steps 3 and 4a). -/
theorem EchoState.tick_retuned {e : EchoState} {v : VDLState} (nan : Nat → Word) (x : Word) (L : Nat)
    (hw : v.widx < v.N) (hr : v.ridx < v.N) :
    EchoState.tick nan { e with delay := .variableLine (v.setOffset L) } x = some
      (e.mix nan x ((v.buf.set v.widx (e.fed nan x (v.buf.get v.ridx))).get (readIndex v.N v.widx L)),
      { e with delay := .variableLine { v with buf := v.buf.set v.widx (e.fed nan x (v.buf.get v.ridx)), ridx := readIndex v.N v.widx L, widx := (v.widx + 1) % v.N, offset := L } }) :=
  EchoState.tick_variable (e := { e with delay := .variableLine (v.setOffset L) }) (v := v.setOffset L) nan x rfl hw hr

/-- Everything a tick of the effect can answer (R136): the inner echo's tick after its offset is set. -/
theorem MDEState.tick_eq_some {nan : Nat → Word} {m m' : MDEState} {osc x out : Word}
    (h : m.tick nan osc x = some (out, m')) :
    ∃ v y e, m.echo.delay = .variableLine v ∧
      EchoState.tick (fun k => nan (k + 5)) { m.echo with delay := .variableLine (v.setOffset (m.length nan osc)) } x =
        some (y, e) ∧
      out = fmul (nan 10) y m.depth ∧ m' = { m with echo := e } := by
  unfold MDEState.tick at h
  split at h
  · cases h
  · rename_i v hv
    split at h
    · cases h
    · rename_i y e he; cases h; exact ⟨v, y, e, hv, he, rfl, rfl⟩

/-- What an echo tick keeps whose offset was just set. Said for any offset by itself: a comparison that reaches the
arithmetic behind MDE.TICK's offset does not end. -/
theorem EchoState.tick_retuned_keeps {nan : Nat → Word} {e e' : EchoState} {v : VDLState} {x out : Word} {L : Nat}
    (h : EchoState.tick nan { e with delay := .variableLine (v.setOffset L) } x = some (out, e')) :
    e'.feedback = e.feedback ∧ e'.dry = e.dry ∧ e'.wet = e.wet ∧ e'.delay.isVariable = true ∧ e'.delay.capacity = v.N ∧
      ∀ j, j ≠ v.widx → e'.delay.buf.get j = v.buf.get j :=
  EchoState.tick_keeps h

/-- What every tick of the effect keeps: the parameters, the inner echo's coefficients, backing and capacity, and every
slot but the one at the write cursor. -/
theorem MDEState.tick_keeps {nan : Nat → Word} {m m' : MDEState} {osc x out : Word}
    (h : m.tick nan osc x = some (out, m')) :
    m'.base = m.base ∧ m'.lfoIndex = m.lfoIndex ∧ m'.depth = m.depth ∧ m'.echo.feedback = m.echo.feedback ∧
      m'.echo.dry = m.echo.dry ∧ m'.echo.wet = m.echo.wet ∧ m.echo.delay.isVariable = true ∧
      m'.echo.delay.isVariable = true ∧ m'.echo.delay.capacity = m.echo.delay.capacity ∧
      ∀ j, j ≠ m.echo.delay.writeCursor → m'.echo.delay.buf.get j = m.echo.delay.buf.get j := by
  obtain ⟨v, y, e, hv, he, -, rfl⟩ := MDEState.tick_eq_some h
  obtain ⟨h1, h2, h3, h4, h5, h6⟩ := EchoState.tick_retuned_keeps he
  rw [hv]
  exact ⟨rfl, rfl, rfl, h1, h2, h3, rfl, h4, h5, h6⟩

/-- A tick of the effect over a variable backing, both indices inside the buffer (R136). -/
theorem MDEState.tick_variable {m : MDEState} {v : VDLState} (nan : Nat → Word) (osc x : Word)
    (hd : m.echo.delay = .variableLine v) (hw : v.widx < v.N) (hr : v.ridx < v.N) :
    m.tick nan osc x = some
      (fmul (nan 10) (m.echo.mix (fun k => nan (k + 5)) x ((v.buf.set v.widx (m.echo.fed (fun k => nan (k + 5)) x (v.buf.get v.ridx))).get (readIndex v.N v.widx (m.length nan osc)))) m.depth,
      { m with echo := { m.echo with delay := .variableLine { v with buf := v.buf.set v.widx (m.echo.fed (fun k => nan (k + 5)) x (v.buf.get v.ridx)), ridx := readIndex v.N v.widx (m.length nan osc), widx := (v.widx + 1) % v.N, offset := m.length nan osc } } }) := by
  unfold MDEState.tick
  rw [hd]
  simp only [EchoState.tick_retuned _ _ _ hw hr]

/-- The length of a tick is below the capacity (R136 step 2d). -/
theorem MDEState.length_lt {m : MDEState} (nan : Nat → Word) (osc : Word) (h : m.base ≤ Config.capMax - 1) :
    m.length nan osc < m.base + 1 := by
  have hc : Config.capMax = 65536 := rfl
  unfold MDEState.length
  exact clampLen_lt _ (by omega) (by omega)

/-- The inner delay line of a well-formed effect. -/
theorem MDEState.variable_of_inv {m : MDEState} (h : m.Inv) :
    ∃ v, m.echo.delay = .variableLine v ∧ v.Inv ∧ v.N = m.base + 1 := by
  obtain ⟨-, ⟨hd, -⟩, hv, hc⟩ := h
  cases hk : m.echo.delay with
  | fixedLine f => rw [hk] at hv; cases hv
  | variableLine v => rw [hk] at hd hc; exact ⟨v, rfl, DelayLine.inv_variable.mp hd, hc⟩

/-- An effect that is well formed ticks, whatever the oscillator answers, and keeps its invariant (R156). -/
theorem MDEState.tick_of_inv {m : MDEState} (nan : Nat → Word) (osc x : Word) (h : m.Inv) :
    ∃ out m', m.tick nan osc x = some (out, m') ∧ m'.Inv := by
  obtain ⟨v, hd, hv, hN⟩ := MDEState.variable_of_inv h
  refine ⟨_, _, MDEState.tick_variable nan osc x hd hv.2.2.1 hv.2.2.2.1, h.1, ⟨?_, h.2.1.2⟩, rfl, hN⟩
  refine DelayLine.inv_variable.mpr ⟨hv.1, hv.2.1, Nat.mod_lt _ hv.1, readIndex_lt _ _ hv.1, ?_, Memory.set_ok _ hv.2.2.1 hv.2.2.2.2.2⟩
  have := MDEState.length_lt nan osc h.1
  exact hN ▸ this

end Sys2Proof.Machine
end

