-- ==== Sys2Proof/Laws/Perform.lean ====
section
/-! SUPPORT. What performing a command can come to, said once (R152, R153, R155). -/

namespace Sys2Proof.Machine

/-- While a fault is recorded a command is ignored (R155). -/
theorem perform_faulted {w : Word} {body : State → Effect} {s : State} {r : FaultRecord} (h : s.fault = some r) :
    perform w body s = .next s := by
  simp [perform, h]

/-- With no fault recorded a command is its body. -/
theorem perform_ready {w : Word} {body : State → Effect} {s : State} (h : s.fault = none) :
    perform w body s =
      match body s with
      | .done t => .next t
      | .raise c => .next (enterFault c w s)
      | .stop f => .fault f := by
  unfold perform
  split
  · simp_all
  · rfl

theorem perform_done {w : Word} {body : State → Effect} {s t : State} (h : s.fault = none) (hb : body s = .done t) :
    perform w body s = .next t := by
  rw [perform_ready h, hb]

theorem perform_raise {w : Word} {body : State → Effect} {s : State} {c : Cause} (h : s.fault = none)
    (hb : body s = .raise c) : perform w body s = .next (enterFault c w s) := by
  rw [perform_ready h, hb]

/-- Everything a command that answers a next state can have done: nothing, its own effect, or fault entry. -/
theorem perform_eq_next {w : Word} {body : State → Effect} {s t : State} (h : perform w body s = .next t) :
    (∃ r, s.fault = some r ∧ t = s) ∨ (s.fault = none ∧ body s = .done t) ∨
      (s.fault = none ∧ ∃ c, body s = .raise c ∧ t = enterFault c w s) := by
  cases hf : s.fault with
  | some r => rw [perform_faulted hf] at h; cases h; exact .inl ⟨r, rfl, rfl⟩
  | none =>
    rw [perform_ready hf] at h
    cases hb : body s with
    | done u => rw [hb] at h; cases h; exact .inr (.inl ⟨rfl, rfl⟩)
    | raise c => rw [hb] at h; cases h; exact .inr (.inr ⟨rfl, c, rfl, rfl⟩)
    | stop f => rw [hb] at h; cases h

/-- A command is never refused. -/
theorem perform_ne_refused {w : Word} {body : State → Effect} {s : State} {r : Refusal} : perform w body s ≠ .refused r := by
  unfold perform
  split
  · simp
  · split <;> simp

/-- A command stops with a fault only where its body does. -/
theorem perform_eq_fault {w : Word} {body : State → Effect} {s : State} {f : Fault} (h : perform w body s = .fault f) :
    s.fault = none ∧ body s = .stop f := by
  cases hf : s.fault with
  | some r => rw [perform_faulted hf] at h; cases h
  | none =>
    rw [perform_ready hf] at h
    refine ⟨rfl, ?_⟩
    cases hb : body s <;> rw [hb] at h <;> cases h
    rfl

/-- The body of each command. -/
def bodyOf : Instr → State → Effect
  | .fdlNew => fdlNewBody
  | .fdlTick => fdlTickBody
  | .fdlRead => fdlReadBody
  | .vdlNew => vdlNewBody
  | .vdlTick => vdlTickBody
  | .vdlRead => vdlReadBody
  | .vdlSetoff => vdlSetoffBody
  | .echoNewf => echoNewfBody
  | .echoTick => echoTickBody
  | .echoSetdly => echoSetdlyBody
  | .echoSetfb => echoSetfbBody
  | .echoSetmix => echoSetmixBody
  | .echoNewv => echoNewvBody
  | .mdeNew => mdeNewBody
  | .mdeTick => mdeTickBody

/-- Every command is its body, performed under its own word: with the `perform` lemmas, everything a command can come to. -/
theorem exec_eq_perform (i : Instr) (s : State) : exec i s = perform (encode i) (bodyOf i) s := by cases i <;> rfl

/-- The step on a pending action. -/
theorem step_cons {s : State} {act : HostAction} {rest : List HostAction} (h : s.host = act :: rest) :
    step s = performAction act { s with host := rest } := by
  unfold step; rw [h]

/-- The step with nothing pending. -/
theorem step_nil {s : State} (h : s.host = []) : step s = .next s := by
  unfold step; rw [h]

end Sys2Proof.Machine
end

