-- ==== Sys2Proof/Laws/Bodies.lean ====
section
/-! SUPPORT. Everything the body of each command can complete with, said once, so that no proof unfolds a body (R90 to R92,
R100 to R103, R115 to R120, R135, R136). -/

namespace Sys2Proof.Machine

theorem fdlNewBody_done {s t : State} (h : fdlNewBody s = .done t) :
    s.fdl = none ∧ 1 ≤ s.a.a0.toNat ∧ s.a.a0.toNat ≤ Config.capMax ∧
      t = { s with fdl := some (FDLState.new s.a.a0.toNat) } := by
  unfold fdlNewBody at h
  split at h
  · cases h
  · rename_i hn
    split at h
    · cases h
    · rename_i hc
      cases h
      simp only [State.opU_0, badCapacity_eq_true] at hc
      exact ⟨hn, by omega, by omega, rfl⟩

theorem fdlTickBody_done {s t : State} (h : fdlTickBody s = .done t) :
    ∃ f out f', s.fdl = some f ∧ f.tick s.a.a0 = some (out, f') ∧ t = ({ s with fdl := some f' } : State).setR0 out := by
  unfold fdlTickBody at h
  split at h
  · cases h
  · rename_i f hf
    split at h
    · cases h
    · rename_i out f' ht; cases h; exact ⟨f, out, f', hf, ht, rfl⟩

theorem fdlReadBody_done {s t : State} (h : fdlReadBody s = .done t) :
    ∃ f out, s.fdl = some f ∧ f.peek = some out ∧ t = s.setR0 out := by
  unfold fdlReadBody at h
  split at h
  · cases h
  · rename_i f hf
    split at h
    · cases h
    · rename_i out hp; cases h; exact ⟨f, out, hf, hp, rfl⟩

theorem vdlNewBody_done {s t : State} (h : vdlNewBody s = .done t) :
    s.vdl = none ∧ 1 ≤ s.a.a0.toNat ∧ s.a.a0.toNat ≤ Config.capMax ∧ s.a.a1.toNat < s.a.a0.toNat ∧
      t = { s with vdl := some (VDLState.new s.a.a0.toNat s.a.a1.toNat) } := by
  unfold vdlNewBody at h
  split at h
  · cases h
  · rename_i hn
    split at h
    · cases h
    · rename_i hc
      split at h
      · cases h
      · rename_i ho
        cases h
        simp only [State.opU_0, badCapacity_eq_true] at hc
        simp only [State.opU_0, State.opU_1] at ho
        exact ⟨hn, by omega, by omega, by omega, rfl⟩

theorem vdlTickBody_done {s t : State} (h : vdlTickBody s = .done t) :
    ∃ v out v', s.vdl = some v ∧ v.tick s.a.a0 = some (out, v') ∧ t = ({ s with vdl := some v' } : State).setR0 out := by
  unfold vdlTickBody at h
  split at h
  · cases h
  · rename_i v hv
    split at h
    · cases h
    · rename_i out v' ht; cases h; exact ⟨v, out, v', hv, ht, rfl⟩

theorem vdlReadBody_done {s t : State} (h : vdlReadBody s = .done t) :
    ∃ v out, s.vdl = some v ∧ v.peek = some out ∧ t = s.setR0 out := by
  unfold vdlReadBody at h
  split at h
  · cases h
  · rename_i v hv
    split at h
    · cases h
    · rename_i out hp; cases h; exact ⟨v, out, hv, hp, rfl⟩

theorem vdlSetoffBody_done {s t : State} (h : vdlSetoffBody s = .done t) :
    ∃ v, s.vdl = some v ∧ s.a.a0.toNat < v.N ∧ t = { s with vdl := some (v.setOffset s.a.a0.toNat) } := by
  unfold vdlSetoffBody at h
  split at h
  · cases h
  · rename_i v hv
    split at h
    · cases h
    · rename_i ho
      cases h
      exact ⟨v, hv, by simpa using ho, rfl⟩

theorem newEcho_done {backing : Nat → DelayLine} {s t : State} (h : newEcho backing s = .done t) :
    s.echo = none ∧ 1 ≤ s.a.a0.toNat ∧ s.a.a0.toNat ≤ Config.capMax ∧ inUnit s.a.a1 = true ∧
      mixOK s.a.a2 s.a.a3 = true ∧
      t = { s with echo := some { delay := backing s.a.a0.toNat, feedback := s.a.a1, dry := s.a.a2, wet := s.a.a3 } } := by
  unfold newEcho at h
  split at h
  · cases h
  · rename_i hn
    split at h
    · cases h
    · rename_i hc
      split at h
      · cases h
      · rename_i hu
        split at h
        · cases h
        · rename_i hm
          cases h
          simp only [State.opU_0, badCapacity_eq_true] at hc
          exact ⟨hn, by omega, by omega, by simpa using hu, by simpa using hm, rfl⟩

theorem echoNewfBody_done {s t : State} (h : echoNewfBody s = .done t) :
    s.echo = none ∧ 1 ≤ s.a.a0.toNat ∧ s.a.a0.toNat ≤ Config.capMax ∧ inUnit s.a.a1 = true ∧
      mixOK s.a.a2 s.a.a3 = true ∧
      t = { s with echo := some { delay := .fixedLine (FDLState.new s.a.a0.toNat), feedback := s.a.a1, dry := s.a.a2, wet := s.a.a3 } } :=
  newEcho_done h

theorem echoNewvBody_done {s t : State} (h : echoNewvBody s = .done t) :
    s.echo = none ∧ 1 ≤ s.a.a0.toNat ∧ s.a.a0.toNat ≤ Config.capMax ∧ inUnit s.a.a1 = true ∧
      mixOK s.a.a2 s.a.a3 = true ∧
      t = { s with echo := some { delay := .variableLine (VDLState.new s.a.a0.toNat (s.a.a0.toNat - 1)), feedback := s.a.a1, dry := s.a.a2, wet := s.a.a3 } } :=
  newEcho_done h

theorem echoTickBody_done {s t : State} (h : echoTickBody s = .done t) :
    ∃ e out e', s.echo = some e ∧ e.tick (nanDraw s.draws) s.a.a0 = some (out, e') ∧
      t = (({ s with echo := some e' } : State).setR0 out).nextDraw := by
  unfold echoTickBody at h
  split at h
  · cases h
  · rename_i e he
    split at h
    · cases h
    · rename_i out e' ht; cases h; exact ⟨e, out, e', he, ht, rfl⟩

theorem echoSetdlyBody_done {s t : State} (h : echoSetdlyBody s = .done t) :
    ∃ e v, s.echo = some e ∧ e.delay = .variableLine v ∧ s.a.a0.toNat < v.N ∧
      t = { s with echo := some { e with delay := .variableLine (v.setOffset s.a.a0.toNat) } } := by
  unfold echoSetdlyBody at h
  split at h
  · cases h
  · rename_i e he
    split at h
    · cases h
    · rename_i v hv
      split at h
      · cases h
      · rename_i ho
        cases h
        exact ⟨e, v, he, hv, by simpa using ho, rfl⟩

theorem echoSetfbBody_done {s t : State} (h : echoSetfbBody s = .done t) :
    ∃ e, s.echo = some e ∧ inUnit s.a.a0 = true ∧ t = { s with echo := some { e with feedback := s.a.a0 } } := by
  unfold echoSetfbBody at h
  split at h
  · cases h
  · rename_i e he
    split at h
    · cases h
    · rename_i hu; cases h; exact ⟨e, he, by simpa using hu, rfl⟩

theorem echoSetmixBody_done {s t : State} (h : echoSetmixBody s = .done t) :
    ∃ e, s.echo = some e ∧ mixOK s.a.a0 s.a.a1 = true ∧
      t = { s with echo := some { e with dry := s.a.a0, wet := s.a.a1 } } := by
  unfold echoSetmixBody at h
  split at h
  · cases h
  · rename_i e he
    split at h
    · cases h
    · rename_i hm; cases h; exact ⟨e, he, by simpa using hm, rfl⟩

theorem mdeNewBody_done {s t : State} (h : mdeNewBody s = .done t) :
    s.mde = none ∧ s.a.a0.toNat ≤ Config.capMax - 1 ∧ inUnit s.a.a3 = true ∧ mixOK s.a.a4 s.a.a5 = true ∧
      t = { s with mde := some { base := s.a.a0.toNat, lfoIndex := s.a.a1, depth := s.a.a2, echo := { delay := .variableLine (VDLState.new (s.a.a0.toNat + 1) s.a.a0.toNat), feedback := s.a.a3, dry := s.a.a4, wet := s.a.a5 } } } := by
  unfold mdeNewBody at h
  split at h
  · cases h
  · rename_i hn
    split at h
    · cases h
    · rename_i hc
      split at h
      · cases h
      · rename_i hu
        split at h
        · cases h
        · rename_i hm
          cases h
          refine ⟨hn, ?_, by simpa using hu, by simpa using hm, rfl⟩
          simp only [State.opU_0] at hc; omega

theorem mdeTickBody_done {s t : State} (h : mdeTickBody s = .done t) :
    ∃ m out m', s.mde = some m ∧ m.tick (nanDraw s.draws) (oscExchange s.a.a0 s).1 s.a.a0 = some (out, m') ∧
      t = (({ (oscExchange s.a.a0 s).2 with mde := some m' } : State).setR0 out).nextDraw := by
  unfold mdeTickBody at h
  split at h
  · cases h
  · rename_i m hm
    split at h
    · cases h
    · split at h
      · cases h
      · rename_i out m' ht; cases h; exact ⟨m, out, m', hm, ht, rfl⟩

end Sys2Proof.Machine
end

