-- ==== Sys2Proof/Laws/PerInstr.lean ====
section
/-! SUPPORT. The family `Format`: every command's word is in format CW (R71), its UNIT and FUNC are those of R73, and it reads
no more than the six operand registers (R72). -/

namespace Sys2Proof.Laws.Format

/-- Format CW for one command. -/
def Statement (i : Instr) : Prop :=
  unitField (encode i) = unitCode i.unit ∧ funcField (encode i) = funcCode i ∧ zeroField (encode i) = 0 ∧
    i.operands.length ≤ 6

theorem fdlNew : Statement .fdlNew := by unfold Statement; decide
theorem fdlTick : Statement .fdlTick := by unfold Statement; decide
theorem fdlRead : Statement .fdlRead := by unfold Statement; decide
theorem vdlNew : Statement .vdlNew := by unfold Statement; decide
theorem vdlTick : Statement .vdlTick := by unfold Statement; decide
theorem vdlRead : Statement .vdlRead := by unfold Statement; decide
theorem vdlSetoff : Statement .vdlSetoff := by unfold Statement; decide
theorem echoNewf : Statement .echoNewf := by unfold Statement; decide
theorem echoTick : Statement .echoTick := by unfold Statement; decide
theorem echoSetdly : Statement .echoSetdly := by unfold Statement; decide
theorem echoSetfb : Statement .echoSetfb := by unfold Statement; decide
theorem echoSetmix : Statement .echoSetmix := by unfold Statement; decide
theorem echoNewv : Statement .echoNewv := by unfold Statement; decide
theorem mdeNew : Statement .mdeNew := by unfold Statement; decide
theorem mdeTick : Statement .mdeTick := by unfold Statement; decide

end Sys2Proof.Laws.Format
end

