-- ==== Sys2Proof/Tests/Slice0.lean ====
section
/-! SUPPORT. Tests: words and results from the spec's own vectors (95_test_vectors.md, named in each comment), ill-formed
lines that the checks refuse, and for every statement with hypotheses a state that meets them. -/

namespace Sys2Proof.Tests

-- One theorem at a time: the kernel evaluations of this file side by side ask for more memory than a check has.
set_option Elab.async false

open Sys2Proof.Machine

/-! ### Small states -/

def nextOf : Host.Outcome State Fault Refusal → Option State
  | .next t => some t
  | .fault _ => none
  | .refused _ => none

/-- Reset, with these operand words. -/
def ops (a0 a1 a2 a3 a4 a5 : Word) : State := { State.reset with a := ⟨a0, a1, a2, a3, a4, a5⟩ }

def withA0 (w : Word) (s : State) : State := { s with a := { s.a with a0 := w } }

/-- The state of R91's example. -/
def fdl3 : FDLState := { N := 3, buf := ⟨[(0, 0x3F800000), (1, 0x40000000), (2, 0x40400000)]⟩, index := 0 }
/-- The state of R101's example. -/
def vdl3 : VDLState := { N := 3, buf := ⟨[(0, 0x3F800000)]⟩, widx := 1, ridx := 2, offset := 1 }
/-- The state of R117's example. -/
def echoF : EchoState :=
  { delay := .fixedLine { N := 2, buf := ⟨[(0, 0x3F800000)]⟩, index := 0 }, feedback := HALF, dry := HALF, wet := HALF }
/-- The state of R116's example. -/
def echoV : EchoState :=
  { delay := .variableLine { N := 3, buf := ⟨[]⟩, widx := 0, ridx := 1, offset := 2 }, feedback := HALF, dry := HALF, wet := HALF }
/-- The state of R135's example. -/
def mde4 : MDEState :=
  { base := 4, lfoIndex := HALF, depth := ONE, echo := { delay := .variableLine { N := 5, buf := ⟨[]⟩, widx := 0, ridx := 1, offset := 4 }, feedback := 0, dry := 0, wet := ONE } }

def sF : State := { State.reset with fdl := some fdl3 }
def sV : State := { State.reset with vdl := some vdl3 }
def sEF : State := { State.reset with echo := some echoF }
def sEV : State := { State.reset with echo := some echoV }
def sM : State := { State.reset with mde := some mde4, oscIn := [0x3F800000] }
def sFaulted : State := { State.reset with fault := some ⟨.badOffset, 0x20000000⟩ }

/-! ### Decoding: every word of R73, written out, and the illegal words of 95_test_vectors 2.1 -/

theorem test_decode_fdl : decode 0x10000000 = .ok .fdlNew ∧ decode 0x11000000 = .ok .fdlTick ∧
    decode 0x12000000 = .ok .fdlRead := by decide
theorem test_decode_vdl : decode 0x20000000 = .ok .vdlNew ∧ decode 0x21000000 = .ok .vdlTick ∧
    decode 0x22000000 = .ok .vdlRead ∧ decode 0x23000000 = .ok .vdlSetoff := by decide
theorem test_decode_echo : decode 0x30000000 = .ok .echoNewf ∧ decode 0x31000000 = .ok .echoTick ∧
    decode 0x33000000 = .ok .echoSetdly ∧ decode 0x34000000 = .ok .echoSetfb ∧ decode 0x35000000 = .ok .echoSetmix ∧
    decode 0x36000000 = .ok .echoNewv := by decide
theorem test_decode_mde : decode 0x40000000 = .ok .mdeNew ∧ decode 0x41000000 = .ok .mdeTick := by decide
theorem test_decode_illegal_func : decode 0x13000000 = .error .reservedFunc ∧ decode 0x24000000 = .error .reservedFunc ∧
    decode 0x32000000 = .error .reservedFunc ∧ decode 0x37000000 = .error .reservedFunc ∧
    decode 0x42000000 = .error .reservedFunc := by decide
theorem test_decode_illegal_unit : decode 0x00000000 = .error .reservedUnit ∧ decode 0x50000000 = .error .reservedUnit := by
  decide
theorem test_decode_illegal_zero : decode 0xFFFFFFFF = .error .zeroField ∧ decode 0x10000001 = .error .zeroField ∧
    decode 0x11000100 = .error .zeroField := by decide
theorem test_encode : encode .vdlSetoff = 0x23000000 ∧ encode .echoNewv = 0x36000000 ∧ encode .mdeTick = 0x41000000 := by
  decide
theorem test_decodeTableWord : decodeTableWord 32 0x35000000 = some .echoSetmix ∧ decodeTableWord 32 0x35000001 = none := by
  decide

/-! ### Well-formedness: an ill-formed line for each check -/

theorem test_wf_line : Line.wf ⟨.vdlNew, [.int 3, .int 1], none⟩ = true := by decide
theorem test_wf_too_few : Line.wf ⟨.vdlNew, [.int 3], none⟩ = false := by decide
theorem test_wf_too_many : Line.wf ⟨.fdlRead, [.int 3], none⟩ = false := by decide
theorem test_wf_wrong_type : Line.wf ⟨.fdlNew, [.dec false 30 (-1)], none⟩ = false := by decide
theorem test_wf_int_for_float : Line.wf ⟨.fdlTick, [.int 1], none⟩ = false := by decide
theorem test_wf_int_too_large : Line.wf ⟨.fdlNew, [.int (2 ^ 32)], none⟩ = false := by decide
theorem test_wf_osc_missing : Line.wf ⟨.mdeTick, [.dec false 10 (-1)], none⟩ = false := by decide
theorem test_wf_osc_extra : Line.wf ⟨.echoTick, [.dec false 10 (-1)], some (.bits 0)⟩ = false := by decide
theorem test_wf_osc_type : Line.wf ⟨.mdeTick, [.dec false 10 (-1)], some (.int 1)⟩ = false := by decide

/-! ### Arithmetic, from 95_test_vectors -/

/-- E6: 0.7 * 0.1 and the sum with 0.3 * 0.1, rounded once each: the second tick's result. -/
theorem test_fmul_fadd : fadd 0 (fmul 0 0x3E99999A 0x3DCCCCCD) (fmul 0 0x3F333333 0x3DCCCCCD) = 0x3DCCCCCD := by
  decide +kernel
/-- E9: the largest finite number doubled overflows to infinity. -/
theorem test_fadd_overflow : fadd 0 0x7F7FFFFF 0x7F7FFFFF = 0x7F800000 := by decide +kernel
/-- E4: -0 + +0 is +0, -0 + -0 is -0. -/
theorem test_fadd_zeros : fadd 0 0x80000000 0 = 0 ∧ fadd 0 0x80000000 0x80000000 = 0x80000000 := by decide +kernel
/-- E4: the smallest subnormal survives. -/
theorem test_fadd_subnormal : fadd 0 1 0x80000000 = 1 := by decide +kernel
/-- M4: 3 * (1 - 0x3EAAAAAB) is just below 2, and is truncated to 1. -/
theorem test_clampLen : fmul 0 (u2f 3) (fsub 0 ONE 0x3EAAAAAB) = 0x3FFFFFFF ∧ clampLen 0x3FFFFFFF 4 = 1 ∧
    clampLen 0x41000000 5 = 4 ∧ clampLen 0xC0800000 5 = 0 := by decide +kernel
/-- M5: u2f(65535). -/
theorem test_u2f : u2f 65535 = 0x477FFF00 := by decide +kernel
/-- E10: the boundaries of the two predicates. -/
theorem test_inUnit : inUnit 0x80000000 = true ∧ inUnit ONE = true ∧ inUnit 0x3F800001 = false ∧
    inUnit 0x7FC00000 = false ∧ inUnit 0x7F800000 = false := by decide +kernel
theorem test_mixOK : mixOK ONE 0x35800000 = true ∧ mixOK ONE 0x35800001 = false ∧ mixOK 0x3F7FFFF0 0 = true ∧
    mixOK 0x3F7FFFEF 0 = false ∧ mixOK 0x3DCCCCCD 0x3F666666 = true ∧ mixOK 0x3FC00000 0xBF000000 = false := by
  decide +kernel

/-! ### The fixed delay line -/

/-- R90's example, and STATUS after it. -/
theorem test_fdlNew : (nextOf (exec .fdlNew (ops 3 0 0 0 0 0))).map (fun t => (t.fdl, t.status)) =
    some (some { N := 3, buf := ⟨[]⟩, index := 0 }, 0x00000100) := by decide
/-- F4: one above CAP_MAX. -/
theorem test_fdlNew_cap : (nextOf (exec .fdlNew (ops 0x00010001 0 0 0 0 0))).map State.status = some 0x00000041 := by decide
/-- R91's example. -/
theorem test_fdlTick : (nextOf (exec .fdlTick (withA0 0x40800000 sF))).map (fun t => (t.r0, t.fdl)) =
    some (0x3F800000, some { N := 3, buf := ⟨[(0, 0x40800000), (1, 0x40000000), (2, 0x40400000)]⟩, index := 1 }) := by
  decide
/-- S2: the cursor wraps from N - 1 to 0. -/
theorem test_fdlTick_wraps :
    (nextOf (exec .fdlTick { State.reset with fdl := some { fdl3 with index := 2 } })).map
      (fun t => t.fdl.map FDLState.index) = some (some 0) := by decide
/-- F2: the read is the next tick's word. -/
theorem test_fdlRead : (nextOf (exec .fdlRead sF)).map (fun t => (t.r0, t.fdl)) = some (0x3F800000, some fdl3) := by decide
/-- F5: a read from reset. -/
theorem test_fdlRead_reset : (nextOf (exec .fdlRead State.reset)).map (fun t => (t.status, t.faultCmd)) =
    some (0x00000021, 0x12000000) := by decide

/-! ### The variable delay line -/

/-- R100's example. -/
theorem test_vdlNew : (nextOf (exec .vdlNew (ops 3 1 0 0 0 0))).map (fun t => (t.vdl, t.status)) =
    some (some { N := 3, buf := ⟨[]⟩, widx := 0, ridx := 2, offset := 1 }, 0x00000200) := by decide
/-- D4: capacity is checked before the offset. -/
theorem test_vdlNew_order : (nextOf (exec .vdlNew (ops 0 5 0 0 0 0))).map State.status = some 0x00000041 := by decide
/-- R101's example. -/
theorem test_vdlTick : (nextOf (exec .vdlTick (withA0 0x40000000 sV))).map (fun t => (t.r0, t.vdl)) =
    some (0x3F800000, some { N := 3, buf := ⟨[(0, 0x3F800000), (1, 0x40000000)]⟩, widx := 2, ridx := 0, offset := 1 }) := by
  decide
/-- S4: with offset 0 the read sees the write. -/
theorem test_vdlTick_passthrough :
    (nextOf (exec .vdlTick (withA0 0x40400000 { State.reset with vdl := some { vdl3 with offset := 0 } }))).map State.r0 =
      some 0x40400000 := by decide
/-- R102: the read uses ridx, not the present offset. -/
theorem test_vdlRead :
    (nextOf (exec .vdlRead { State.reset with vdl := some { vdl3 with ridx := 0, offset := 2 } })).map State.r0 =
      some 0x3F800000 := by decide
/-- R103's examples. -/
theorem test_vdlSetoff : (nextOf (exec .vdlSetoff (withA0 2 sV))).map (fun t => t.vdl) =
    some (some { vdl3 with offset := 2 }) := by decide
theorem test_vdlSetoff_fault : (nextOf (exec .vdlSetoff (withA0 3 sV))).map (fun t => (t.vdl, t.status)) =
    some (some vdl3, 0x00000251) := by decide

/-! ### The echo -/

/-- R115's example. -/
theorem test_echoNewf : (nextOf (exec .echoNewf (ops 2 HALF HALF HALF 0 0))).map (fun t => (t.echo, t.status)) =
    some (some { delay := .fixedLine { N := 2, buf := ⟨[]⟩, index := 0 }, feedback := HALF, dry := HALF, wet := HALF },
      0x00000400) := by decide +kernel
/-- E10: feedback is checked before the mix. -/
theorem test_echoNewf_order :
    (nextOf (exec .echoNewf (ops 4 0x3FC00000 0x3F333333 0x3F333333 0 0))).map State.status = some 0x00000061 := by
  decide +kernel
/-- R116's example. -/
theorem test_echoNewv : (nextOf (exec .echoNewv (ops 3 HALF HALF HALF 0 0))).map (fun t => (t.echo, t.status)) =
    some (some echoV, 0x00001400) := by decide +kernel
/-- R117's example: a fixed backing. -/
theorem test_echoTick : (nextOf (exec .echoTick sEF)).map (fun t => (t.r0, t.echo.map EchoState.delay)) =
    some (0x3F000000, some (.fixedLine { N := 2, buf := ⟨[(0, 0x3F000000)]⟩, index := 1 })) := by decide +kernel
/-- E2, fourth tick: a variable backing feeds back the slot of the old ridx. -/
theorem test_echoTick_variable :
    (nextOf (exec .echoTick { State.reset with echo := some { echoV with delay := .variableLine { N := 3, buf := ⟨[(0, 0x3F800000)]⟩, widx := 0, ridx := 0, offset := 2 } } })).map
      (fun t => (t.r0, t.echo.map EchoState.delay)) =
    some (0, some (.variableLine { N := 3, buf := ⟨[(0, 0x3F000000)]⟩, widx := 1, ridx := 1, offset := 2 })) := by
  decide +kernel
/-- R118's examples. -/
theorem test_echoSetdly : (nextOf (exec .echoSetdly (withA0 1 sEV))).map (fun t => t.echo.map EchoState.delay) =
    some (some (.variableLine { N := 3, buf := ⟨[]⟩, widx := 0, ridx := 1, offset := 1 })) := by decide
theorem test_echoSetdly_fixed : (nextOf (exec .echoSetdly (withA0 9 sEF))).map State.status = some 0x00000481 := by decide
/-- R119's examples. -/
theorem test_echoSetfb : (nextOf (exec .echoSetfb (withA0 0x3E800000 sEV))).map (fun t => t.echo.map EchoState.feedback) =
    some (some 0x3E800000) := by decide +kernel
theorem test_echoSetfb_fault : (nextOf (exec .echoSetfb (withA0 0x3FC00000 sEV))).map State.status = some 0x00001461 := by
  decide +kernel
/-- R120's example: 0.25, 0.75. -/
theorem test_echoSetmix :
    (nextOf (exec .echoSetmix { sEV with a := ⟨0x3E800000, 0x3F400000, 0, 0, 0, 0⟩ })).map
      (fun t => t.echo.map (fun e => (e.dry, e.wet))) = some (some (0x3E800000, 0x3F400000)) := by decide +kernel
/-- X3: a mix of 0.5 and 0.25. -/
theorem test_echoSetmix_fault :
    (nextOf (exec .echoSetmix { sEV with a := ⟨HALF, 0x3E800000, 0, 0, 0, 0⟩ })).map State.status = some 0x00001471 := by
  decide +kernel

/-! ### The modulated delay effect -/

/-- R135's example. -/
theorem test_mdeNew : (nextOf (exec .mdeNew (ops 4 HALF ONE 0 0 ONE))).map (fun t => (t.mde, t.status)) =
    some (some mde4, 0x00000800) := by decide +kernel
/-- M5: base 0xFFFFFFFF, computed without wrap-around. -/
theorem test_mdeNew_cap : (nextOf (exec .mdeNew (ops 0xFFFFFFFF ONE ONE 0 HALF HALF))).map State.status =
    some 0x00000041 := by decide +kernel
/-- R136's example. -/
theorem test_mdeTick : (nextOf (exec .mdeTick (withA0 ONE sM))).map (fun t => (t.r0, t.oscOut, t.mde.map fun m => m.echo.delay)) =
    some (0, [ONE], some (.variableLine { N := 5, buf := ⟨[(0, 0x3F800000)]⟩, widx := 1, ridx := 3, offset := 2 })) := by
  decide +kernel
/-- M6, fifth tick: length 0, the peek reads slot 0 before the write. -/
theorem test_mdeTick_peek :
    (nextOf (exec .mdeTick (withA0 0x41800000 { State.reset with oscIn := [ONE], mde := some { base := 3, lfoIndex := ONE, depth := HALF, echo := { delay := .variableLine { N := 4, buf := ⟨[(0, 0x3F800000), (1, 0x40000000), (2, 0x40800000), (3, 0x41000000)]⟩, widx := 0, ridx := 0, offset := 3 }, feedback := HALF, dry := HALF, wet := HALF } } }))).map
      State.r0 = some 0x41020000 := by decide +kernel

/-! ### The host's side -/

/-- X2: while faulted even an illegal word is ignored. -/
theorem test_faulted_ignores : (nextOf (step (sFaulted.withFetchWord 32 0))).map (fun t => (t.status, t.faultCmd)) =
    some (0x00000051, 0x20000000) := by decide
/-- 95_test_vectors 2.1: an illegal word from reset. -/
theorem test_illegal_word : (nextOf (step (State.reset.withFetchWord 32 0x13000000))).map (fun t => (t.status, t.faultCmd)) =
    some (0x00000011, 0x13000000) := by decide
/-- P1: the host writes A0 as register 8 and reads STATUS as register 1. -/
theorem test_write_A0 : (nextOf (step { State.reset with host := [.write 8 3] })).map (fun t => t.a.a0) = some 3 := by decide
theorem test_read_status : (nextOf (step { sF with host := [.read 1] })).map State.reads = some [.word 0x00000100] := by
  decide
/-- R52: little-endian. -/
theorem test_bytes : wordOfBytes [0x78, 0x56, 0x34, 0x12] = 0x12345678 ∧ bytesOfWord 0x12345678 = [0x78, 0x56, 0x34, 0x12] := by
  decide
/-- R77's example line with an oscillator answer. -/
theorem test_line :
    (readLine ['M', 'D', 'E', '.', 'T', 'I', 'C', 'K', ' ', '1', '.', '0', ' ', ';', ' ', 'o', 's', 'c', ' ', '=', ' ', '-',
      '1', '.', '0']).map (fun l => (lineActions l, l.osc.map literalWord)) =
    some ([.write 8 0x3F800000, .write 0 0x41000000], some 0xBF800000) := by decide +kernel
/-- The pattern table of 95_test_vectors: 0.1, 0.7 and 3.0e38 to the nearest binary32. -/
theorem test_decimal : decimalWord false 1 (-1) = 0x3DCCCCCD ∧ decimalWord false 7 (-1) = 0x3F333333 ∧
    decimalWord false 30 37 = 0x7F61B1E6 := by decide +kernel

/-! ### Witnesses: states that meet the hypotheses of the statements -/

theorem witness_StepRunsDecodedCommand :
    (State.reset.withFetchWord 32 0x10000000).host = .write 0 0x10000000 :: [] ∧ decode 0x10000000 = .ok .fdlNew := by decide
theorem witness_StepWaitsForHost : State.reset.host = [] := rfl
theorem witness_IllegalWordFaults : (State.reset.withFetchWord 32 0).host = .write 0 0 :: [] ∧ State.reset.fault = none ∧
    ∀ i : Instr, (0 : Word) ≠ encode i := ⟨rfl, rfl, by intro i; cases i <;> decide⟩
theorem witness_HostWritesRegister : ∀ k ∈ [7, 8, 9, 10, 11, 12, 13, 14],
    { State.reset with host := [HostAction.write k 5] }.host = .write k 5 :: [] ∧ (k ≠ 0 ∧ (k < 8 ∨ 13 < k) ∨ 8 ≤ k ∧ k ≤ 13) := by
  decide
theorem witness_HostReadsRegister : { sF with host := [HostAction.read 1] }.host = .read 1 :: [] := rfl
theorem witness_BusAccessIsWholeWords_width : Config.regBase ≤ Config.regBase ∧ ([0, 0] : List Byte).length ≠ 4 :=
  ⟨Nat.le_refl _, by decide⟩
theorem witness_BusAccessIsWholeWords_alignment : Config.regBase ≤ Config.regBase + 1 ∧
    ([0, 0, 0, 0] : List Byte).length = 4 ∧ (Config.regBase + 1 - Config.regBase) % 4 ≠ 0 := by
  refine ⟨by omega, rfl, by omega⟩
theorem witness_ResetPinClearsEverything : { sFaulted with host := [HostAction.reset] }.host = .reset :: [] := rfl
theorem witness_FaultedIgnoresCommands : sFaulted.fault = some ⟨.badOffset, 0x20000000⟩ ∧
    (sFaulted.withFetchWord 32 0x11000000).host = .write 0 0x11000000 :: [] ∧
    { sFaulted with host := [HostAction.write 13 7] }.host = .write (8 + (5 : Fin 6).val) 7 :: [] ∧
    { sFaulted with host := [HostAction.read 13] }.host = .read 13 :: [] := by decide
theorem witness_FaultIsPermanentUntilReset : sFaulted.fault = some ⟨.badOffset, 0x20000000⟩ ∧
    (sFaulted.withFetchWord 32 0x11000000).host.head? ≠ some .reset ∧
    step (sFaulted.withFetchWord 32 0x11000000) = .next sFaulted := ⟨rfl, by decide, rfl⟩
theorem witness_FaultEntryIsPrecise : State.reset.fault = none ∧
    exec .fdlTick State.reset = .next { State.reset with fault := some ⟨.notConstructed, 0x11000000⟩ } := ⟨rfl, rfl⟩
theorem witness_FirstFailingCheckIsReported : sV.fault = none ∧ sV.Inv ∧
    (sV.withFetchWord 32 0x23000000).host = .write 0 0x23000000 :: [] ∧ 0x23000000 = encode .vdlSetoff ∧
    (withA0 3 sV).firstFailing .vdlSetoff = some .badOffset ∧ (withA0 2 sV).firstFailing .vdlSetoff = none := by decide
/-- Each check of the list is the first to fail somewhere. -/
theorem witness_firstFailing : State.reset.firstFailing .mdeTick = some .notConstructed ∧
    sV.firstFailing .vdlNew = some .alreadyConstructed ∧ sEF.firstFailing .echoSetdly = some .delayNotResizable ∧
    State.reset.firstFailing .vdlNew = some .badCapacity ∧
    (ops 1 0x3F800001 0 0 0 0).firstFailing .echoNewf = some .badFeedback ∧
    (ops 0x0000FFFF 0 0 ONE HALF 0).firstFailing .mdeNew = some .badMix := by decide +kernel
theorem witness_FdlNewConstructs_faults : sF.fdl ≠ none ∧ (ops 0 0 0 0 0 0).a.a0.toNat = 0 ∧
    Config.capMax < (ops 0x00010001 0 0 0 0 0).a.a0.toNat := by decide
theorem witness_VdlNewConstructs_faults : sV.vdl ≠ none ∧ State.reset.vdl = none ∧ (ops 0 0 0 0 0 0).a.a0.toNat = 0 ∧
    1 ≤ (ops 3 3 0 0 0 0).a.a0.toNat ∧ (ops 3 3 0 0 0 0).a.a0.toNat ≤ Config.capMax ∧
    (ops 3 3 0 0 0 0).a.a0.toNat ≤ (ops 3 3 0 0 0 0).a.a1.toNat := by decide
theorem witness_setters_fault : sV.fault = none ∧ sV.vdl = some vdl3 ∧ vdl3.N ≤ (withA0 3 sV).a.a0.toNat ∧
    sEF.echo = some echoF ∧ echoF.delay = .fixedLine { N := 2, buf := ⟨[(0, 0x3F800000)]⟩, index := 0 } ∧
    sEV.echo = some echoV ∧ echoV.delay = .variableLine { N := 3, buf := ⟨[]⟩, widx := 0, ridx := 1, offset := 2 } ∧
    3 ≤ (withA0 3 sEV).a.a0.toNat ∧ sEV.echo ≠ none ∧ inUnit 0x3F800001 = false ∧ mixOK ONE 0x35800001 = false := by
  decide +kernel
theorem witness_EchoNewfConstructs_faults : State.reset.fault = none ∧ State.reset.echo = none ∧
    Config.capMax < (ops 0x00010001 0 0 0 0 0).a.a0.toNat ∧ 1 ≤ (ops 0x00010000 0 0 0 0 0).a.a0.toNat ∧
    (ops 0x00010000 0 0 0 0 0).a.a0.toNat ≤ Config.capMax ∧ inUnit 0x3F800001 = false ∧ inUnit ONE = true ∧
    mixOK ONE 0x35800001 = false := by decide +kernel
theorem witness_MdeNewConstructs_faults : State.reset.mde = none ∧
    Config.capMax < (ops 0x00010000 0 0 0 0 0).a.a0.toNat + 1 ∧ (ops 0x0000FFFF 0 0 0 0 0).a.a0.toNat + 1 ≤ Config.capMax ∧
    inUnit 0x3F800001 = false ∧ inUnit 0x80000000 = true ∧ mixOK 0x3F7FFFEF 0 = false := by decide +kernel
theorem witness_FdlNewConstructs : State.reset.fault = none ∧ State.reset.fdl = none ∧
    1 ≤ (ops 1 0 0 0 0 0).a.a0.toNat ∧ (ops 0x00010000 0 0 0 0 0).a.a0.toNat ≤ Config.capMax := by decide
theorem witness_FdlTickReadsThenWrites : sF.fault = none ∧ sF.fdl = some fdl3 ∧ fdl3.Inv := by decide
theorem witness_FdlReadPeeks : sF.fault = none ∧ sF.fdl = some fdl3 ∧ fdl3.index < fdl3.N := by decide
theorem witness_FdlReadLooksForward : sF.fault = none ∧ sF.fdl ≠ none ∧
    exec .fdlRead sF = .next { sF with r0 := 0x3F800000 } := ⟨rfl, by decide, rfl⟩
theorem witness_FdlDelayLaw : (ops 3 0 0 0 0 0).Inv ∧ (ops 3 0 0 0 0 0).fault = none ∧ (ops 3 0 0 0 0 0).fdl = none ∧
    exec .fdlNew (ops 3 0 0 0 0 0) = .next { ops 3 0 0 0 0 0 with fdl := some (FDLState.new 3) } :=
  ⟨by decide, rfl, rfl, rfl⟩
theorem witness_VdlNewConstructs : State.reset.vdl = none ∧ 1 ≤ (ops 0x00010000 0x0000FFFF 0 0 0 0).a.a0.toNat ∧
    (ops 0x00010000 0x0000FFFF 0 0 0 0).a.a0.toNat ≤ Config.capMax ∧
    (ops 0x00010000 0x0000FFFF 0 0 0 0).a.a1.toNat < (ops 0x00010000 0x0000FFFF 0 0 0 0).a.a0.toNat := by decide
theorem witness_VdlTickWritesThenReads : sV.fault = none ∧ sV.vdl = some vdl3 ∧ vdl3.Inv := by decide
theorem witness_VdlReadPeeks : sV.fault = none ∧ sV.vdl = some vdl3 ∧ vdl3.ridx < vdl3.N := by decide
theorem witness_ReadIndexBetweenCommands : sV.vdl = some vdl3 ∧ vdl3.Inv ∧
    (nextOf (exec .vdlTick sV)).map (fun t => (t.fault, t.vdl.isSome)) = some (none, true) ∧
    (nextOf (exec .vdlSetoff sV)).map (fun t => t.vdl.isSome) = some true := by decide
theorem witness_VdlReadLooksBack : sV.fault = none ∧ sV.vdl ≠ none ∧
    ((nextOf (exec .vdlTick sV)).bind fun t =>
      (nextOf (exec .vdlSetoff { t with a := { t.a with a0 := 2 } })).map State.fault) = some none := by decide
theorem witness_VdlSetoffRetunes : sV.vdl = some vdl3 ∧ (withA0 2 sV).a.a0.toNat < vdl3.N := by decide
theorem witness_VdlDelayLaw : (ops 3 1 0 0 0 0).Inv ∧ (ops 3 1 0 0 0 0).fault = none ∧ (ops 3 1 0 0 0 0).vdl = none ∧
    exec .vdlNew (ops 3 1 0 0 0 0) = .next { ops 3 1 0 0 0 0 with vdl := some (VDLState.new 3 1) } :=
  ⟨by decide, rfl, rfl, rfl⟩
/-- R105: an offset that grows by one repeats the previous result. -/
theorem test_history : ((history [(.vdlTick, ⟨1, 0, 0, 0, 0, 0⟩), (.vdlTick, ⟨2, 0, 0, 0, 0, 0⟩), (.vdlSetoff, ⟨2, 0, 0, 0, 0, 0⟩),
    (.vdlTick, ⟨3, 0, 0, 0, 0, 0⟩)] { State.reset with vdl := some (VDLState.new 3 1) }).map fun p =>
      ((ticksOf .vdlTick p.1).map fun r => (r.post.r0, r.pre.vdl.map VDLState.offset), samples (ticksOf .vdlTick p.1))) =
    some ([(0, some 1), (1, some 1), (1, some 2)], [1, 2, 3]) := by decide
theorem witness_EchoNewfConstructs : State.reset.echo = none ∧ 1 ≤ (ops 1 0 ONE 0 0 0).a.a0.toNat ∧
    (ops 1 0 ONE 0 0 0).a.a0.toNat ≤ Config.capMax ∧ inUnit (ops 1 0 ONE 0 0 0).a.a1 = true ∧
    mixOK (ops 1 0 ONE 0 0 0).a.a2 (ops 1 0 ONE 0 0 0).a.a3 = true := by decide +kernel
theorem witness_EchoNewvConstructs : State.reset.fault = none ∧ 1 ≤ (ops 0x00010000 ONE 0 ONE 0 0).a.a0.toNat ∧
    (ops 0x00010000 ONE 0 ONE 0 0).a.a0.toNat ≤ Config.capMax ∧ inUnit (ops 0x00010000 ONE 0 ONE 0 0).a.a1 = true ∧
    mixOK (ops 0x00010000 ONE 0 ONE 0 0).a.a2 (ops 0x00010000 ONE 0 ONE 0 0).a.a3 = true := by decide +kernel
theorem witness_EchoTickFeedsBackAndMixes_fixed : sEF.fault = none ∧ sEF.echo = some echoF ∧
    echoF.delay = .fixedLine { N := 2, buf := ⟨[(0, 0x3F800000)]⟩, index := 0 } ∧
    FDLState.Inv { N := 2, buf := ⟨[(0, 0x3F800000)]⟩, index := 0 } := by decide
theorem witness_EchoTickFeedsBackAndMixes_variable : sEV.fault = none ∧ sEV.echo = some echoV ∧
    echoV.delay = .variableLine { N := 3, buf := ⟨[]⟩, widx := 0, ridx := 1, offset := 2 } ∧
    VDLState.Inv { N := 3, buf := ⟨[]⟩, widx := 0, ridx := 1, offset := 2 } := by decide
theorem witness_EchoSetdlyRetunes : sEV.echo = some echoV ∧
    echoV.delay = .variableLine { N := 3, buf := ⟨[]⟩, widx := 0, ridx := 1, offset := 2 } ∧
    (withA0 2 sEV).a.a0.toNat < 3 := by decide
theorem witness_EchoCoefficientSetters : sEV.fault = none ∧ sEV.echo = some echoV ∧ inUnit ONE = true ∧
    mixOK 0x3E800000 0x3F400000 = true := by decide +kernel
theorem witness_EchoFixedRecurrence : (ops 2 HALF HALF HALF 0 0).Inv ∧ (ops 2 HALF HALF HALF 0 0).echo = none ∧
    (nextOf (exec .echoNewf (ops 2 HALF HALF HALF 0 0))).map State.fault = some none := by decide +kernel
theorem witness_EchoVariableRecurrence : (ops 3 HALF HALF HALF 0 0).Inv ∧ (ops 3 HALF HALF HALF 0 0).echo = none ∧
    (nextOf (exec .echoNewv (ops 3 HALF HALF HALF 0 0))).map State.fault = some none := by decide +kernel
/-- A buffer that holds one finite word and zeros. -/
theorem witness_EchoIdentitySetting :
    EchoState.Inv { echoF with feedback := 0, dry := ONE, wet := 0x80000000 } ∧ fMag 0x80000000 = 0 ∧ isFinite ONE = true ∧
      ∀ j, isFinite (echoF.delay.buf.get j) = true := by
  refine ⟨by decide +kernel, by decide, by decide, fun j => ?_⟩
  by_cases hj : j = 0
  · subst hj; decide
  · have h : echoF.delay.buf.get j = 0 := by
      simp [echoF, Memory.get, cellsGet, hj, Memory.unlisted]
    rw [h]; decide
theorem witness_MdeNewConstructs : State.reset.mde = none ∧ (ops 0x0000FFFF 0 0 0 HALF HALF).a.a0.toNat + 1 ≤ Config.capMax ∧
    inUnit (ops 0x0000FFFF 0 0 0 HALF HALF).a.a3 = true ∧
    mixOK (ops 0x0000FFFF 0 0 0 HALF HALF).a.a4 (ops 0x0000FFFF 0 0 0 HALF HALF).a.a5 = true := by decide +kernel
theorem witness_MdeTickModulates : sM.fault = none ∧ sM.mde = some mde4 ∧ mde4.Inv ∧
    mde4.echo.delay = .variableLine { N := 5, buf := ⟨[]⟩, widx := 0, ridx := 1, offset := 4 } := by decide +kernel
theorem witness_OneOscillatorExchangePerTick : (nextOf (exec .mdeTick sM)).map State.fault = some none ∧
    (nextOf (exec .fdlTick sF)).map State.fault = some none := by decide +kernel
theorem witness_MdeDegenerateModulation :
    MDEState.Inv { mde4 with lfoIndex := 0x80000000 } ∧ fMag 0x80000000 = 0 ∧ sM.oscIn = 0x3F800000 :: [] ∧
    isFinite 0x3F800000 = true ∧ isFinite 0x7F800000 = false ∧
    (nextOf (exec .mdeTick { sM with mde := some { mde4 with lfoIndex := 0x80000000 } })).map
      (fun t => t.mde.map fun m => m.echo.delay.isVariable) = some (some true) := by decide +kernel
theorem witness_MdeRecurrence : (ops 4 HALF ONE 0 0 ONE).Inv ∧ (ops 4 HALF ONE 0 0 ONE).mde = none ∧
    (nextOf (exec .mdeNew (ops 4 HALF ONE 0 0 ONE))).map State.fault = some none := by decide +kernel
theorem witness_SumCorrectlyRounded : isFinite 0x3DCCCCCD = true ∧ isFinite (fadd 0 ONE 0x3DCCCCCD) = true := by
  decide +kernel
theorem witness_ProductCorrectlyRounded : isFinite 0x3DCCCCCD = true ∧ isFinite (fmul 0 0x3F333333 0x3DCCCCCD) = true := by
  decide +kernel
theorem witness_OverflowThreshold : isFinite 0x7F7FFFFF = true ∧ isFinite ONE = true ∧
    (2 ^ 25 - 1) * 2 ^ 252 ≤ (scaled 0x7F7FFFFF + scaled 0x7F7FFFFF).natAbs := by decide +kernel
theorem witness_ClampTruncatesThenClamps : 1 ≤ Config.capMax ∧ isFinite 0x40200000 = true ∧ isNaN 0x7FC00000 = true ∧
    isInf 0x7F800000 = true ∧ isInf 0xFF800000 = true := by decide
theorem witness_StepKeepsInvariant : sM.Inv ∧ sEF.Inv ∧ sV.Inv ∧ sF.Inv ∧
    step { sF with host := [.read 1] } = .next { sF with reads := [.word 0x00000100] } :=
  ⟨by decide +kernel, by decide +kernel, by decide, by decide, rfl⟩
theorem witness_TicksAndReadsNeverFault : Instr.echoTick.writesR0 = true ∧ sEV.fault = none ∧
    sEV.constructed Instr.echoTick.unit = true ∧ sEV.Inv := by decide +kernel
theorem witness_CommandFrame : (nextOf (exec .fdlTick sF)).isSome = true ∧ Instr.vdlSetoff.writesR0 = false ∧
    Instr.fdlTick.unit ≠ .vdl := by decide
theorem witness_OnlyNewConstructs : State.reset.constructed .fdl = false ∧
    (nextOf (exec .fdlNew (ops 3 0 0 0 0 0))).map (fun t => t.constructed .fdl) = some true := by decide
theorem witness_BufferFrame : (nextOf (exec .fdlTick sF)).isSome = true ∧ sF.buffer .fdl = some fdl3.buf ∧
    sF.writeCursor .fdl = some 0 := by decide
theorem witness_OnlyNamedOperandsAreRead :
    ∀ k : Fin 6, k.val < Instr.fdlTick.operands.length → (OperandRegs.mk 0 1 2 3 4 5).get k = (ops 0 0 0 0 0 0).a.get k := by
  decide
theorem witness_LifetimeUntilReset : { sM with host := [HostAction.read 3] }.host.head? ≠ some .reset ∧
    (nextOf (step { sM with host := [.read 3] })).isSome = true ∧ sM.capacity .mde = some 5 := by decide
theorem witness_TransactionAnswers : State.reset.host = [] ∧
    exec .fdlTick { State.reset with a := ⟨1, 2, 3, 4, 5, 6⟩ } =
      .next { State.reset with a := ⟨1, 2, 3, 4, 5, 6⟩, fault := some ⟨.notConstructed, 0x11000000⟩ } := ⟨rfl, rfl⟩
theorem witness_LineRunsItsCommand : Line.wf ⟨.mdeTick, [.bits 0x3F800000], some (.bits 0)⟩ = true ∧ State.reset.host = [] := by
  decide

end Sys2Proof.Tests
end

section
/-! PROOFS. The statements about the arithmetic (R12 to R14), about fault entry (R153), about a transaction over the registers
(R16, R30, R70) and about a modulation of depth zero (R138). -/

namespace Sys2Proof.Machine

/-! ### Rounding to nearest, ties to even (R12) -/

/-- The pattern `roundMag` computes before it caps it at infinity, as if exponents were unbounded. -/
def roundPattern (x : Nat) : Nat := rneShift x (roundShift x) + (roundShift x - 149) * 2 ^ 23

theorem roundMag_eq_min (x : Nat) : roundMag x = min infMag (roundPattern x) := by
  unfold roundMag; rfl

/-- A significand `q` with exponent `j`; `q = 2^24` is the carry into the next exponent. -/
theorem magValue_significand {q j : Nat} (hq : q ≤ 2 ^ 24) (hj : j = 0 ∨ 2 ^ 23 ≤ q) :
    magValue (q + j * 2 ^ 23) = q * 2 ^ j := by
  unfold magValue
  rcases Nat.lt_or_ge q (2 ^ 23) with h | h
  · obtain rfl : j = 0 := by omega
    rw [Nat.zero_mul, Nat.add_zero, if_pos (Nat.div_eq_of_lt h), pow_zero, Nat.mul_one]
  rcases Nat.lt_or_ge q (2 ^ 24) with h' | h'
  · rw [show (q + j * 2 ^ 23) / 2 ^ 23 = j + 1 by omega, show (q + j * 2 ^ 23) % 2 ^ 23 = q - 2 ^ 23 by omega,
      if_neg (by omega), Nat.add_sub_cancel, Nat.add_sub_cancel' h]
  · obtain rfl : q = 2 ^ 24 := by omega
    rw [show (2 ^ 24 + j * 2 ^ 23) / 2 ^ 23 = j + 2 by omega, show (2 ^ 24 + j * 2 ^ 23) % 2 ^ 23 = 0 by omega,
      if_neg (by omega), show j + 2 - 1 = j + 1 by omega]
    ring

/-- The significand `roundShift` leaves has at most 24 bits, and exactly 24 unless the result is subnormal. -/
theorem roundShift_spec (x : Nat) :
    149 ≤ roundShift x ∧ x / 2 ^ roundShift x < 2 ^ 24 ∧ (roundShift x = 149 ∨ 2 ^ 23 ≤ x / 2 ^ roundShift x) := by
  have hk : 149 ≤ roundShift x := Nat.le_max_left _ _
  refine ⟨hk, ?_, ?_⟩
  · rw [Nat.div_lt_iff_lt_mul (by positivity), ← pow_add]
    exact Nat.lt_log2_self.trans_le (Nat.pow_le_pow_right (by norm_num) (by unfold roundShift; omega))
  · by_cases h : roundShift x = 149
    · exact .inl h
    have hl : 23 + roundShift x = Nat.log2 x := by unfold roundShift at h ⊢; omega
    have hx : x ≠ 0 := by rintro rfl; simp at hl
    right
    rw [Nat.le_div_iff_mul_le (by positivity), ← pow_add, hl]
    exact Nat.log2_self_le hx

/-- Rounding a quotient goes down or up: down only up to half a unit, up only from half a unit on, and at exactly half a
unit to the even one. -/
theorem rneShift_cases (x : Nat) {k : Nat} (hk : 1 ≤ k) :
    (rneShift x k = x / 2 ^ k ∧ 2 * (x % 2 ^ k) ≤ 2 ^ k ∧ (2 * (x % 2 ^ k) = 2 ^ k → rneShift x k % 2 = 0)) ∨
    (rneShift x k = x / 2 ^ k + 1 ∧ 2 ^ k ≤ 2 * (x % 2 ^ k) ∧ (2 * (x % 2 ^ k) = 2 ^ k → rneShift x k % 2 = 0)) := by
  have hp : 2 ^ k = 2 * 2 ^ (k - 1) := by rw [← pow_succ', Nat.sub_add_cancel hk]
  unfold rneShift
  dsimp only
  split <;> omega

/-- Where `x` lies among the magnitudes, in units of 2^-298: between two neighbours, of which `roundPattern` takes the
nearer, the even one at the midpoint. -/
theorem roundPattern_between (x : Nat) : ∃ p, magValue p * 2 ^ 149 ≤ x ∧ x < magValue (p + 1) * 2 ^ 149 ∧
    (roundPattern x = p ∧ 2 * x ≤ (magValue p + magValue (p + 1)) * 2 ^ 149 ∨
      roundPattern x = p + 1 ∧ (magValue p + magValue (p + 1)) * 2 ^ 149 ≤ 2 * x) ∧
    (2 * x = (magValue p + magValue (p + 1)) * 2 ^ 149 → roundPattern x % 2 = 0) := by
  obtain ⟨hk, hq, hn⟩ := roundShift_spec x
  have hr := rneShift_cases x (k := roundShift x) (by omega)
  unfold roundPattern
  generalize roundShift x = k at *
  have hj : k - 149 = 0 ∨ 2 ^ 23 ≤ x / 2 ^ k := by omega
  have hlo := magValue_significand hq.le hj
  have hhi := magValue_significand (Nat.succ_le_of_lt hq) (j := k - 149) (by omega)
  have hpow : 2 ^ k = 2 ^ (k - 149) * 2 ^ 149 := by rw [← pow_add, Nat.sub_add_cancel hk]
  have hlo' : magValue (x / 2 ^ k + (k - 149) * 2 ^ 23) * 2 ^ 149 = 2 ^ k * (x / 2 ^ k) := by
    rw [hlo, mul_assoc, ← hpow, mul_comm]
  have hhi' : magValue (x / 2 ^ k + (k - 149) * 2 ^ 23 + 1) * 2 ^ 149 = 2 ^ k * (x / 2 ^ k) + 2 ^ k := by
    rw [Nat.add_right_comm, hhi, mul_assoc, ← hpow, Nat.succ_mul, mul_comm]
  have hx := Nat.div_add_mod x (2 ^ k)
  have hm : x % 2 ^ k < 2 ^ k := Nat.mod_lt _ (by positivity)
  refine ⟨x / 2 ^ k + (k - 149) * 2 ^ 23, ?_⟩
  rw [Nat.add_mul, hlo', hhi']
  clear hlo hhi hlo' hhi' hpow hk hn hq hj
  generalize x / 2 ^ k = q at *
  generalize 2 ^ k = u at *
  generalize u * q = w at *
  omega

/-- The distance of the magnitude `n` denotes from `x`, in units of 2^-298. -/
def magDist (x n : Nat) : Nat := (((magValue n * 2 ^ 149 : Nat) : Int) - x).natAbs

/-- No magnitude is nearer to `x` than that of `roundPattern x`, and one as near leaves an even pattern. -/
theorem roundPattern_nearest (x n : Nat) : magDist x (roundPattern x) ≤ magDist x n ∧
    (magDist x (roundPattern x) = magDist x n → n ≠ roundPattern x → roundPattern x % 2 = 0) := by
  obtain ⟨p, hlo, hhi, hp, heven⟩ := roundPattern_between x
  unfold magDist
  have hn : n = p ∨ n = p + 1 ∨ magValue n < magValue p ∨ magValue (p + 1) < magValue n := by
    simp only [magValue_strictMono.lt_iff_lt]; omega
  have hc : (0 : Nat) < 2 ^ 149 := by positivity
  generalize (2 : Nat) ^ 149 = c at *
  have hn' : n = p ∨ n = p + 1 ∨ magValue n * c < magValue p * c ∨ magValue (p + 1) * c < magValue n * c := by
    simpa only [Nat.mul_lt_mul_right hc] using hn
  rw [Nat.add_mul] at hp heven
  rcases hp with ⟨hp, hle⟩ | ⟨hp, hle⟩ <;> rw [hp] at heven ⊢ <;> rcases hn' with rfl | rfl | h | h <;> omega

/-- A magnitude rounds to its own pattern. -/
theorem roundPattern_magValue (n : Nat) : roundPattern (magValue n * 2 ^ 149) = n := by
  have h := (roundPattern_nearest (magValue n * 2 ^ 149) n).1
  unfold magDist at h
  rw [sub_self, Int.natAbs_zero, Nat.le_zero, Int.natAbs_eq_zero, sub_eq_zero, Int.ofNat_inj] at h
  exact magValue_strictMono.injective (Nat.eq_of_mul_eq_mul_right (by positivity) h)

theorem roundMag_magValue {n : Nat} (h : n ≤ infMag) : roundMag (magValue n * 2 ^ 149) = n := by
  rw [roundMag_eq_min, roundPattern_magValue, Nat.min_eq_right h]

/-- The magnitudes on the two sides of the overflow threshold, in units of 2^-149. -/
theorem magValue_infMag : magValue infMag = 2 ^ 24 * 2 ^ 253 := by
  rw [show infMag = 2 ^ 23 + 254 * 2 ^ 23 by norm_num [infMag], magValue_significand (by norm_num) (by norm_num)]
  norm_num

theorem magValue_maxFinite : magValue (infMag - 1) = (2 ^ 24 - 1) * 2 ^ 253 := by
  rw [show infMag - 1 = (2 ^ 24 - 1) + 253 * 2 ^ 23 by norm_num [infMag],
    magValue_significand (by norm_num) (by norm_num)]

/-- The overflow threshold (IEEE 754): the midpoint between the largest finite number and the next. -/
theorem roundMag_eq_infMag_iff (x : Nat) : roundMag x = infMag ↔ (2 ^ 25 - 1) * 2 ^ 252 * 2 ^ 149 ≤ x := by
  obtain ⟨p, hlo, hhi, hp, heven⟩ := roundPattern_between x
  have hinf : infMag = 2139095040 := by norm_num [infMag]
  have hmid : 2 * ((2 ^ 25 - 1) * 2 ^ 252) = magValue (infMag - 1) + magValue infMag := by
    rw [magValue_infMag, magValue_maxFinite]; norm_num
  have hmono := magValue_strictMono.monotone
  have hlt : magValue (infMag - 1) < magValue infMag := magValue_strictMono (by omega)
  have hc : (0 : Nat) < 2 ^ 149 := by positivity
  rw [roundMag_eq_min, min_eq_left_iff]
  obtain ⟨thr, hthr⟩ : ∃ t, t = (2 ^ 25 - 1) * 2 ^ 252 := ⟨_, rfl⟩
  rw [← hthr] at hmid ⊢
  clear hthr
  generalize (2 : Nat) ^ 149 = c at *
  have hlt' := Nat.mul_lt_mul_of_pos_right hlt hc
  have hmid' : 2 * (thr * c) = magValue (infMag - 1) * c + magValue infMag * c := by rw [← mul_assoc, hmid, add_mul]
  rw [add_mul] at hp heven
  rcases lt_trichotomy p (infMag - 1) with h | rfl | h
  · have := Nat.mul_le_mul_right c (hmono (show p + 1 ≤ infMag - 1 by omega))
    omega
  · rw [Nat.sub_add_cancel (by omega)] at hp heven
    omega
  · have := Nat.mul_le_mul_right c (hmono (show infMag ≤ p by omega))
    omega

/-! ### The number a rounded word denotes -/

/-- The integer with sign `neg` and magnitude `x`. -/
def signed (neg : Bool) (x : Nat) : Int := if neg then -x else x

theorem scaled_eq_signed (v : Word) : scaled v = signed (fSign v) (magValue (fMag v)) := rfl

theorem signed_natAbs (z : Int) : signed (decide (z < 0)) z.natAbs = z := by
  unfold signed
  by_cases h : z < 0
  · rw [decide_eq_true h, if_pos rfl, Int.ofNat_natAbs_of_nonpos h.le, neg_neg]
  · rw [decide_eq_false h, if_neg Bool.false_ne_true, Int.natAbs_of_nonneg (not_lt.mp h)]

theorem natAbs_signed (neg : Bool) (x : Nat) : (signed neg x).natAbs = x := by
  cases neg <;> simp [signed]

theorem signed_mul (a b : Bool) (x y : Nat) : signed a x * signed b y = signed (a != b) (x * y) := by
  cases a <;> cases b <;> simp [signed]

theorem signed_mul_nat (neg : Bool) (x c : Nat) : signed neg x * c = signed neg (x * c) := by
  cases neg <;> simp [signed]

/-- With equal signs the distance of two numbers is that of their magnitudes. -/
theorem natAbs_signed_sub_same (neg : Bool) (x y : Nat) :
    (signed neg x - signed neg y).natAbs = ((x : Int) - y).natAbs := by
  cases neg with
  | false => rfl
  | true => simp only [signed, if_true]; omega

/-- With different signs it is the sum of their magnitudes. -/
theorem natAbs_signed_sub_not (neg : Bool) (x y : Nat) : (signed (!neg) x - signed neg y).natAbs = x + y := by
  cases neg <;> (simp only [signed, Bool.not_true, Bool.not_false, if_true, Bool.false_eq_true, if_false]; omega)

/-- The distance of the number `v` denotes from the one with sign `neg` and magnitude `x`, in units of 2^-298. -/
theorem natAbs_scaled_sub (neg : Bool) (x : Nat) (v : Word) :
    (scaled v * 2 ^ 149 - signed neg x).natAbs =
      if fSign v = neg then magDist x (fMag v) else magValue (fMag v) * 2 ^ 149 + x := by
  rw [scaled_eq_signed, show (2 : Int) ^ 149 = ((2 ^ 149 : Nat) : Int) from (Nat.cast_pow 2 149).symm, signed_mul_nat]
  split
  · rename_i h
    rw [h, natAbs_signed_sub_same, magDist]
  · rename_i h
    rw [Bool.eq_not_of_ne h, natAbs_signed_sub_not]

theorem magDist_zero (x : Nat) : magDist x 0 = x := by simp [magDist, magValue]

/-- A word with the sign of an exact value and its rounded magnitude is a nearest one, and the even one of two. -/
theorem pack_roundMag_nearest {neg : Bool} {x : Nat} {r : Word} (hr : r = pack neg (roundMag x))
    (hfin : isFinite r = true) (v : Word) :
    (scaled r * 2 ^ 149 - signed neg x).natAbs ≤ (scaled v * 2 ^ 149 - signed neg x).natAbs ∧
    ((scaled r * 2 ^ 149 - signed neg x).natAbs = (scaled v * 2 ^ 149 - signed neg x).natAbs →
      scaled v ≠ scaled r → fMag r % 2 = 0) := by
  have hs : fSign r = neg := by rw [hr, fSign_pack neg (roundMag_lt x)]
  have hm : fMag r = roundPattern x := by
    have hm : fMag r = min infMag (roundPattern x) := by rw [hr, fMag_pack neg (roundMag_lt x), roundMag_eq_min]
    have hlt : fMag r < infMag := by simpa only [isFinite, decide_eq_true_eq] using hfin
    omega
  rw [natAbs_scaled_sub, natAbs_scaled_sub, if_pos hs, hm]
  split
  · rename_i hv
    refine ⟨(roundPattern_nearest x _).1, fun hd hne => (roundPattern_nearest x _).2 hd ?_⟩
    rintro h
    exact hne (by rw [scaled_eq_signed, scaled_eq_signed, hs, hv, h, hm])
  · obtain ⟨hle, heven⟩ := roundPattern_nearest x 0
    rw [magDist_zero] at hle heven
    refine ⟨by omega, fun hd hne => ?_⟩
    have hz : magValue (fMag v) = 0 := by
      have hp : 0 < 2 ^ 149 := by positivity
      exact (Nat.mul_eq_zero.mp (by omega : magValue (fMag v) * 2 ^ 149 = 0)).resolve_right hp.ne'
    refine heven (by omega) fun h0 => hne ?_
    rw [scaled_eq_signed, scaled_eq_signed, hz, hm, ← h0]
    simp [signed, magValue]


/-! ### Sums and products -/

theorem roundMag_zero : roundMag 0 = 0 := roundMag_magValue (n := 0) (by norm_num)

/-- A finite sum is the rounded magnitude of the exact sum under its sign; an exact zero has either. -/
theorem fadd_eq_pack {a b : Word} (nan : Word) (ha : isFinite a = true) (hb : isFinite b = true) :
    ∃ neg, fadd nan a b = pack neg (roundMag ((scaled a + scaled b).natAbs * 2 ^ 149)) ∧
      signed neg (scaled a + scaled b).natAbs = scaled a + scaled b := by
  rw [fadd_of_isFinite ha hb]
  split
  · rename_i h
    refine ⟨_, by rw [h, Int.natAbs_zero, Nat.zero_mul, roundMag_zero], ?_⟩
    rw [h]; cases fSign a && fSign b <;> rfl
  · exact ⟨_, rfl, signed_natAbs _⟩

/-- A finite product is the rounded magnitude of the exact product under its sign. -/
theorem fmul_eq_pack {a b : Word} (nan : Word) (ha : isFinite a = true) (hb : isFinite b = true) :
    ∃ neg, fmul nan a b = pack neg (roundMag (scaled a * scaled b).natAbs) ∧
      signed neg (scaled a * scaled b).natAbs = scaled a * scaled b := by
  have hs : scaled a * scaled b = signed (fSign a != fSign b) (magValue (fMag a) * magValue (fMag b)) := signed_mul ..
  rw [hs, natAbs_signed, fmul_of_isFinite ha hb]
  exact ⟨_, rfl, rfl⟩

theorem isNaN_pack_roundMag (neg : Bool) (x : Nat) : isNaN (pack neg (roundMag x)) = false := by
  simp only [isNaN, fMag_pack neg (roundMag_lt x), decide_eq_false_iff_not, not_lt, roundMag_le]

theorem isInf_pack_roundMag (neg : Bool) (x : Nat) :
    isInf (pack neg (roundMag x)) = true ↔ (2 ^ 25 - 1) * 2 ^ 252 * 2 ^ 149 ≤ x := by
  rw [isInf, decide_eq_true_eq, fMag_pack neg (roundMag_lt x), roundMag_eq_infMag_iff]

/-- The distance of two numbers in the unit of a product, 2^-298. -/
theorem natAbs_sub_mul_unit (y z : Int) : (y * 2 ^ 149 - z * 2 ^ 149).natAbs = (y - z).natAbs * 2 ^ 149 := by
  rw [← sub_mul, Int.natAbs_mul, Int.natAbs_pow]; rfl

/-- Settles O41: the exact sum is rounded once, `roundPattern_nearest` says to the nearest. -/
theorem sumCorrectlyRounded : Obligations.SumCorrectlyRounded := by
  intro nan a b v ha hb hr _
  obtain ⟨neg, hpack, hsign⟩ := fadd_eq_pack nan ha hb
  have hS : signed neg ((scaled a + scaled b).natAbs * 2 ^ 149) = (scaled a + scaled b) * 2 ^ 149 := by
    rw [← signed_mul_nat, hsign, Nat.cast_pow, Nat.cast_ofNat]
  have hp : 0 < 2 ^ 149 := by positivity
  obtain ⟨hle, heven⟩ := pack_roundMag_nearest hpack hr v
  rw [hS, natAbs_sub_mul_unit, natAbs_sub_mul_unit] at hle heven
  exact ⟨Nat.le_of_mul_le_mul_right hle hp, fun hd => heven (congrArg (· * 2 ^ 149) hd)⟩

/-- Settles O42: the exact product is rounded once, `roundPattern_nearest` says to the nearest. -/
theorem productCorrectlyRounded : Obligations.ProductCorrectlyRounded := by
  intro nan a b v ha hb hr _
  obtain ⟨neg, hpack, hsign⟩ := fmul_eq_pack nan ha hb
  have hnear := pack_roundMag_nearest hpack hr v
  rwa [hsign] at hnear

/-- Settles O43: `roundMag` is at most infinity, and is infinity from the midpoint above the largest finite number on. -/
theorem overflowThreshold : Obligations.OverflowThreshold := by
  intro nan a b ha hb
  obtain ⟨negAdd, hadd, -⟩ := fadd_eq_pack nan ha hb
  obtain ⟨negMul, hmul, -⟩ := fmul_eq_pack nan ha hb
  have hp : 0 < 2 ^ 149 := by positivity
  rw [hadd, hmul, isInf_pack_roundMag, isInf_pack_roundMag, show 401 = 252 + 149 from rfl, pow_add, ← mul_assoc]
  exact ⟨isNaN_pack_roundMag .., isNaN_pack_roundMag .., Nat.mul_le_mul_right_iff hp, Iff.rfl⟩

/-! ### The order of the words and of the numbers they denote (R12) -/

/-- The integer key orders every two words as the numbers they denote, infinities counted as one step above the largest
finite magnitude. -/
theorem orderKey_le_iff (v w : Word) : orderKey v ≤ orderKey w ↔ scaled v ≤ scaled w := by
  have hzero : magValue 0 = 0 := rfl
  have hvw := magValue_strictMono.le_iff_le (a := fMag v) (b := fMag w)
  have hwv := magValue_strictMono.le_iff_le (a := fMag w) (b := fMag v)
  have hv := magValue_strictMono.le_iff_le (a := fMag v) (b := 0)
  have hw := magValue_strictMono.le_iff_le (a := fMag w) (b := 0)
  unfold orderKey scaled
  cases fSign v <;> cases fSign w <;> simp only [if_true, Bool.false_eq_true, if_false] <;> omega

theorem fle_eq_true {v w : Word} (hv : isNaN v = false) (hw : isNaN w = false) :
    fle v w = true ↔ scaled v ≤ scaled w := by
  simp [fle, hv, hw, orderKey_le_iff]

theorem flt_eq_true {v w : Word} (hv : isNaN v = false) (hw : isNaN w = false) :
    flt v w = true ↔ scaled v < scaled w := by
  simp only [flt, hv, hw, Bool.not_false, Bool.true_and, decide_eq_true_eq, lt_iff_not_ge, orderKey_le_iff]

theorem scaled_zero : scaled 0 = 0 := rfl

theorem scaled_ONE : scaled ONE = 2 ^ 149 := by decide +kernel

theorem isNaN_ONE : isNaN ONE = false := by decide

/-- Only a finite word denotes a number in [0, 1]. -/
theorem isFinite_of_mem_unit {v : Word} (h0 : 0 ≤ scaled v) (h1 : scaled v ≤ 2 ^ 149) : isFinite v = true := by
  rw [← scaled_ONE, ← orderKey_le_iff, show orderKey ONE = 1065353216 by decide] at h1
  rw [← scaled_zero, ← orderKey_le_iff, show orderKey 0 = 0 by decide] at h0
  simp only [isFinite, decide_eq_true_eq, infMag]
  unfold orderKey at h0 h1
  cases hs : fSign v <;> simp only [hs, if_true, Bool.false_eq_true, if_false] at h0 h1 <;> omega

theorem fle_zero_eq_true {v : Word} (hv : isNaN v = false) : fle 0 v = true ↔ 0 ≤ scaled v := by
  rw [fle_eq_true (by decide) hv, scaled_zero]

theorem fle_ONE_eq_true {v : Word} (hv : isNaN v = false) : fle v ONE = true ↔ scaled v ≤ 2 ^ 149 := by
  rw [fle_eq_true hv isNaN_ONE, scaled_ONE]

theorem inUnit_iff (v : Word) : inUnit v = true ↔ isFinite v = true ∧ 0 ≤ scaled v ∧ scaled v ≤ 2 ^ 149 := by
  simp only [inUnit, Bool.and_eq_true, Bool.not_eq_true']
  constructor
  · rintro ⟨⟨hn, h0⟩, h1⟩
    rw [fle_zero_eq_true hn] at h0
    rw [fle_ONE_eq_true hn] at h1
    exact ⟨isFinite_of_mem_unit h0 h1, h0, h1⟩
  · rintro ⟨hf, h0, h1⟩
    have hn := isNaN_of_isFinite hf
    exact ⟨⟨hn, (fle_zero_eq_true hn).mpr h0⟩, (fle_ONE_eq_true hn).mpr h1⟩

theorem mixOK_iff (d w : Word) : mixOK d w = true ↔ isFinite d = true ∧ isFinite w = true ∧
    0 ≤ scaled d ∧ 0 ≤ scaled w ∧ (scaled d + scaled w - 2 ^ 149).natAbs ≤ 2 ^ 129 := by
  simp only [mixOK, Bool.and_eq_true, Bool.not_eq_true', decide_eq_true_eq]
  rw [show 149 - Config.mixTolExp = 129 from rfl]
  constructor
  · rintro ⟨⟨⟨⟨⟨⟨hnd, hnw⟩, h0d⟩, h0w⟩, hfd⟩, hfw⟩, hsum⟩
    exact ⟨hfd, hfw, (fle_zero_eq_true hnd).mp h0d, (fle_zero_eq_true hnw).mp h0w, hsum⟩
  · rintro ⟨hfd, hfw, h0d, h0w, hsum⟩
    have hnd := isNaN_of_isFinite hfd
    have hnw := isNaN_of_isFinite hfw
    exact ⟨⟨⟨⟨⟨⟨hnd, hnw⟩, (fle_zero_eq_true hnd).mpr h0d⟩, (fle_zero_eq_true hnw).mpr h0w⟩, hfd⟩, hfw⟩, hsum⟩

/-- Settles O44: the comparisons of R14 are those of the exact numbers, and a number in [0, 1] is finite. -/
theorem validationPredicatesAreReal : Obligations.ValidationPredicatesAreReal := ⟨inUnit_iff, mixOK_iff⟩

/-! ### The length conversion (R13) -/

theorem clampLen_of_isNaN {m : Word} (N : Nat) (h : isNaN m = true) : clampLen m N = 0 := by
  unfold clampLen; rw [if_pos h]

theorem isNaN_u2f {n : Nat} (h : n ≤ 2 ^ 24) : isNaN (u2f n) = false := by
  have := (u2f_value n h).2.1
  simp only [isNaN, decide_eq_false_iff_not]; omega

theorem scaled_u2f {n : Nat} (h : n ≤ 2 ^ 24) : scaled (u2f n) = (n * 2 ^ 149 : Nat) := by
  obtain ⟨hs, -, hv⟩ := u2f_value n h
  rw [scaled_eq_signed, hs, hv]; rfl

/-- The three branches of R13 for a word that is no NaN, on the numbers denoted. -/
theorem clampLen_eq {m : Word} {N : Nat} (hn : isNaN m = false) (hN : N ≤ 2 ^ 24) :
    clampLen m N = if scaled m < 2 ^ 149 then 0 else if ((N - 1) * 2 ^ 149 : Nat) ≤ scaled m then N - 1
      else ftrunc m := by
  unfold clampLen
  simp only [hn, flt_eq_true hn isNaN_ONE, fle_eq_true (isNaN_u2f (by omega : N - 1 ≤ 2 ^ 24)) hn, scaled_ONE,
    scaled_u2f (by omega : N - 1 ≤ 2 ^ 24), Bool.false_eq_true, if_false]

theorem natAbs_scaled (m : Word) : (scaled m).natAbs = magValue (fMag m) := natAbs_signed ..

theorem ftrunc_eq {m : Word} (h : 0 ≤ scaled m) : ftrunc m = (scaled m / 2 ^ 149).toNat := by
  rw [ftrunc, ← natAbs_scaled, ← Int.natAbs_of_nonneg (Int.ediv_nonneg h (by positivity)), Int.toNat_natCast]
  obtain ⟨n, hn⟩ := Int.eq_ofNat_of_zero_le h
  rw [hn]; rfl

/-- R13 truncates toward zero, then clamps to [0, N-1]. -/
theorem clampLen_of_not_isNaN {m : Word} {N : Nat} (hn : isNaN m = false) (hN : N ≤ 2 ^ 24) :
    clampLen m N = min (N - 1) (scaled m / 2 ^ 149).toNat := by
  have hc : (0 : Int) < 2 ^ 149 := by positivity
  rw [clampLen_eq hn hN, Nat.cast_mul, Nat.cast_pow, Nat.cast_ofNat]
  split
  · rename_i hsmall
    have hlt : scaled m / 2 ^ 149 < 1 := Int.ediv_lt_of_lt_mul hc (by rwa [one_mul])
    omega
  rename_i hone
  split
  · rename_i hbig
    have hle : ((N - 1 : Nat) : Int) ≤ scaled m / 2 ^ 149 := Int.le_ediv_of_mul_le hc hbig
    omega
  · rename_i hsmall
    have hlt : scaled m / 2 ^ 149 < ((N - 1 : Nat) : Int) := Int.ediv_lt_of_lt_mul hc (not_le.mp hsmall)
    rw [ftrunc_eq (hc.le.trans (not_lt.mp hone))]
    omega

theorem clampLen_of_isInf {m : Word} {N : Nat} (hi : isInf m = true) (hN : N ≤ 2 ^ 24) :
    clampLen m N = if fSign m then 0 else N - 1 := by
  have hmag : fMag m = infMag := of_decide_eq_true hi
  have hn : isNaN m = false := by rw [isNaN, hmag]; exact decide_eq_false (lt_irrefl _)
  rw [clampLen_of_not_isNaN hn hN, scaled_eq_signed, hmag, magValue_infMag]
  cases fSign m
  · rw [show signed false (2 ^ 24 * 2 ^ 253) / 2 ^ 149 = 2 ^ 128 by decide +kernel]
    exact Nat.min_eq_left (by omega)
  · rw [show signed true (2 ^ 24 * 2 ^ 253) / 2 ^ 149 = -2 ^ 128 by decide +kernel]
    exact Nat.min_zero _

/-- Settles O45: each branch of R13 is truncation and clamping on the number denoted. -/
theorem clampTruncatesThenClamps : Obligations.ClampTruncatesThenClamps := by
  intro m N h1 hcap
  have hN : N ≤ 2 ^ 24 := hcap.trans (by decide)
  exact ⟨clampLen_lt m h1 hN, fun hf => clampLen_of_not_isNaN (isNaN_of_isFinite hf) hN, clampLen_of_isNaN N,
    fun hi => clampLen_of_isInf hi hN⟩

/-! ### What no command's body touches (R153, R29) -/

/-- A body that completes raises nothing: the fault record is left as it was. -/
theorem bodyOf_done_fault {i : Instr} {s t : State} (h : bodyOf i s = .done t) : t.fault = s.fault := by
  cases i with
  | fdlNew => obtain ⟨-, -, -, rfl⟩ := fdlNewBody_done h; rfl
  | fdlTick => obtain ⟨_, _, _, -, -, rfl⟩ := fdlTickBody_done h; rfl
  | fdlRead => obtain ⟨_, _, -, -, rfl⟩ := fdlReadBody_done h; rfl
  | vdlNew => obtain ⟨-, -, -, -, rfl⟩ := vdlNewBody_done h; rfl
  | vdlTick => obtain ⟨_, _, _, -, -, rfl⟩ := vdlTickBody_done h; rfl
  | vdlRead => obtain ⟨_, _, -, -, rfl⟩ := vdlReadBody_done h; rfl
  | vdlSetoff => obtain ⟨_, -, -, rfl⟩ := vdlSetoffBody_done h; rfl
  | echoNewf => obtain ⟨-, -, -, -, -, rfl⟩ := echoNewfBody_done h; rfl
  | echoTick => obtain ⟨_, _, _, -, -, rfl⟩ := echoTickBody_done h; rfl
  | echoSetdly => obtain ⟨_, _, -, -, -, rfl⟩ := echoSetdlyBody_done h; rfl
  | echoSetfb => obtain ⟨_, -, -, rfl⟩ := echoSetfbBody_done h; rfl
  | echoSetmix => obtain ⟨_, -, -, rfl⟩ := echoSetmixBody_done h; rfl
  | echoNewv => obtain ⟨-, -, -, -, -, rfl⟩ := echoNewvBody_done h; rfl
  | mdeNew => obtain ⟨-, -, -, -, rfl⟩ := mdeNewBody_done h; rfl
  | mdeTick => obtain ⟨_, _, _, -, -, rfl⟩ := mdeTickBody_done h; simp

/-- Settles O14: of the three things a command can come to, only fault entry ends with a fault newly recorded. -/
theorem faultEntryIsPrecise : Obligations.FaultEntryIsPrecise := by
  intro i s t hready h hfault
  rw [exec_eq_perform] at h
  rcases perform_eq_next h with ⟨r, hr, -⟩ | ⟨-, hbody⟩ | ⟨-, c, -, rfl⟩
  · rw [hready] at hr; cases hr
  · exact absurd ((bodyOf_done_fault hbody).trans hready) hfault
  · exact ⟨c, rfl⟩

/-! ### Commands and the host's side of the interface (R16, R30) -/

/-- The state with other pending actions and other delivered replies. -/
def State.withHostSide (q : List HostAction) (rs : List HostReply) (s : State) : State := { s with host := q, reads := rs }

section
variable (q : List HostAction) (rs : List HostReply) (s : State)

@[simp] theorem State.withHostSide_fdl : (s.withHostSide q rs).fdl = s.fdl := rfl
@[simp] theorem State.withHostSide_vdl : (s.withHostSide q rs).vdl = s.vdl := rfl
@[simp] theorem State.withHostSide_echo : (s.withHostSide q rs).echo = s.echo := rfl
@[simp] theorem State.withHostSide_mde : (s.withHostSide q rs).mde = s.mde := rfl
@[simp] theorem State.withHostSide_fault : (s.withHostSide q rs).fault = s.fault := rfl
@[simp] theorem State.withHostSide_draws : (s.withHostSide q rs).draws = s.draws := rfl
@[simp] theorem State.withHostSide_opU (k : Fin 6) : (s.withHostSide q rs).opU k = s.opU k := rfl
@[simp] theorem State.withHostSide_opF (k : Fin 6) : (s.withHostSide q rs).opF k = s.opF k := rfl

theorem oscExchange_withHostSide (x : Word) : oscExchange x (s.withHostSide q rs) =
    ((oscExchange x s).1, (oscExchange x s).2.withHostSide q rs) := by
  unfold oscExchange; cases h : s.oscIn <;> simp only [State.withHostSide, h]

end

/-- The same effect with the state it completes in, where there is one, changed by `f`. -/
def Effect.mapDone (f : State → State) : Effect → Effect
  | .done s => .done (f s)
  | .raise c => .raise c
  | .stop e => .stop e

theorem Effect.mapDone_ite (f : State → State) (p : Prop) [Decidable p] (x y : Effect) :
    (if p then x else y).mapDone f = if p then x.mapDone f else y.mapDone f := apply_ite ..

theorem newEcho_withHostSide (backing : Nat → DelayLine) (q : List HostAction) (rs : List HostReply) (s : State) :
    newEcho backing (s.withHostSide q rs) = (newEcho backing s).mapDone (State.withHostSide q rs) := by
  simp only [newEcho, State.withHostSide_echo, State.withHostSide_opU, State.withHostSide_opF]
  split
  · rfl
  · simp only [Effect.mapDone_ite]; rfl

/-- A body neither reads nor writes the host's side: it takes the same branch and completes in the same state but for it. -/
theorem bodyOf_withHostSide (i : Instr) (q : List HostAction) (rs : List HostReply) (s : State) :
    bodyOf i (s.withHostSide q rs) = (bodyOf i s).mapDone (State.withHostSide q rs) := by
  cases i with
  | echoNewf => exact newEcho_withHostSide (fun N => .fixedLine (FDLState.new N)) q rs s
  | echoNewv => exact newEcho_withHostSide (fun N => .variableLine (VDLState.new N (N - 1))) q rs s
  | fdlNew | vdlNew | mdeNew | vdlSetoff | echoSetfb | echoSetmix =>
    simp only [bodyOf, fdlNewBody, vdlNewBody, mdeNewBody, vdlSetoffBody, echoSetfbBody, echoSetmixBody,
      State.withHostSide_fdl, State.withHostSide_vdl, State.withHostSide_echo, State.withHostSide_mde]
    split
    · rfl
    · simp only [Effect.mapDone_ite]; rfl
  | echoSetdly =>
    simp only [bodyOf, echoSetdlyBody, State.withHostSide_echo]
    split
    · rfl
    · split
      · rfl
      · simp only [Effect.mapDone_ite]; rfl
  | fdlTick | fdlRead | vdlTick | vdlRead | echoTick =>
    simp only [bodyOf, fdlTickBody, fdlReadBody, vdlTickBody, vdlReadBody, echoTickBody, State.withHostSide_fdl,
      State.withHostSide_vdl, State.withHostSide_echo, State.withHostSide_opF, State.withHostSide_draws]
    split
    · rfl
    · split <;> rfl
  | mdeTick =>
    simp only [bodyOf, mdeTickBody, State.withHostSide_mde, State.withHostSide_opF, State.withHostSide_draws,
      oscExchange_withHostSide]
    split
    · rfl
    · split_ifs
      · rfl
      · split <;> rfl

theorem exec_withHostSide (i : Instr) (q : List HostAction) (rs : List HostReply) (s : State) :
    exec i (s.withHostSide q rs) = mapNext (State.withHostSide q rs) (exec i s) := by
  rw [exec_eq_perform, exec_eq_perform]
  cases hf : s.fault with
  | some r => rw [perform_faulted hf, perform_faulted (s := s.withHostSide q rs) hf]; rfl
  | none =>
    rw [perform_ready hf, perform_ready (s := s.withHostSide q rs) hf, bodyOf_withHostSide]
    cases bodyOf i s <;> rfl

/-- A command leaves the host's side as it was, and does the same whatever it is. -/
theorem exec_next_withHostSide {i : Instr} {s t : State} (h : exec i s = .next t) (q : List HostAction)
    (rs : List HostReply) : exec i (s.withHostSide q rs) = .next (t.withHostSide q rs) := by
  rw [exec_withHostSide, h]; rfl

theorem exec_next_hostSide {i : Instr} {s t : State} (h : exec i s = .next t) : t.host = s.host ∧ t.reads = s.reads := by
  have hsame : Host.Outcome.next t = .next (t.withHostSide s.host s.reads) :=
    h.symm.trans (exec_next_withHostSide h s.host s.reads)
  rw [Host.Outcome.next.inj hsame]; exact ⟨rfl, rfl⟩

theorem decode_encode (i : Instr) : decode (encode i) = .ok i := by cases i <;> decide

/-- R30: the command word of `i`, written to CMD, runs `i`. -/
theorem step_writeCmd {s : State} {i : Instr} {rest : List HostAction} (h : s.host = .write 0 (encode i) :: rest) :
    step s = exec i { s with host := rest } := by
  rw [step_cons h, performAction, HostReg.ofNumber, writeReg, issue, decode_encode]

theorem run_of_step (M : Host.Core) {s t : M.State} (k : Nat) (h : M.step s = .next t) : M.run (k + 1) s = M.run k t := by
  rw [Host.Core.run, h]

/-- The six operand writes of a transaction, the oldest six actions of the host, put the operand words in place (R29). -/
theorem run_operandWrites (a : OperandRegs) (s : State) (q : List HostAction) (k : Nat) :
    Host.Core.run core (k + 6) { s with host := .write 8 a.a0 :: .write 9 a.a1 :: .write 10 a.a2 :: .write 11 a.a3 :: .write 12 a.a4 :: .write 13 a.a5 :: q } =
      Host.Core.run core k { s with a := a, host := q } := rfl

/-- The two reads of a transaction deliver STATUS, then R0, and change nothing else (R29). -/
theorem run_readStatus_readR0 (s : State) :
    Host.Core.run core 2 { s with host := [.read 1, .read 3] } =
      .next { s with host := [], reads := .word s.r0 :: .word s.status :: s.reads } := rfl

/-- Settles O56: the operand writes, then the command as if the reads behind it were not there, then the reads. -/
theorem transactionAnswers : Obligations.TransactionAnswers := by
  intro i a s t hhost h
  obtain ⟨ht, hr⟩ := exec_next_hostSide h
  have hstep : step { s with a := a, host := [.write 0 (encode i), .read 1, .read 3] } =
      .next (t.withHostSide [.read 1, .read 3] s.reads) :=
    (step_writeCmd rfl).trans (exec_next_withHostSide h [.read 1, .read 3] s.reads)
  calc Host.Core.run core 9 _
      = Host.Core.run core 3 { s with a := a, host := [.write 0 (encode i), .read 1, .read 3] } := run_operandWrites a s _ 3
    _ = Host.Core.run core 2 (t.withHostSide [.read 1, .read 3] s.reads) := run_of_step core 2 hstep
    _ = .next (t.withHostSide [] (.word t.r0 :: .word t.status :: s.reads)) :=
      run_readStatus_readR0 (t.withHostSide [.read 1, .read 3] s.reads)
    _ = .next { t with reads := .word t.r0 :: .word t.status :: s.reads } := by
      rw [State.withHostSide, ← hhost, ← ht]

/-! ### Exact cases, infinities and NaNs (R12) -/

theorem isFinite_of_not_isNaN_isInf {v : Word} (hn : isNaN v = false) (hi : ¬isInf v = true) : isFinite v = true := by
  rcases isNaN_or_isInf_or_isFinite v with h | h | h
  · rw [hn] at h; cases h
  · exact absurd h hi
  · exact h

theorem isNaN_of_isInf {v : Word} (h : isInf v = true) : isNaN v = false := by
  rw [isNaN, of_decide_eq_true h]; exact decide_eq_false (lt_irrefl _)

theorem isFinite_of_fMag_zero {v : Word} (h : fMag v = 0) : isFinite v = true := by rw [isFinite, h]; decide

theorem scaled_of_fMag_zero {v : Word} (h : fMag v = 0) : scaled v = 0 := by
  rw [scaled_eq_signed, h]; cases fSign v <;> rfl

/-- The largest finite magnitude bounds every finite number. -/
theorem natAbs_scaled_le {v : Word} (h : isFinite v = true) : (scaled v).natAbs ≤ (2 ^ 24 - 1) * 2 ^ 253 := by
  have hlt : fMag v < infMag := of_decide_eq_true h
  rw [natAbs_scaled, ← magValue_maxFinite]
  exact magValue_strictMono.monotone (Nat.le_sub_one_of_lt hlt)

/-- A sum below the overflow threshold is finite. -/
theorem isFinite_fadd {a b : Word} (nan : Word) (ha : isFinite a = true) (hb : isFinite b = true)
    (h : (scaled a + scaled b).natAbs < (2 ^ 25 - 1) * 2 ^ 252) : isFinite (fadd nan a b) = true := by
  obtain ⟨hn, -, hi, -⟩ := overflowThreshold nan a b ha hb
  exact isFinite_of_not_isNaN_isInf hn fun hinf => absurd (hi.mp hinf) (not_le.mpr h)

/-- A product below the overflow threshold is finite. -/
theorem isFinite_fmul {a b : Word} (nan : Word) (ha : isFinite a = true) (hb : isFinite b = true)
    (h : (scaled a * scaled b).natAbs < (2 ^ 25 - 1) * 2 ^ 401) : isFinite (fmul nan a b) = true := by
  obtain ⟨-, hn, -, hi⟩ := overflowThreshold nan a b ha hb
  exact isFinite_of_not_isNaN_isInf hn fun hinf => absurd (hi.mp hinf) (not_le.mpr h)

/-- A zero of either sign added to another finite number changes nothing. -/
theorem fadd_zero_right {a z : Word} (nan : Word) (ha : isFinite a = true) (h0 : fMag a ≠ 0) (hz : fMag z = 0) :
    fadd nan a z = a := by
  have hpos : 0 < magValue (fMag a) := magValue_strictMono (Nat.pos_of_ne_zero h0)
  have hsign : decide (scaled a < 0) = fSign a := by
    rw [scaled_eq_signed]; cases fSign a <;> simp [signed, hpos]
  have hne : scaled a ≠ 0 := by rw [← Int.natAbs_ne_zero, natAbs_scaled]; exact hpos.ne'
  have hlt : fMag a < infMag := of_decide_eq_true ha
  rw [fadd_of_isFinite ha (isFinite_of_fMag_zero hz), scaled_of_fMag_zero hz, add_zero, if_neg hne, hsign, natAbs_scaled,
    roundMag_magValue hlt.le, pack_self]

/-- A finite number times 1 is itself. -/
theorem fmul_ONE_right {a : Word} (nan : Word) (ha : isFinite a = true) : fmul nan a ONE = a := by
  have hone : magValue (fMag ONE) = 2 ^ 149 := by decide +kernel
  have hlt : fMag a < infMag := of_decide_eq_true ha
  rw [fmul_of_isFinite ha (by decide), hone, roundMag_magValue hlt.le, show fSign ONE = false by decide, Bool.bne_false,
    pack_self]

/-- A finite number times a zero is a zero. -/
theorem fMag_fmul_zero_right {a z : Word} (nan : Word) (ha : isFinite a = true) (hz : fMag z = 0) :
    fMag (fmul nan a z) = 0 := by
  rw [fmul_of_isFinite ha (isFinite_of_fMag_zero hz), hz, show magValue 0 = 0 from rfl, mul_zero, roundMag_zero,
    fMag_pack _ (by decide)]

/-- An infinity times a zero is a NaN. -/
theorem fmul_inf_zero {a z : Word} (nan : Word) (ha : isInf a = true) (hz : fMag z = 0) : fmul nan a z = nan := by
  simp [fmul, isNaN_of_isInf ha, isNaN_of_isFinite (isFinite_of_fMag_zero hz), ha, hz]

/-- An infinity times another finite number is an infinity. -/
theorem isInf_fmul {a b : Word} (nan : Word) (ha : isInf a = true) (hb : isFinite b = true) (h0 : fMag b ≠ 0) :
    isInf (fmul nan a b) = true := by
  have ha0 : fMag a ≠ 0 := by rw [of_decide_eq_true ha]; decide
  have hpack : fmul nan a b = pack (fSign a != fSign b) infMag := by
    simp [fmul, isNaN_of_isInf ha, isNaN_of_isFinite hb, ha, ha0, h0]
  rw [hpack, isInf, fMag_pack _ (by decide)]
  exact decide_eq_true rfl

/-- An infinity plus a finite number is that infinity. -/
theorem fadd_inf {a b : Word} (nan : Word) (ha : isInf a = true) (hb : isFinite b = true) : fadd nan a b = a := by
  simp [fadd, isNaN_of_isInf ha, isNaN_of_isFinite hb, ha, isInf_of_isFinite hb]

theorem fMag_fneg (v : Word) : fMag (fneg v) = fMag v := by
  rw [fMag, fneg, BitVec.toNat_xor, Nat.xor_mod_two_pow, show (0x80000000 : Word).toNat % 2 ^ 31 = 0 by decide,
    Nat.xor_zero, ← fMag]

theorem isNaN_fneg (v : Word) : isNaN (fneg v) = isNaN v := by rw [isNaN, fMag_fneg, ← isNaN]

/-! ### A modulation of depth zero (R138) -/

theorem scaled_HALF : scaled HALF = 2 ^ 148 := by decide +kernel

theorem isFinite_HALF : isFinite HALF = true := by decide

/-- A finite oscillator answer gives a finite lfo value: neither the product nor the sum of R136 step 1b overflows. -/
theorem isFinite_lfoValue (nan : Nat → Word) {osc : Word} (h : isFinite osc = true) :
    isFinite (lfoValue nan osc) = true := by
  have hmul : isFinite (fmul (nan 0) osc HALF) = true := by
    refine isFinite_fmul _ h isFinite_HALF ?_
    rw [Int.natAbs_mul, scaled_HALF, show 401 = 253 + 148 from rfl, pow_add, ← mul_assoc]
    exact Nat.mul_lt_mul_of_pos_right ((natAbs_scaled_le h).trans_lt (by norm_num)) (by positivity)
  refine isFinite_fadd _ hmul isFinite_HALF ?_
  have hle := natAbs_scaled_le hmul
  rw [scaled_HALF]
  generalize scaled (fmul (nan 0) osc HALF) = y at hle
  omega

/-- An infinite or NaN oscillator answer gives such an lfo value. -/
theorem isFinite_lfoValue_eq_false (nan : Nat → Word) (hnan : ∀ k, isNaN (nan k) = true) {osc : Word}
    (h : isFinite osc = false) : isNaN (lfoValue nan osc) = true ∨ isInf (lfoValue nan osc) = true := by
  rcases isNaN_or_isInf_or_isFinite osc with hn | hi | hf
  · left
    rw [lfoValue, fmul_of_isNaN (.inl hn), fadd_of_isNaN (.inl (hnan 0))]
    exact hnan 1
  · right
    have hmul := isInf_fmul (nan 0) hi isFinite_HALF (by decide)
    rwa [lfoValue, fadd_inf _ hmul isFinite_HALF]
  · rw [h] at hf; cases hf

/-- With `lfo_index` a zero a finite lfo value leaves `base * 1`, which is `base`. -/
theorem MDEState.modulated_of_isFinite {m : MDEState} (nan : Nat → Word) {lfo : Word} (hz : fMag m.lfoIndex = 0)
    (hb : m.base ≤ 2 ^ 24) (h : isFinite lfo = true) : m.modulated nan lfo = u2f m.base := by
  have hzero : fMag (fneg (fmul (nan 2) lfo m.lfoIndex)) = 0 := by rw [fMag_fneg, fMag_fmul_zero_right _ h hz]
  rw [MDEState.modulated, fsub, fadd_zero_right _ (by decide) (by decide) hzero,
    fmul_ONE_right _ (decide_eq_true (u2f_value _ hb).2.1)]

/-- With `lfo_index` a zero an infinite or NaN lfo value leaves a NaN. -/
theorem MDEState.modulated_isNaN {m : MDEState} {nan : Nat → Word} (hnan : ∀ k, isNaN (nan k) = true) {lfo : Word}
    (hz : fMag m.lfoIndex = 0) (h : isNaN lfo = true ∨ isInf lfo = true) : isNaN (m.modulated nan lfo) = true := by
  have hmul : fmul (nan 2) lfo m.lfoIndex = nan 2 := by
    rcases h with hn | hi
    · exact fmul_of_isNaN (.inl hn)
    · exact fmul_inf_zero _ hi hz
  have hsub : fsub (nan 3) ONE (nan 2) = nan 3 := fadd_of_isNaN (.inr ((isNaN_fneg _).trans (hnan 2)))
  rw [MDEState.modulated, hmul, hsub, fmul_of_isNaN (.inr (hnan 3))]
  exact hnan 4

theorem clampLen_u2f {n : Nat} (h : n < 2 ^ 24) : clampLen (u2f n) (n + 1) = n := by
  rw [clampLen_of_not_isNaN (isNaN_u2f h.le) h, scaled_u2f h.le, Nat.cast_mul, Nat.cast_pow, Nat.cast_ofNat,
    Int.mul_ediv_cancel _ (by positivity), Int.toNat_natCast, Nat.succ_sub_one, min_self]

/-- A tick of an echo whose offset was just set leaves that offset. Said for any offset by itself, as
`EchoState.tick_retuned_keeps`. -/
theorem EchoState.tick_retuned_offset {nan : Nat → Word} {e e' : EchoState} {v u : VDLState} {x out : Word} {L : Nat}
    (h : EchoState.tick nan { e with delay := .variableLine (v.setOffset L) } x = some (out, e'))
    (hu : e'.delay = .variableLine u) : u.offset = L := by
  obtain ⟨r, delayed, d, -, hd, -, rfl⟩ := EchoState.tick_eq_some h
  obtain rfl : d = .variableLine u := hu
  simp only [DelayLine.tick, Option.map_eq_some_iff, Prod.exists, Prod.mk.injEq, DelayLine.variableLine.injEq] at hd
  obtain ⟨_, w, hw, -, rfl⟩ := hd
  obtain ⟨-, -, rfl⟩ := VDLState.tick_eq_some hw
  rfl

/-- A tick of the effect leaves the length it computed as the offset (R136 step 3). -/
theorem MDEState.tick_offset {nan : Nat → Word} {m m' : MDEState} {u : VDLState} {osc x out : Word}
    (h : m.tick nan osc x = some (out, m')) (hu : m'.echo.delay = .variableLine u) : u.offset = m.length nan osc := by
  obtain ⟨v, y, e, -, he, -, rfl⟩ := MDEState.tick_eq_some h
  exact EchoState.tick_retuned_offset he hu

/-- MDE.TICK raises its fault only where the unit is not constructed (R151). -/
theorem mdeTickBody_raise {s : State} {c : Cause} (h : mdeTickBody s = .raise c) : s.mde = none := by
  unfold mdeTickBody at h
  split at h
  · assumption
  · split at h
    · cases h
    · split at h <;> cases h

/-- Settles O39: `lfo * 0` is a zero for a finite lfo value, so that the length is `base * 1`, and a NaN otherwise. -/
theorem mdeDegenerateModulation : Obligations.MdeDegenerateModulation := by
  intro s t m m' v osc rest hready hm hinv hz hosc h hm' hv
  have hcap : Config.capMax = 65536 := rfl
  have hbase : m.base < 2 ^ 24 := by have := hinv.1; omega
  have hnan : ∀ k, isNaN (nanDraw s.draws k) = true := fun k => isNaN_of_isQuietNaN (isQuietNaN_nanDraw _ k)
  rw [exec_eq_perform] at h
  have hoffset : v.offset = m.length (nanDraw s.draws) osc := by
    rcases perform_eq_next h with ⟨r, hr, -⟩ | ⟨-, hbody⟩ | ⟨-, c, hbody, -⟩
    · rw [hready] at hr; cases hr
    · obtain ⟨m₀, out, m₁, hm₀, htick, rfl⟩ := mdeTickBody_done hbody
      obtain rfl : m = m₀ := Option.some.inj (hm.symm.trans hm₀)
      obtain rfl : m₁ = m' := Option.some.inj hm'
      rw [oscExchange_listed _ _ _ _ hosc] at htick
      exact MDEState.tick_offset htick hv
    · rw [mdeTickBody_raise hbody] at hm; cases hm
  rw [hoffset, MDEState.length]
  refine ⟨fun hf => ?_, fun hf => ?_⟩
  · rw [MDEState.modulated_of_isFinite _ hz hbase.le (isFinite_lfoValue _ hf), clampLen_u2f hbase]
  · exact clampLen_of_isNaN _ (MDEState.modulated_isNaN hnan hz (isFinite_lfoValue_eq_false _ hnan hf))

end Sys2Proof.Machine
end

section
/-! PROOFS. The statements about the state: the host's registers (R29 to R32), reset (R35), what a command leaves unchanged
(R20, R27, R54, R55), the lifetime of a unit (R20, R28) and the invariants of the four units (R22, R23, R25, R26). -/

namespace Sys2Proof.Machine

/-! ### The host's registers (R29, R30) -/

/-- Settles O3: the step issues the word, and issuing runs what it decodes to. -/
theorem stepRunsDecodedCommand : Obligations.StepRunsDecodedCommand := by
  intro s rest w i hhost hdec
  rw [step_cons hhost, performAction, HostReg.ofNumber, writeReg, issue, hdec]

/-- A host write of any register number but those of CMD and A0 to A5 is ignored. -/
theorem writeReg_ofNumber_ignored {k : Nat} (h0 : k ≠ 0) (h : k < 8 ∨ 13 < k) (w : Word) (s : State) :
    writeReg (HostReg.ofNumber k) w s = .next s := by
  unfold HostReg.ofNumber
  split
  case h_1 => exact absurd rfl h0
  case h_2 | h_3 | h_4 | h_11 => rfl
  all_goals omega

/-- Settles O6: a register number names an operand register, or one that ignores writes, or CMD. -/
theorem hostWritesRegister : Obligations.HostWritesRegister := by
  intro s rest k w hhost
  rw [step_cons hhost]
  refine ⟨?_, ?_, ?_, ?_, ?_, ?_, fun hk => writeReg_ofNumber_ignored hk.1 hk.2 w _⟩ <;> rintro rfl <;> rfl

/-- What a host read gives, by register number (R29). -/
theorem readReg_ofNumber (s : State) (k : Nat) : s.readReg (HostReg.ofNumber k) =
    if k = 1 then s.status else if k = 2 then s.faultCmd else if k = 3 then s.r0
      else if k = 8 then s.a.a0 else if k = 9 then s.a.a1 else if k = 10 then s.a.a2
      else if k = 11 then s.a.a3 else if k = 12 then s.a.a4 else if k = 13 then s.a.a5 else 0 := by
  unfold HostReg.ofNumber
  split
  case h_11 => grind [State.readReg]
  all_goals rfl

/-- Settles O7: a read delivers what its register number gives and changes nothing else. -/
theorem hostReadsRegister : Obligations.HostReadsRegister := by
  intro s rest k hhost
  exact ⟨_, step_cons hhost, readReg_ofNumber _ k⟩

/-! ### STATUS, FAULTCMD and reset (R31, R32, R35) -/

/-- Settles O10, by evaluating the reset state. -/
theorem resetLeaves : Obligations.ResetLeaves := ⟨rfl, rfl, rfl, rfl, rfl, by decide, rfl⟩

/-- ECHO_VAR is 1 exactly over a variable backing (R31). -/
theorem echoVar_eq_true (s : State) : s.echoVar = true ↔ ∃ e v, s.echo = some e ∧ e.delay = .variableLine v := by
  unfold State.echoVar
  split
  · simp [*]
  · rename_i e he
    cases hd : e.delay <;> simp [he, hd]

/-- The one-bit fields of STATUS (R31). The width above the lowest bit is given, since STATUS shows it only as part of 32. -/
theorem State.status_bits (s : State) :
    s.status.getLsbD 0 = s.faulted ∧ s.status.getLsbD 1 = s.busy ∧ s.status.getLsbD 8 = s.fdl.isSome ∧
      s.status.getLsbD 9 = s.vdl.isSome ∧ s.status.getLsbD 10 = s.echo.isSome ∧ s.status.getLsbD 11 = s.mde.isSome ∧
      s.status.getLsbD 12 = s.echoVar := by
  simp only [-Nat.reduceAdd, State.status, BitVec.getLsbD_append (n := 19 + 1 + 1 + 1 + 1 + 1 + 4 + 2 + 1),
    BitVec.getLsbD_append, BitVec.getLsbD_ofBool]
  simp

/-- The wider fields of STATUS (R31), with that width given in the same way. -/
theorem State.status_fields (s : State) :
    s.status.extractLsb' 2 2 = 0 ∧ s.status.extractLsb' 4 4 = s.causeField ∧ s.status.extractLsb' 13 19 = 0 := by
  simp (disch := decide) only [-Nat.reduceAdd, State.status,
    BitVec.extractLsb'_append_eq_of_le (v := 19 + 1 + 1 + 1 + 1 + 1 + 4 + 2 + 1), BitVec.extractLsb'_append_eq_of_le,
    BitVec.extractLsb'_append_eq_of_add_le]
  simp

/-- Settles O9: the fields of STATUS one by one, CAUSE by the recorded cause. -/
theorem statusFaultCommandAndPin : Obligations.StatusFaultCommandAndPin := by
  intro s
  obtain ⟨hfault, hbusy, hfdl, hvdl, hecho, hmde, hvar⟩ := s.status_bits
  obtain ⟨hlow, hcause, hhigh⟩ := s.status_fields
  refine ⟨hfault, hbusy, hlow, ?_, hfdl, hvdl, hecho, hmde, hvar ▸ echoVar_eq_true s, hhigh, fun h => ?_, fun c w h => ?_,
    rfl⟩
  · rw [hcause, State.causeField]
    rcases s.fault with _ | ⟨c, w⟩
    · rfl
    · cases c <;> rfl
  · rw [State.faultCmd, h]
  · rw [State.faultCmd, h]

/-! ### A command and the units it does not address (R20, R27) -/

section
variable (u : UnitKind) (o s : State)

@[simp] theorem State.othersFrom_a : (State.othersFrom u o s).a = s.a := by cases u <;> rfl
@[simp] theorem State.othersFrom_fault : (State.othersFrom u o s).fault = s.fault := by cases u <;> rfl
@[simp] theorem State.othersFrom_draws : (State.othersFrom u o s).draws = s.draws := by cases u <;> rfl

theorem oscExchange_othersFrom (x : Word) : oscExchange x (State.othersFrom u o s) =
    ((oscExchange x s).1, State.othersFrom u o (oscExchange x s).2) := by
  cases u <;> unfold oscExchange <;> cases h : s.oscIn <;> simp only [State.othersFrom, h]

end

/-- A body neither reads nor writes a unit it does not address: it takes the same branch and completes in the same state but
for those units. -/
theorem bodyOf_othersFrom (i : Instr) (o s : State) :
    bodyOf i (State.othersFrom i.unit o s) = (bodyOf i s).mapDone (State.othersFrom i.unit o) := by
  cases i with
  | fdlNew | vdlNew | mdeNew | vdlSetoff | echoSetfb | echoSetmix | echoNewf | echoNewv =>
    simp only [bodyOf, fdlNewBody, vdlNewBody, mdeNewBody, vdlSetoffBody, echoSetfbBody, echoSetmixBody, echoNewfBody,
      echoNewvBody, newEcho, Instr.unit, State.othersFrom]
    split
    · rfl
    · simp only [Effect.mapDone_ite]; rfl
  | echoSetdly =>
    simp only [bodyOf, echoSetdlyBody, Instr.unit, State.othersFrom]
    split
    · rfl
    · split
      · rfl
      · simp only [Effect.mapDone_ite]; rfl
  | fdlTick | fdlRead | vdlTick | vdlRead | echoTick =>
    simp only [bodyOf, fdlTickBody, fdlReadBody, vdlTickBody, vdlReadBody, echoTickBody, Instr.unit, State.othersFrom,
      State.opF]
    split
    · rfl
    · split <;> rfl
  | mdeTick =>
    have hmde : (State.othersFrom Instr.mdeTick.unit o s).mde = s.mde := rfl
    simp only [bodyOf, mdeTickBody, State.opF, oscExchange_othersFrom, State.othersFrom_a, State.othersFrom_draws, hmde]
    split
    · rfl
    · split_ifs
      · rfl
      · split <;> rfl

/-- Settles O53: a recorded fault is not a unit's, and otherwise the body decides. -/
theorem unitsAreIndependent : Obligations.UnitsAreIndependent := by
  intro i s o
  rw [exec_eq_perform, exec_eq_perform]
  cases hf : s.fault with
  | some r => rw [perform_faulted hf, perform_faulted ((State.othersFrom_fault ..).trans hf)]; rfl
  | none =>
    rw [perform_ready hf, perform_ready ((State.othersFrom_fault ..).trans hf), bodyOf_othersFrom]
    cases bodyOf i s with
    | done t | stop f => rfl
    | raise c => cases i <;> rfl

/-! ### What a command leaves unchanged (R20, R54, R55) -/

/-- Everything a command that answers a next state can have done: to the fault record at most, or what its body completes
with, and then no fault is recorded. -/
theorem exec_eq_next {i : Instr} {s t : State} (h : exec i s = .next t) :
    (∃ r, t = { s with fault := some r }) ∨ (t.fault = none ∧ bodyOf i s = .done t) := by
  rw [exec_eq_perform] at h
  rcases perform_eq_next h with ⟨r, hr, rfl⟩ | ⟨hf, hbody⟩ | ⟨-, c, -, rfl⟩
  · exact .inl ⟨r, by rw [← hr]⟩
  · exact .inr ⟨(bodyOf_done_fault hbody).trans hf, hbody⟩
  · exact .inl ⟨_, rfl⟩

theorem State.othersFrom_self (u : UnitKind) (s : State) : State.othersFrom u s s = s := by cases u <;> rfl

/-- A body that completes leaves the units it does not address: with those of its own state put in their place it does the
same. -/
theorem bodyOf_done_units {i : Instr} {s t : State} (h : bodyOf i s = .done t) :
    (i.unit ≠ .fdl → t.fdl = s.fdl) ∧ (i.unit ≠ .vdl → t.vdl = s.vdl) ∧ (i.unit ≠ .echo → t.echo = s.echo) ∧
      (i.unit ≠ .mde → t.mde = s.mde) := by
  have hsame := bodyOf_othersFrom i s s
  rw [State.othersFrom_self, h] at hsame
  rw [Effect.done.inj hsame]
  cases i.unit <;> simp [State.othersFrom]

/-- A body that completes leaves the operand registers as they were, and R0 unless the command returns a sample. -/
theorem bodyOf_done_registers {i : Instr} {s t : State} (h : bodyOf i s = .done t) :
    t.a = s.a ∧ (i.writesR0 = false → t.r0 = s.r0) := by
  cases i with
  | fdlNew => obtain ⟨-, -, -, rfl⟩ := fdlNewBody_done h; exact ⟨rfl, fun _ => rfl⟩
  | fdlTick => obtain ⟨_, _, _, -, -, rfl⟩ := fdlTickBody_done h; exact ⟨rfl, nofun⟩
  | fdlRead => obtain ⟨_, _, -, -, rfl⟩ := fdlReadBody_done h; exact ⟨rfl, nofun⟩
  | vdlNew => obtain ⟨-, -, -, -, rfl⟩ := vdlNewBody_done h; exact ⟨rfl, fun _ => rfl⟩
  | vdlTick => obtain ⟨_, _, _, -, -, rfl⟩ := vdlTickBody_done h; exact ⟨rfl, nofun⟩
  | vdlRead => obtain ⟨_, _, -, -, rfl⟩ := vdlReadBody_done h; exact ⟨rfl, nofun⟩
  | vdlSetoff => obtain ⟨_, -, -, rfl⟩ := vdlSetoffBody_done h; exact ⟨rfl, fun _ => rfl⟩
  | echoNewf => obtain ⟨-, -, -, -, -, rfl⟩ := echoNewfBody_done h; exact ⟨rfl, fun _ => rfl⟩
  | echoTick => obtain ⟨_, _, _, -, -, rfl⟩ := echoTickBody_done h; exact ⟨rfl, nofun⟩
  | echoSetdly => obtain ⟨_, _, -, -, -, rfl⟩ := echoSetdlyBody_done h; exact ⟨rfl, fun _ => rfl⟩
  | echoSetfb => obtain ⟨_, -, -, rfl⟩ := echoSetfbBody_done h; exact ⟨rfl, fun _ => rfl⟩
  | echoSetmix => obtain ⟨_, -, -, rfl⟩ := echoSetmixBody_done h; exact ⟨rfl, fun _ => rfl⟩
  | echoNewv => obtain ⟨-, -, -, -, -, rfl⟩ := echoNewvBody_done h; exact ⟨rfl, fun _ => rfl⟩
  | mdeNew => obtain ⟨-, -, -, -, rfl⟩ := mdeNewBody_done h; exact ⟨rfl, fun _ => rfl⟩
  | mdeTick => obtain ⟨_, _, _, -, -, rfl⟩ := mdeTickBody_done h; exact ⟨oscExchange_a _ _, nofun⟩

/-- Settles O50: a command that only records a fault leaves all of this, and one that completes leaves what its body does. -/
theorem commandFrame : Obligations.CommandFrame := by
  intro i s t h
  obtain ⟨hhost, hreads⟩ := exec_next_hostSide h
  rcases exec_eq_next h with ⟨r, rfl⟩ | ⟨hok, hbody⟩
  · exact ⟨rfl, rfl, rfl, fun _ => rfl, fun _ => rfl, fun _ => rfl, fun _ => rfl, fun _ => rfl⟩
  · obtain ⟨ha, hr0⟩ := bodyOf_done_registers hbody
    exact ⟨ha, hhost, hreads, fun hw => hr0 (hw.resolve_right (absurd hok)), bodyOf_done_units hbody⟩

/-! ### The delay line of each unit (R20, R27, R28) -/

/-- The one delay line a unit owns or is, where the unit is constructed. -/
def State.line (s : State) : UnitKind → Option DelayLine
  | .fdl => s.fdl.map .fixedLine
  | .vdl => s.vdl.map .variableLine
  | .echo => s.echo.map EchoState.delay
  | .mde => s.mde.map fun m => m.echo.delay

theorem State.constructed_eq_line (s : State) (u : UnitKind) : s.constructed u = (s.line u).isSome := by
  cases u <;> simp [State.constructed, State.line]

theorem State.capacity_eq_line (s : State) (u : UnitKind) : s.capacity u = (s.line u).map DelayLine.capacity := by
  cases u <;> simp only [State.capacity, State.line, Option.map_map] <;> rfl

theorem State.buffer_eq_line (s : State) (u : UnitKind) : s.buffer u = (s.line u).map DelayLine.buf := by
  cases u <;> simp only [State.buffer, State.line, Option.map_map] <;> rfl

theorem State.writeCursor_eq_line (s : State) (u : UnitKind) :
    s.writeCursor u = (s.line u).map DelayLine.writeCursor := by
  cases u <;> simp only [State.writeCursor, State.line, Option.map_map] <;> rfl

/-- What a command leaves of a delay line: the backing, the capacity, and every slot but, for a tick, the one at the write
cursor. -/
structure DelayLine.Keeps (ticks : Bool) (d d' : DelayLine) : Prop where
  backing : d'.isVariable = d.isVariable
  capacity : d'.capacity = d.capacity
  slots : ∀ j, ¬(ticks = true ∧ d.writeCursor = j) → d'.buf.get j = d.buf.get j

theorem DelayLine.Keeps.refl (ticks : Bool) (d : DelayLine) : d.Keeps ticks d := ⟨rfl, rfl, fun _ _ => rfl⟩

theorem DelayLine.Keeps.setOffset (ticks : Bool) (v : VDLState) (o : Nat) :
    (DelayLine.variableLine v).Keeps ticks (.variableLine (v.setOffset o)) := ⟨rfl, rfl, fun _ _ => rfl⟩

theorem DelayLine.Keeps.tick {d d' : DelayLine} {x out : Word} (h : d.tick x = some (out, d')) : d.Keeps true d' := by
  obtain ⟨hv, hc, hs⟩ := DelayLine.tick_keeps h
  exact ⟨hv, hc, fun j hj => hs j fun e => hj ⟨rfl, e.symm⟩⟩

theorem EchoState.tick_keeps_line {nan : Nat → Word} {e e' : EchoState} {x out : Word}
    (h : e.tick nan x = some (out, e')) : e.delay.Keeps true e'.delay := by
  obtain ⟨_, _, _, -, hd, -, rfl⟩ := EchoState.tick_eq_some h
  exact .tick hd

theorem MDEState.tick_keeps_line {nan : Nat → Word} {m m' : MDEState} {osc x out : Word}
    (h : m.tick nan osc x = some (out, m')) : m.echo.delay.Keeps true m'.echo.delay := by
  obtain ⟨-, -, -, -, -, -, hv, hv', hc, hs⟩ := MDEState.tick_keeps h
  exact ⟨hv'.trans hv.symm, hc, fun j hj => hs j fun e => hj ⟨rfl, e.symm⟩⟩

theorem FDLState.tick_keeps_line {f g : FDLState} {x out : Word} (h : f.tick x = some (out, g)) :
    (DelayLine.fixedLine f).Keeps true (.fixedLine g) :=
  .tick (x := x) (out := out) (by rw [DelayLine.tick, h, Option.map_some])

theorem VDLState.tick_keeps_line {v u : VDLState} {x out : Word} (h : v.tick x = some (out, u)) :
    (DelayLine.variableLine v).Keeps true (.variableLine u) :=
  .tick (x := x) (out := out) (by rw [DelayLine.tick, h, Option.map_some])

/-- What a body that completes does to the delay line of its unit: a NEW command finds none, every other command finds one
and leaves one. -/
theorem bodyOf_done_line {i : Instr} {s t : State} (h : bodyOf i s = .done t) :
    (i.constructs = true ∧ s.line i.unit = none) ∨
      ∃ d d', s.line i.unit = some d ∧ t.line i.unit = some d' ∧ d.Keeps i.ticks d' := by
  cases i with
  | fdlNew => obtain ⟨hn, -⟩ := fdlNewBody_done h; exact .inl ⟨rfl, congrArg (Option.map _) hn⟩
  | vdlNew => obtain ⟨hn, -⟩ := vdlNewBody_done h; exact .inl ⟨rfl, congrArg (Option.map _) hn⟩
  | echoNewf => obtain ⟨hn, -⟩ := echoNewfBody_done h; exact .inl ⟨rfl, congrArg (Option.map _) hn⟩
  | echoNewv => obtain ⟨hn, -⟩ := echoNewvBody_done h; exact .inl ⟨rfl, congrArg (Option.map _) hn⟩
  | mdeNew => obtain ⟨hn, -⟩ := mdeNewBody_done h; exact .inl ⟨rfl, congrArg (Option.map _) hn⟩
  | fdlTick =>
    obtain ⟨f, _, f', hf, ht, rfl⟩ := fdlTickBody_done h
    exact .inr ⟨_, _, congrArg (Option.map _) hf, rfl, FDLState.tick_keeps_line ht⟩
  | vdlTick =>
    obtain ⟨v, _, v', hv, ht, rfl⟩ := vdlTickBody_done h
    exact .inr ⟨_, _, congrArg (Option.map _) hv, rfl, VDLState.tick_keeps_line ht⟩
  | echoTick =>
    obtain ⟨e, _, e', he, ht, rfl⟩ := echoTickBody_done h
    exact .inr ⟨_, _, congrArg (Option.map _) he, rfl, EchoState.tick_keeps_line ht⟩
  | mdeTick =>
    obtain ⟨m, _, m', hm, ht, rfl⟩ := mdeTickBody_done h
    exact .inr ⟨_, _, congrArg (Option.map _) hm, rfl, MDEState.tick_keeps_line ht⟩
  | fdlRead =>
    obtain ⟨f, _, hf, -, rfl⟩ := fdlReadBody_done h
    exact .inr ⟨_, _, congrArg (Option.map _) hf, congrArg (Option.map _) hf, .refl ..⟩
  | vdlRead =>
    obtain ⟨v, _, hv, -, rfl⟩ := vdlReadBody_done h
    exact .inr ⟨_, _, congrArg (Option.map _) hv, congrArg (Option.map _) hv, .refl ..⟩
  | vdlSetoff =>
    obtain ⟨v, hv, -, rfl⟩ := vdlSetoffBody_done h
    exact .inr ⟨_, _, congrArg (Option.map _) hv, rfl, .setOffset ..⟩
  | echoSetdly =>
    obtain ⟨e, v, he, hv, -, rfl⟩ := echoSetdlyBody_done h
    exact .inr ⟨_, _, congrArg (Option.map _) he, rfl, by rw [hv]; exact .setOffset ..⟩
  | echoSetfb =>
    obtain ⟨e, he, -, rfl⟩ := echoSetfbBody_done h
    exact .inr ⟨_, _, congrArg (Option.map _) he, rfl, .refl ..⟩
  | echoSetmix =>
    obtain ⟨e, he, -, rfl⟩ := echoSetmixBody_done h
    exact .inr ⟨_, _, congrArg (Option.map _) he, rfl, .refl ..⟩

/-- A body that completes leaves the delay lines of the units it does not address. -/
theorem bodyOf_done_line_of_ne {i : Instr} {s t : State} {u : UnitKind} (h : bodyOf i s = .done t) (hu : i.unit ≠ u) :
    t.line u = s.line u := by
  obtain ⟨hfdl, hvdl, hecho, hmde⟩ := bodyOf_done_units h
  cases u with
  | fdl => exact congrArg (Option.map _) (hfdl hu)
  | vdl => exact congrArg (Option.map _) (hvdl hu)
  | echo => exact congrArg (Option.map _) (hecho hu)
  | mde => exact congrArg (Option.map _) (hmde hu)

/-- A body that completes leaves every delay line there was, and every slot of it but, for a tick of that unit, the one at
the write cursor. -/
theorem bodyOf_done_keeps_line {i : Instr} {s t : State} {u : UnitKind} {d : DelayLine} (h : bodyOf i s = .done t)
    (hd : s.line u = some d) : ∃ d', t.line u = some d' ∧ d.Keeps (i.ticks && decide (u = i.unit)) d' := by
  by_cases hu : i.unit = u
  · subst hu
    rw [decide_eq_true rfl, Bool.and_true]
    rcases bodyOf_done_line h with ⟨-, hn⟩ | ⟨d₀, d', hd₀, hd', hk⟩
    · rw [hd] at hn; cases hn
    · obtain rfl : d = d₀ := Option.some.inj (hd.symm.trans hd₀)
      exact ⟨d', hd', hk⟩
  · exact ⟨d, (bodyOf_done_line_of_ne h hu).trans hd, .refl ..⟩

/-- Settles O51: a unit's delay line appears only by the unit's own command, and every command but NEW finds one there. -/
theorem onlyNewConstructs : Obligations.OnlyNewConstructs := by
  intro i s t u h hs ht
  rw [State.constructed_eq_line] at hs ht
  rcases exec_eq_next h with ⟨r, rfl⟩ | ⟨hok, hbody⟩
  · exact absurd (hs.symm.trans ht) Bool.false_ne_true
  · obtain rfl : i.unit = u := by
      by_contra hne
      rw [bodyOf_done_line_of_ne hbody hne, hs] at ht
      cases ht
    rcases bodyOf_done_line hbody with ⟨hnew, -⟩ | ⟨d, -, hd, -⟩
    · exact ⟨hnew, rfl, hok⟩
    · rw [hd] at hs; cases hs

/-- Settles O52: a buffer is that of its unit's delay line, which every command keeps. -/
theorem bufferFrame : Obligations.BufferFrame := by
  intro i s t u m h hm
  simp only [State.buffer_eq_line, State.writeCursor_eq_line] at hm ⊢
  obtain ⟨d, hd, rfl⟩ := Option.map_eq_some_iff.mp hm
  rcases exec_eq_next h with ⟨r, rfl⟩ | ⟨-, hbody⟩
  · exact ⟨d.buf, hm, fun _ _ => rfl⟩
  · obtain ⟨d', hd', hk⟩ := bodyOf_done_keeps_line hbody hd
    refine ⟨d'.buf, congrArg (Option.map _) hd', fun j hj => hk.slots j fun ⟨htick, hc⟩ => hj ?_⟩
    simp only [Bool.and_eq_true, decide_eq_true_eq] at htick
    exact ⟨htick.1, htick.2, (congrArg (Option.map _) hd).trans (congrArg some hc)⟩

/-! ### What a step can do to the units -/

/-- The four units are in `t` what they are in `s`. -/
structure State.SameUnits (s t : State) : Prop where
  fdl : t.fdl = s.fdl
  vdl : t.vdl = s.vdl
  echo : t.echo = s.echo
  mde : t.mde = s.mde

theorem State.SameUnits.line {s t : State} (h : s.SameUnits t) (u : UnitKind) : t.line u = s.line u := by
  cases u <;> simp only [State.line, h.fdl, h.vdl, h.echo, h.mde]

/-- Everything an illegal word can do to the units. -/
theorem performIllegal_sameUnits {w : Word} {s t : State} (h : performIllegal w s = .next t) : s.SameUnits t := by
  rcases perform_eq_next h with ⟨_, -, rfl⟩ | ⟨-, hbody⟩ | ⟨-, _, -, rfl⟩
  · exact ⟨rfl, rfl, rfl, rfl⟩
  · cases hbody
  · exact ⟨rfl, rfl, rfl, rfl⟩

/-- A register write that answers a next state leaves the units or completes a command. -/
theorem writeReg_eq_next {r : HostReg} {w : Word} {s t : State} (h : writeReg r w s = .next t) :
    s.SameUnits t ∨ ∃ i, bodyOf i s = .done t := by
  cases r with
  | cmd =>
    simp only [writeReg, issue] at h
    split at h
    · exact .inl (performIllegal_sameUnits h)
    · rcases exec_eq_next h with ⟨_, rfl⟩ | ⟨-, hbody⟩
      · exact .inl ⟨rfl, rfl, rfl, rfl⟩
      · exact .inr ⟨_, hbody⟩
  | operand _ | status | faultCmd | r0 | reserved => cases h; exact .inl ⟨rfl, rfl, rfl, rfl⟩

/-- A host action that answers a next state leaves the units, completes a command, or is a reset. -/
theorem performAction_eq_next {act : HostAction} {s t : State} (h : performAction act s = .next t) :
    s.SameUnits t ∨ (∃ i, bodyOf i s = .done t) ∨ (act = .reset ∧ t = resetPin s) := by
  cases act with
  | write k w => exact (writeReg_eq_next h).imp_right .inl
  | read k => cases h; exact .inl ⟨rfl, rfl, rfl, rfl⟩
  | busWrite addr bytes =>
    simp only [performAction] at h
    split at h
    · cases h
    · exact (writeReg_eq_next h).imp_right .inl
  | busRead addr size =>
    simp only [performAction] at h
    split at h
    · cases h
    · cases h; exact .inl ⟨rfl, rfl, rfl, rfl⟩
  | reset => cases h; exact .inr (.inr ⟨rfl, rfl⟩)

/-- A step that answers a next state leaves the units, completes a command, or is a reset. -/
theorem step_eq_next {s t : State} (h : step s = .next t) :
    s.SameUnits t ∨ (∃ i rest, bodyOf i { s with host := rest } = .done t) ∨
      (s.host.head? = some .reset ∧ ∃ rest, t = resetPin { s with host := rest }) := by
  cases hs : s.host with
  | nil => rw [step_nil hs] at h; cases h; exact .inl ⟨rfl, rfl, rfl, rfl⟩
  | cons act rest =>
    rw [step_cons hs] at h
    rcases performAction_eq_next h with hu | ⟨i, hbody⟩ | ⟨rfl, rfl⟩
    · exact .inl ⟨hu.fdl, hu.vdl, hu.echo, hu.mde⟩
    · exact .inr (.inl ⟨i, rest, hbody⟩)
    · exact .inr (.inr ⟨rfl, rest, rfl⟩)

/-! ### The lifetime of a unit (R20, R28, R62, R139) -/

/-- A body that completes leaves `base`, `lfo_index` and `depth` of an existing effect. -/
theorem bodyOf_done_keeps_mde {i : Instr} {s t : State} {m : MDEState} (h : bodyOf i s = .done t) (hm : s.mde = some m) :
    ∃ m', t.mde = some m' ∧ m'.base = m.base ∧ m'.lfoIndex = m.lfoIndex ∧ m'.depth = m.depth := by
  by_cases hu : i.unit = .mde
  · cases i with
    | mdeNew => obtain ⟨hn, -⟩ := mdeNewBody_done h; rw [hm] at hn; cases hn
    | mdeTick =>
      obtain ⟨m₀, _, m', hm₀, ht, rfl⟩ := mdeTickBody_done h
      obtain rfl : m = m₀ := Option.some.inj (hm.symm.trans hm₀)
      obtain ⟨hb, hl, hd, -⟩ := MDEState.tick_keeps ht
      exact ⟨m', rfl, hb, hl, hd⟩
    | _ => cases hu
  · obtain ⟨-, -, -, hother⟩ := bodyOf_done_units h
    exact ⟨m, (hother hu).trans hm, rfl, rfl, rfl⟩

/-- Until reset a step keeps every delay line there is, with its backing and its capacity. -/
theorem step_keeps_line {s t : State} {u : UnitKind} {d : DelayLine} (hr : s.host.head? ≠ some .reset)
    (h : step s = .next t) (hd : s.line u = some d) :
    ∃ d', t.line u = some d' ∧ d'.isVariable = d.isVariable ∧ d'.capacity = d.capacity := by
  rcases step_eq_next h with hu | ⟨i, rest, hbody⟩ | ⟨hreset, -⟩
  · exact ⟨d, (hu.line u).trans hd, rfl, rfl⟩
  · obtain ⟨d', hd', hk⟩ := bodyOf_done_keeps_line (s := { s with host := rest }) hbody (u := u) hd
    exact ⟨d', hd', hk.backing, hk.capacity⟩
  · exact absurd hreset hr

/-- Settles O55: capacity and backing are those of the unit's delay line, which every step but a reset keeps. -/
theorem lifetimeUntilReset : Obligations.LifetimeUntilReset := by
  intro s t hr h
  refine ⟨fun u N hN => ?_, fun e he => ?_, fun m hm => ?_⟩
  · rw [State.capacity_eq_line] at hN ⊢
    obtain ⟨d, hd, rfl⟩ := Option.map_eq_some_iff.mp hN
    obtain ⟨d', hd', -, hc⟩ := step_keeps_line hr h hd
    rw [hd', Option.map_some, hc]
  · obtain ⟨d', hd', hv, -⟩ := step_keeps_line (u := .echo) hr h (congrArg (Option.map _) he)
    obtain ⟨e', he', rfl⟩ := Option.map_eq_some_iff.mp hd'
    exact ⟨e', he', hv⟩
  · rcases step_eq_next h with hu | ⟨i, rest, hbody⟩ | ⟨hreset, -⟩
    · exact ⟨m, hu.mde.trans hm, rfl, rfl, rfl⟩
    · exact bodyOf_done_keeps_mde hbody hm
    · exact absurd hreset hr

/-! ### The invariants (R22, R23, R25, R26) -/

theorem EchoState.tick_inv {nan : Nat → Word} {e e' : EchoState} {x out : Word} (he : e.Inv)
    (h : e.tick nan x = some (out, e')) : e'.Inv := by
  obtain ⟨_, _, ht, hi, -⟩ := EchoState.tick_of_inv nan x he
  cases ht.symm.trans h; exact hi

theorem MDEState.tick_inv {nan : Nat → Word} {m m' : MDEState} {osc x out : Word} (hm : m.Inv)
    (h : m.tick nan osc x = some (out, m')) : m'.Inv := by
  obtain ⟨_, _, ht, hi⟩ := MDEState.tick_of_inv nan osc x hm
  cases ht.symm.trans h; exact hi

/-- The invariants ask something of each unit there is: of the one, where there is one. -/
theorem forall_mem_some {α : Type} {p : α → Prop} {a : α} (h : p a) : ∀ x ∈ some a, p x := by
  rintro _ ⟨⟩; exact h

/-- Settles O46: there is no unit to ask anything of. -/
theorem resetMeetsInvariant : Obligations.ResetMeetsInvariant := ⟨nofun, nofun, nofun, nofun⟩

theorem State.SameUnits.inv {s t : State} (h : s.SameUnits t) (hs : s.Inv) : t.Inv := by
  rwa [State.Inv, h.fdl, h.vdl, h.echo, h.mde]

/-- A body that completes keeps the invariants: a NEW command checks what they ask of a fresh unit, a setter what they ask
of the word it stores, and a tick moves each cursor modulo the capacity. -/
theorem bodyOf_done_inv {i : Instr} {s t : State} (hs : s.Inv) (h : bodyOf i s = .done t) : t.Inv := by
  obtain ⟨hf, hv, he, hm⟩ := hs
  cases i with
  | fdlNew =>
    obtain ⟨-, h1, hcap, rfl⟩ := fdlNewBody_done h
    exact ⟨forall_mem_some (FDLState.new_inv h1 hcap), hv, he, hm⟩
  | fdlTick =>
    obtain ⟨f, _, f', hfs, ht, rfl⟩ := fdlTickBody_done h
    exact ⟨forall_mem_some (FDLState.tick_inv (hf f hfs) ht), hv, he, hm⟩
  | fdlRead => obtain ⟨_, _, -, -, rfl⟩ := fdlReadBody_done h; exact ⟨hf, hv, he, hm⟩
  | vdlNew =>
    obtain ⟨-, h1, hcap, ho, rfl⟩ := vdlNewBody_done h
    exact ⟨hf, forall_mem_some (VDLState.new_inv h1 hcap ho), he, hm⟩
  | vdlTick =>
    obtain ⟨v, _, v', hvs, ht, rfl⟩ := vdlTickBody_done h
    exact ⟨hf, forall_mem_some (VDLState.tick_inv (hv v hvs) ht), he, hm⟩
  | vdlRead => obtain ⟨_, _, -, -, rfl⟩ := vdlReadBody_done h; exact ⟨hf, hv, he, hm⟩
  | vdlSetoff =>
    obtain ⟨v, hvs, ho, rfl⟩ := vdlSetoffBody_done h
    exact ⟨hf, forall_mem_some (VDLState.setOffset_inv (hv v hvs) ho), he, hm⟩
  | echoNewf =>
    obtain ⟨-, h1, hcap, hu, hmix, rfl⟩ := echoNewfBody_done h
    exact ⟨hf, hv, forall_mem_some ⟨DelayLine.inv_fixed.mpr (FDLState.new_inv h1 hcap), hu, hmix⟩, hm⟩
  | echoNewv =>
    obtain ⟨-, h1, hcap, hu, hmix, rfl⟩ := echoNewvBody_done h
    have hline := VDLState.new_inv h1 hcap (Nat.sub_one_lt_of_lt h1)
    exact ⟨hf, hv, forall_mem_some ⟨DelayLine.inv_variable.mpr hline, hu, hmix⟩, hm⟩
  | echoTick =>
    obtain ⟨e, _, e', hes, ht, rfl⟩ := echoTickBody_done h
    exact ⟨hf, hv, forall_mem_some (EchoState.tick_inv (he e hes) ht), hm⟩
  | echoSetdly =>
    obtain ⟨e, v, hes, hvs, ho, rfl⟩ := echoSetdlyBody_done h
    obtain ⟨hline, hcoeff⟩ := he e hes
    have hvi : v.Inv := DelayLine.inv_variable.mp (hvs ▸ hline)
    exact ⟨hf, hv, forall_mem_some ⟨DelayLine.inv_variable.mpr (VDLState.setOffset_inv hvi ho), hcoeff⟩, hm⟩
  | echoSetfb =>
    obtain ⟨e, hes, hu, rfl⟩ := echoSetfbBody_done h
    obtain ⟨hline, -, hmix⟩ := he e hes
    exact ⟨hf, hv, forall_mem_some ⟨hline, hu, hmix⟩, hm⟩
  | echoSetmix =>
    obtain ⟨e, hes, hmix, rfl⟩ := echoSetmixBody_done h
    obtain ⟨hline, hu, -⟩ := he e hes
    exact ⟨hf, hv, forall_mem_some ⟨hline, hu, hmix⟩, hm⟩
  | mdeNew =>
    obtain ⟨-, hb, hu, hmix, rfl⟩ := mdeNewBody_done h
    have hline := VDLState.new_inv (Nat.le_add_left 1 _) (Nat.add_le_of_le_sub (by decide) hb) (Nat.lt_succ_self _)
    exact ⟨hf, hv, he, forall_mem_some ⟨hb, ⟨DelayLine.inv_variable.mpr hline, hu, hmix⟩, rfl, rfl⟩⟩
  | mdeTick =>
    obtain ⟨m, _, m', hms, ht, rfl⟩ := mdeTickBody_done h
    exact ⟨by simpa using hf, by simpa using hv, by simpa using he, forall_mem_some (MDEState.tick_inv (hm m hms) ht)⟩

/-- Settles O47: a step leaves the units, completes a command's body, or resets. -/
theorem stepKeepsInvariant : Obligations.StepKeepsInvariant := by
  intro s t hs h
  rcases step_eq_next h with hu | ⟨i, rest, hbody⟩ | ⟨-, rest, rfl⟩
  · exact hu.inv hs
  · exact bodyOf_done_inv (s := { s with host := rest }) hs hbody
  · exact resetMeetsInvariant

end Sys2Proof.Machine
end

section
/-! PROOFS. The statements about the bus binding (R52, R53) and about what stops the model (R51, R156). -/

namespace Sys2Proof.Machine

/-! ### The byte-bus binding (R52, R53) -/

/-- Four bytes at the address of register `k` name that register. -/
theorem busReg_aligned (k : Nat) : busReg (Config.regBase + 4 * k) 4 = .ok (HostReg.ofNumber k) := by
  simp [busReg]

theorem busReg_narrow {addr size : Nat} (hbase : Config.regBase ≤ addr) (hsize : size ≠ 4) :
    busReg addr size = .error .narrowAccess := by
  simp [busReg, hbase.not_gt, hsize]

theorem busReg_misaligned {addr : Nat} (hbase : Config.regBase ≤ addr) (halign : (addr - Config.regBase) % 4 ≠ 0) :
    busReg addr 4 = .error .misalignedAccess := by
  simp [busReg, hbase.not_gt, halign]

/-- Little-endian, bit by bit: the first byte is least significant. -/
theorem wordOfBytes_four (b0 b1 b2 b3 : Byte) : wordOfBytes [b0, b1, b2, b3] = b3 ++ b2 ++ b1 ++ b0 := by
  ext i hi
  simp only [wordOfBytes, BitVec.truncate_eq_setWidth, BitVec.ofNat_eq_ofNat, BitVec.zero_shiftLeft, BitVec.or_zero,
    BitVec.getElem_or, BitVec.getElem_setWidth, BitVec.getElem_shiftLeft]
  grind

/-- A bus write at a register's address is the host's write of that register. -/
theorem performAction_busWrite {addr : Nat} {bytes : List Byte} {reg : HostReg} (h : busReg addr bytes.length = .ok reg)
    (s : State) : performAction (.busWrite addr bytes) s = writeReg reg (wordOfBytes bytes) s := by
  rw [performAction, h]

theorem performAction_busRead {addr size : Nat} {reg : HostReg} (h : busReg addr size = .ok reg) (s : State) :
    performAction (.busRead addr size) s = .next (s.reply (.bytes (bytesOfWord (s.readReg reg)))) := by
  rw [performAction, h]

theorem performAction_busWrite_refused {addr : Nat} {bytes : List Byte} {r : Refusal}
    (h : busReg addr bytes.length = .error r) (s : State) : performAction (.busWrite addr bytes) s = .refused r := by
  rw [performAction, h]

theorem performAction_busRead_refused {addr size : Nat} {r : Refusal} (h : busReg addr size = .error r) (s : State) :
    performAction (.busRead addr size) s = .refused r := by
  rw [performAction, h]

/-- Settles O8: by what `busReg` answers to the access. -/
theorem busAccessIsWholeWords : Obligations.BusAccessIsWholeWords := by
  intro s rest
  refine ⟨fun k b0 b1 b2 b3 => ?_, fun k => ?_, fun addr bytes hbase => ⟨fun hsize => ?_, fun ⟨hsize, halign⟩ => ?_⟩⟩
  · rw [step_cons rfl, step_cons rfl, performAction_busWrite (busReg_aligned k), wordOfBytes_four, performAction]
  · exact ⟨s.readReg (HostReg.ofNumber k), (step_cons rfl).trans rfl,
      (step_cons rfl).trans (performAction_busRead (busReg_aligned k) _)⟩
  · have h := busReg_narrow hbase hsize
    exact ⟨(step_cons rfl).trans (performAction_busRead_refused h _),
      (step_cons rfl).trans (performAction_busWrite_refused h _)⟩
  · have h := busReg_misaligned hbase halign
    exact ⟨(step_cons rfl).trans (performAction_busRead_refused h _),
      (step_cons rfl).trans (performAction_busWrite_refused (hsize ▸ h) _)⟩

/-! ### What stops the model (R51, R156) -/

/-- From a state that meets the invariants a TICK or READ of a constructed unit completes. -/
theorem bodyOf_completes {i : Instr} {s : State} (hs : s.Inv) (hw : i.writesR0 = true)
    (hc : s.constructed i.unit = true) : ∃ t, bodyOf i s = .done t := by
  obtain ⟨hf, hv, he, hm⟩ := hs
  cases i with
  | fdlTick =>
    obtain ⟨f, hfs⟩ := Option.isSome_iff_exists.mp hc
    obtain ⟨-, -, hidx, -⟩ := hf f hfs
    exact ⟨_, by simp only [bodyOf, fdlTickBody, hfs, FDLState.tick_of_lt f _ hidx]; rfl⟩
  | fdlRead =>
    obtain ⟨f, hfs⟩ := Option.isSome_iff_exists.mp hc
    obtain ⟨-, -, hidx, -⟩ := hf f hfs
    exact ⟨_, by simp only [bodyOf, fdlReadBody, hfs, FDLState.peek_of_lt f hidx]; rfl⟩
  | vdlTick =>
    obtain ⟨v, hvs⟩ := Option.isSome_iff_exists.mp hc
    obtain ⟨-, -, hw, -⟩ := hv v hvs
    exact ⟨_, by simp only [bodyOf, vdlTickBody, hvs, VDLState.tick_of_lt v _ hw]; rfl⟩
  | vdlRead =>
    obtain ⟨v, hvs⟩ := Option.isSome_iff_exists.mp hc
    obtain ⟨-, -, -, hr, -⟩ := hv v hvs
    exact ⟨_, by simp only [bodyOf, vdlReadBody, hvs, VDLState.peek_of_lt v hr]; rfl⟩
  | echoTick =>
    obtain ⟨e, hes⟩ := Option.isSome_iff_exists.mp hc
    obtain ⟨_, _, ht, -⟩ := EchoState.tick_of_inv (nanDraw s.draws) (s.opF 0) (he e hes)
    exact ⟨_, by simp only [bodyOf, echoTickBody, hes, ht]; rfl⟩
  | mdeTick =>
    obtain ⟨m, hms⟩ := Option.isSome_iff_exists.mp hc
    obtain ⟨-, -, hvar, -⟩ := hm m hms
    obtain ⟨_, _, ht, -⟩ := MDEState.tick_of_inv (nanDraw s.draws) (oscExchange (s.opF 0) s).1 (s.opF 0) (hm m hms)
    exact ⟨_, by simp only [bodyOf, mdeTickBody, hms, hvar, ht]; rfl⟩
  | fdlNew | vdlNew | vdlSetoff | echoNewf | echoSetdly | echoSetfb | echoSetmix | echoNewv | mdeNew => cases hw

/-- A TICK or READ of an unconstructed unit raises the configuration fault NOT_CONSTRUCTED. -/
theorem bodyOf_notConstructed {i : Instr} {s : State} (hw : i.writesR0 = true) (hc : ¬s.constructed i.unit = true) :
    bodyOf i s = .raise .notConstructed := by
  cases i with
  | fdlTick => simp only [bodyOf, fdlTickBody, Option.not_isSome_iff_eq_none.mp hc]
  | fdlRead => simp only [bodyOf, fdlReadBody, Option.not_isSome_iff_eq_none.mp hc]
  | vdlTick => simp only [bodyOf, vdlTickBody, Option.not_isSome_iff_eq_none.mp hc]
  | vdlRead => simp only [bodyOf, vdlReadBody, Option.not_isSome_iff_eq_none.mp hc]
  | echoTick => simp only [bodyOf, echoTickBody, Option.not_isSome_iff_eq_none.mp hc]
  | mdeTick => simp only [bodyOf, mdeTickBody, Option.not_isSome_iff_eq_none.mp hc]
  | fdlNew | vdlNew | vdlSetoff | echoNewf | echoSetdly | echoSetfb | echoSetmix | echoNewv | mdeNew => cases hw

theorem newEcho_ne_stop (backing : Nat → DelayLine) (s : State) (f : Fault) : newEcho backing s ≠ .stop f := by
  grind [newEcho]

/-- A NEW command or a setter forms no slot address, so its body never stops, in any state. -/
theorem bodyOf_ne_stop_of_not_writesR0 {i : Instr} (hw : i.writesR0 = false) (s : State) (f : Fault) :
    bodyOf i s ≠ .stop f := by
  cases i with
  | fdlNew => simp only [bodyOf]; grind [fdlNewBody]
  | vdlNew => simp only [bodyOf]; grind [vdlNewBody]
  | vdlSetoff => simp only [bodyOf]; grind [vdlSetoffBody]
  | echoNewf => exact newEcho_ne_stop (fun N => .fixedLine (FDLState.new N)) s f
  | echoNewv => exact newEcho_ne_stop (fun N => .variableLine (VDLState.new N (N - 1))) s f
  | echoSetdly => simp only [bodyOf]; grind [echoSetdlyBody]
  | echoSetfb => simp only [bodyOf]; grind [echoSetfbBody]
  | echoSetmix => simp only [bodyOf]; grind [echoSetmixBody]
  | mdeNew => simp only [bodyOf]; grind [mdeNewBody]
  | fdlTick | fdlRead | vdlTick | vdlRead | echoTick | mdeTick => cases hw

/-- From a state that meets the invariants no body stops. -/
theorem bodyOf_ne_stop {s : State} (hs : s.Inv) (i : Instr) (f : Fault) : bodyOf i s ≠ .stop f := by
  cases hw : i.writesR0 with
  | false => exact bodyOf_ne_stop_of_not_writesR0 hw s f
  | true =>
    by_cases hc : s.constructed i.unit = true
    · obtain ⟨t, ht⟩ := bodyOf_completes hs hw hc; rw [ht]; nofun
    · rw [bodyOf_notConstructed hw hc]; nofun

/-- A command whose body does not stop answers a next state. -/
theorem perform_answers {body : State → Effect} {s : State} (hb : ∀ f, body s ≠ .stop f) (w : Word) :
    ∃ t, perform w body s = .next t := by
  cases h : perform w body s with
  | next t => exact ⟨t, rfl⟩
  | fault f => exact absurd (perform_eq_fault h).2 (hb f)
  | refused r => exact absurd h perform_ne_refused

/-- From a state that meets the invariants every register write answers a next state. -/
theorem writeReg_answers {s : State} (hs : s.Inv) (r : HostReg) (w : Word) : ∃ t, writeReg r w s = .next t := by
  cases r with
  | cmd =>
    simp only [writeReg, issue]
    split
    · exact perform_answers (by intro _ h; cases h) w
    · rw [exec_eq_perform]; exact perform_answers (bodyOf_ne_stop hs _) _
  | operand _ | status | faultCmd | r0 | reserved => exact ⟨_, rfl⟩

/-- Settles O48: only the bus binding refuses, and only a command's body could stop. -/
theorem stepNeverStops : Obligations.StepNeverStops := by
  intro s hs
  cases hhost : s.host with
  | nil => exact .inl ⟨s, step_nil hhost⟩
  | cons act rest =>
    rw [step_cons hhost]
    have hs' : State.Inv { s with host := rest } := hs
    cases act with
    | write k w => exact .inl (writeReg_answers hs' _ w)
    | read k => exact .inl ⟨_, rfl⟩
    | busWrite addr bytes =>
      cases hreg : busReg addr bytes.length with
      | ok reg => rw [performAction_busWrite hreg]; exact .inl (writeReg_answers hs' reg _)
      | error r =>
        exact .inr ⟨r, addr, _, hreg, performAction_busWrite_refused hreg _, .inr ⟨bytes, rfl, rfl⟩⟩
    | busRead addr size =>
      cases hreg : busReg addr size with
      | ok reg => exact .inl ⟨_, performAction_busRead hreg _⟩
      | error r => exact .inr ⟨r, addr, size, hreg, performAction_busRead_refused hreg _, .inl rfl⟩
    | reset => exact .inl ⟨_, rfl⟩

end Sys2Proof.Machine
end

section
/-! PROOFS. The statements about the command word (R71 to R75), about the operand registers a command reads (R72) and about a
line of the textual form (R77). -/

namespace Sys2Proof.Machine

/-! ### The command word (R71 to R75) -/

/-- Format CW (R71): the three fields are the whole word. -/
theorem fields_append (w : Word) : unitField w ++ funcField w ++ zeroField w = w := by
  ext i hi
  simp only [unitField, funcField, zeroField, BitVec.getElem_append, BitVec.getElem_extractLsb']
  grind

/-- A word with the UNIT and FUNC of a command and ZERO clear is that command's word. -/
theorem eq_encode_of_fields {w : Word} {i : Instr} (hzero : zeroField w = 0) (hunit : unitField w = unitCode i.unit)
    (hfunc : funcField w = funcCode i) : w = encode i := by
  rw [encode, ← hunit, ← hfunc, ← hzero, fields_append]

/-! The rows of R75 for one unit: FUNC tells the command. -/

theorem decodeFdl_eq_ok {f : BitVec 4} {i : Instr} (h : decodeFdl f.toNat = .ok i) :
    i.unit = .fdl ∧ f = funcCode i := by
  unfold decodeFdl at h
  split_ifs at h with hf hf hf <;> cases h <;> exact ⟨rfl, BitVec.eq_of_toNat_eq hf⟩

theorem decodeVdl_eq_ok {f : BitVec 4} {i : Instr} (h : decodeVdl f.toNat = .ok i) :
    i.unit = .vdl ∧ f = funcCode i := by
  unfold decodeVdl at h
  split_ifs at h with hf hf hf hf <;> cases h <;> exact ⟨rfl, BitVec.eq_of_toNat_eq hf⟩

theorem decodeEcho_eq_ok {f : BitVec 4} {i : Instr} (h : decodeEcho f.toNat = .ok i) :
    i.unit = .echo ∧ f = funcCode i := by
  unfold decodeEcho at h
  split_ifs at h with hf hf hf hf hf hf <;> cases h <;> exact ⟨rfl, BitVec.eq_of_toNat_eq hf⟩

theorem decodeMde_eq_ok {f : BitVec 4} {i : Instr} (h : decodeMde f.toNat = .ok i) :
    i.unit = .mde ∧ f = funcCode i := by
  unfold decodeMde at h
  split_ifs at h with hf hf <;> cases h <;> exact ⟨rfl, BitVec.eq_of_toNat_eq hf⟩

/-- Everything `decode` can have found in a word that it takes for a command. -/
theorem decode_eq_ok_fields {w : Word} {i : Instr} (h : decode w = .ok i) :
    zeroField w = 0 ∧ unitField w = unitCode i.unit ∧ funcField w = funcCode i := by
  unfold decode at h
  split_ifs at h with hzero hfdl hvdl hecho hmde
  · obtain ⟨hu, hf⟩ := decodeFdl_eq_ok h
    exact ⟨not_not.mp hzero, by rw [hfdl, hu]; rfl, hf⟩
  · obtain ⟨hu, hf⟩ := decodeVdl_eq_ok h
    exact ⟨not_not.mp hzero, by rw [hvdl, hu]; rfl, hf⟩
  · obtain ⟨hu, hf⟩ := decodeEcho_eq_ok h
    exact ⟨not_not.mp hzero, by rw [hecho, hu]; rfl, hf⟩
  · obtain ⟨hu, hf⟩ := decodeMde_eq_ok h
    exact ⟨not_not.mp hzero, by rw [hmde, hu]; rfl, hf⟩

/-- Settles O2: the fields `decode` has read are those of the command, and they are the whole word. -/
theorem decodeInvertsEncode : Obligations.DecodeInvertsEncode := by
  intro w i
  constructor
  · intro h
    obtain ⟨hzero, hunit, hfunc⟩ := decode_eq_ok_fields h
    exact eq_encode_of_fields hzero hunit hfunc
  · rintro rfl
    exact decode_encode i

/-- Settles O1: the fifteen words are the encodings; the three others fail on FUNC, on UNIT and on ZERO. -/
theorem commandWordsOfTheMap : Obligations.CommandWordsOfTheMap :=
  ⟨decode_encode .fdlNew, decode_encode .fdlTick, decode_encode .fdlRead, decode_encode .vdlNew, decode_encode .vdlTick,
    decode_encode .vdlRead, decode_encode .vdlSetoff, decode_encode .echoNewf, decode_encode .echoTick,
    decode_encode .echoSetdly, decode_encode .echoSetfb, decode_encode .echoSetmix, decode_encode .echoNewv,
    decode_encode .mdeNew, decode_encode .mdeTick, by decide, by decide, by decide⟩

/-- R74: a word that is no command's word is illegal. -/
theorem decode_illegal {w : Word} (h : ∀ i, w ≠ encode i) : ∃ e, decode w = .error e := by
  cases hd : decode w with
  | ok i => exact absurd ((decodeInvertsEncode w i).mp hd) (h i)
  | error e => exact ⟨e, rfl⟩

/-- Settles O5: such a word does not decode, and a command that only raises enters the fault. -/
theorem illegalWordFaults : Obligations.IllegalWordFaults := by
  intro s rest w hhost hready hw
  obtain ⟨e, he⟩ := decode_illegal hw
  rw [step_cons hhost, performAction, HostReg.ofNumber, writeReg, issue, he]
  exact perform_raise hready rfl

/-! ### The operand registers a command reads (R72) -/

/-- A change of the state that keeps the fault record and commutes with fault entry commutes with a command when it does with
the command's body. -/
theorem perform_map {f : State → State} {w : Word} {body : State → Effect} {s : State} (hfault : (f s).fault = s.fault)
    (henter : ∀ c, enterFault c w (f s) = f (enterFault c w s)) (hbody : body (f s) = (body s).mapDone f) :
    perform w body (f s) = mapNext f (perform w body s) := by
  cases hs : s.fault with
  | some r => rw [perform_faulted hs, perform_faulted (hfault.trans hs)]; rfl
  | none =>
    rw [perform_ready hs, perform_ready (hfault.trans hs), hbody]
    cases body s with
    | done t | stop e => rfl
    | raise c => exact congrArg _ (henter c)

/-- The state with other operand registers. -/
def State.withOperands (a : OperandRegs) (s : State) : State := { s with a := a }

section
variable (a : OperandRegs) (s : State)

@[simp] theorem State.withOperands_fdl : (s.withOperands a).fdl = s.fdl := rfl
@[simp] theorem State.withOperands_vdl : (s.withOperands a).vdl = s.vdl := rfl
@[simp] theorem State.withOperands_echo : (s.withOperands a).echo = s.echo := rfl
@[simp] theorem State.withOperands_mde : (s.withOperands a).mde = s.mde := rfl
@[simp] theorem State.withOperands_draws : (s.withOperands a).draws = s.draws := rfl

theorem oscExchange_withOperands (x : Word) : oscExchange x (s.withOperands a) =
    ((oscExchange x s).1, (oscExchange x s).2.withOperands a) := by
  unfold oscExchange; cases h : s.oscIn <;> simp only [State.withOperands, h]

end

/-- With the operand registers of its row unchanged a body takes the same branch and completes in the same state but for the
operand registers. -/
theorem bodyOf_withOperands {i : Instr} {a : OperandRegs} {s : State}
    (h : ∀ k : Fin 6, k.val < i.operands.length → a.get k = s.a.get k) :
    bodyOf i (s.withOperands a) = (bodyOf i s).mapDone (State.withOperands a) := by
  have hF : ∀ k : Fin 6, k.val < i.operands.length → (s.withOperands a).opF k = s.opF k := h
  have hU : ∀ k : Fin 6, k.val < i.operands.length → (s.withOperands a).opU k = s.opU k :=
    fun k hk => congrArg BitVec.toNat (h k hk)
  cases i with
  | fdlNew | vdlNew | mdeNew | vdlSetoff | echoSetfb | echoSetmix | echoNewf | echoNewv =>
    simp (disch := decide) only [bodyOf, fdlNewBody, vdlNewBody, mdeNewBody, vdlSetoffBody, echoSetfbBody, echoSetmixBody,
      echoNewfBody, echoNewvBody, newEcho, State.withOperands_fdl, State.withOperands_vdl, State.withOperands_echo,
      State.withOperands_mde, hF, hU]
    split
    · rfl
    · simp only [Effect.mapDone_ite]; rfl
  | echoSetdly =>
    simp (disch := decide) only [bodyOf, echoSetdlyBody, State.withOperands_echo, hU]
    split
    · rfl
    · split
      · rfl
      · simp only [Effect.mapDone_ite]; rfl
  | fdlTick | fdlRead | vdlTick | vdlRead | echoTick =>
    simp (disch := decide) only [bodyOf, fdlTickBody, fdlReadBody, vdlTickBody, vdlReadBody, echoTickBody,
      State.withOperands_fdl, State.withOperands_vdl, State.withOperands_echo, State.withOperands_draws, hF]
    split
    · rfl
    · split <;> rfl
  | mdeTick =>
    simp (disch := decide) only [bodyOf, mdeTickBody, State.withOperands_mde, State.withOperands_draws, hF,
      oscExchange_withOperands]
    split
    · rfl
    · split_ifs
      · rfl
      · split <;> rfl

/-- Settles O54: fault entry does not touch the operand registers, and the body reads those of its row only. -/
theorem onlyNamedOperandsAreRead : Obligations.OnlyNamedOperandsAreRead := by
  intro i s a h
  rw [exec_eq_perform, exec_eq_perform]
  exact perform_map (f := State.withOperands a) rfl (fun _ => rfl) (bodyOf_withOperands h)

/-! ### A line of the textual form (R72, R77) -/

theorem Literal.allFit_length {ts : List OperandType} {ls : List Literal} (h : Literal.allFit ts ls = true) :
    ls.length = ts.length := by
  induction ts generalizing ls with
  | nil => cases ls with
    | nil => rfl
    | cons l ls => cases h
  | cons t ts ih => cases ls with
    | nil => cases h
    | cons l ls =>
      rw [Literal.allFit, Bool.and_eq_true] at h
      rw [List.length_cons, List.length_cons, ih h.2]

/-- No row of R72 names more than the six operand registers. -/
theorem operands_length_le (i : Instr) : i.operands.length ≤ 6 := by cases i <;> decide

theorem Line.wf_args_length {l : Line} (h : l.wf = true) : l.args.length ≤ 6 := by
  rw [Line.wf, Bool.and_eq_true] at h
  exact (Literal.allFit_length h.1).trans_le (operands_length_le _)

/-- The operand registers after the words of these literals are written to A`k`, A`k+1`, … in turn. -/
def OperandRegs.setArgs : Nat → List Literal → OperandRegs → OperandRegs
  | _, [], r => r
  | k, l :: ls, r => OperandRegs.setArgs (k + 1) ls (r.set (Fin.ofNat 6 k) (literalWord l))

theorem OperandRegs.get_setArgs (ls : List Literal) (k : Nat) (r : OperandRegs) (hk : k + ls.length ≤ 6) (j : Fin 6) :
    (r.setArgs k ls).get j = if k ≤ j.val then (ls[j.val - k]?.map literalWord).getD (r.get j) else r.get j := by
  induction ls generalizing k r with
  | nil => simp [OperandRegs.setArgs]
  | cons l ls ih =>
    rw [List.length_cons] at hk
    have hval : (Fin.ofNat 6 k).val = k := Nat.mod_eq_of_lt (by omega)
    rw [OperandRegs.setArgs, ih _ _ (by omega)]
    by_cases hj : j = Fin.ofNat 6 k
    · subst hj
      rw [if_neg (by omega), OperandRegs.get_set_same, if_pos hval.ge, hval, Nat.sub_self]
      rfl
    · have hne : j.val ≠ k := fun h => hj (Fin.ext (h.trans hval.symm))
      rw [OperandRegs.get_set_other _ _ _ _ hj]
      by_cases hlt : k + 1 ≤ j.val
      · rw [if_pos hlt, if_pos (by omega), show j.val - k = j.val - (k + 1) + 1 by omega, List.getElem?_cons_succ]
      · rw [if_neg hlt, if_neg (by omega)]

/-- R29: A0 is register 8. -/
theorem step_writeOperand {s : State} {k : Nat} {w : Word} {rest : List HostAction} (hk : k < 6)
    (h : s.host = .write (8 + k) w :: rest) :
    step s = .next { s with a := s.a.set (Fin.ofNat 6 k) w, host := rest } := by
  rw [step_cons h, performAction]
  interval_cases k <;> rfl

/-- The operand writes of a line, the host's oldest actions, put its words in A`k`, A`k+1`, …, one step each (R77). -/
theorem run_lineOperands {ls : List Literal} {k : Nat} {s : State} {rest : List HostAction}
    (h : s.host = operandWrites k ls ++ rest) (hk : k + ls.length ≤ 6) (n : Nat) :
    Host.Core.run core (n + ls.length) s = Host.Core.run core n { s with a := s.a.setArgs k ls, host := rest } := by
  induction ls generalizing k s with
  | nil =>
    have hrest : s.host = rest := h
    subst hrest; rfl
  | cons l ls ih =>
    rw [List.length_cons] at hk
    exact (run_of_step core (n + ls.length) (step_writeOperand (by omega) h)).trans (ih rfl (by omega))

theorem run_one (M : Host.Core) (s : M.State) : M.run 1 s = M.step s := by
  rw [Host.Core.run]; cases M.step s <;> rfl

/-- One line loaded into a state with nothing pending. -/
theorem load_line {s : State} (h : s.host = []) (l : Line) : State.load [l] s =
    { s with host := lineActions l, oscIn := s.oscIn ++ (l.osc.map literalWord).toList } := by
  cases ho : l.osc <;> simp [State.load, h, ho]

/-- Settles O57: the operand writes, one step each, then the command word. -/
theorem lineRunsItsCommand : Obligations.LineRunsItsCommand := by
  intro l s hwf hhost
  have hlen : 0 + l.args.length ≤ 6 := by rw [Nat.zero_add]; exact Line.wf_args_length hwf
  refine ⟨s.a.setArgs 0 l.args, fun k => ?_, ?_⟩
  · rw [OperandRegs.get_setArgs _ _ _ hlen, if_pos (Nat.zero_le _), Nat.sub_zero]
  · rw [load_line hhost, Nat.add_comm, hhost]
    exact (run_lineOperands rfl hlen 1).trans ((run_one core _).trans (step_writeCmd rfl))

end Sys2Proof.Machine
end

section
/-! PROOFS. The statements about the fixed delay line (R90 to R93), with what one command and a program of commands leave. -/

namespace Sys2Proof.Machine

/-! ### A command from what its body comes to -/

theorem raises_of_body {i : Instr} {c : Cause} {s : State} (hready : s.fault = none) (hbody : bodyOf i s = .raise c) :
    raises i c s := (exec_eq_perform i s).trans (perform_raise hready hbody)

theorem exec_of_body_done {i : Instr} {s t : State} (hready : s.fault = none) (hbody : bodyOf i s = .done t) :
    exec i s = .next t := (exec_eq_perform i s).trans (perform_done hready hbody)

/-! ### FDL.NEW (R90) -/

theorem fdlNewBody_of_constructed {s : State} (h : s.fdl ≠ none) : fdlNewBody s = .raise .alreadyConstructed := by
  obtain ⟨f, hf⟩ := Option.ne_none_iff_exists'.mp h
  rw [fdlNewBody, hf]

theorem fdlNewBody_of_not_constructed {s : State} (h : s.fdl = none) :
    fdlNewBody s = if badCapacity s.a.a0.toNat then .raise .badCapacity
      else .done { s with fdl := some (FDLState.new s.a.a0.toNat) } := by
  rw [fdlNewBody, h]; rfl

/-- Settles O16: the body of FDL.NEW looks at the unit, then at the capacity. -/
theorem fdlNewConstructs : Obligations.FdlNewConstructs := by
  intro s hready
  refine ⟨fun hc => raises_of_body hready (fdlNewBody_of_constructed hc), fun hn hbad => ?_, fun hn h1 hcap => ?_⟩
  · refine raises_of_body hready ((fdlNewBody_of_not_constructed hn).trans (if_pos ?_))
    exact badCapacity_eq_true.mpr hbad
  · refine ⟨FDLState.new s.a.a0.toNat, exec_of_body_done hready ?_, rfl, rfl, fun j hj => bufRead_of_lt _ hj⟩
    exact (fdlNewBody_of_not_constructed hn).trans (if_neg (by simp [badCapacity_eq_false.mpr ⟨h1, hcap⟩]))

/-! ### FDL.TICK and FDL.READ (R91, R92) -/

theorem fdlTickBody_of_lt {s : State} {f : FDLState} (hf : s.fdl = some f) (hi : f.index < f.N) :
    fdlTickBody s = .done
      (State.setR0 { s with fdl := some { f with buf := f.buf.set f.index s.a.a0, index := (f.index + 1) % f.N } }
        (f.buf.get f.index)) := by
  simp only [fdlTickBody, hf, State.opF_0, FDLState.tick_of_lt f _ hi]

theorem fdlReadBody_of_lt {s : State} {f : FDLState} (hf : s.fdl = some f) (hi : f.index < f.N) :
    fdlReadBody s = .done (s.setR0 (f.buf.get f.index)) := by
  simp only [fdlReadBody, hf, FDLState.peek_of_lt f hi]

theorem fdlReadBody_raise {s : State} {c : Cause} (h : fdlReadBody s = .raise c) : s.fdl = none := by
  unfold fdlReadBody at h
  split at h
  · assumption
  · split at h <;> cases h

theorem State.not_constructed_fdl {s : State} (h : s.fdl = none) : ¬s.constructed .fdl = true := by
  simp [State.constructed, h]

/-- Settles O17: R22 puts the cursor in the buffer, where the tick reads and writes one slot. -/
theorem fdlTickReadsThenWrites : Obligations.FdlTickReadsThenWrites := by
  intro s hready
  refine ⟨fun hn => raises_of_body hready (bodyOf_notConstructed rfl (State.not_constructed_fdl hn)), fun f hf hinv => ?_⟩
  obtain ⟨-, -, hi, hwf, -⟩ := hinv
  exact ⟨f.buf.set f.index s.a.a0, exec_of_body_done hready (fdlTickBody_of_lt hf hi), Memory.get_set_same _ _ _ hwf,
    fun j hj => Memory.get_set_other _ _ _ _ hj⟩

/-- Settles O18: a cursor in the buffer peeks its slot. -/
theorem fdlReadPeeks : Obligations.FdlReadPeeks := fun _ hready =>
  ⟨fun hn => raises_of_body hready (bodyOf_notConstructed rfl (State.not_constructed_fdl hn)),
    fun _ hf hi => exec_of_body_done hready (fdlReadBody_of_lt hf hi)⟩

/-- FDL.READ of a constructed unit that answers a next state had its cursor in the buffer. -/
theorem exec_fdlRead_eq_next {s t : State} (hready : s.fault = none) (hc : s.fdl ≠ none)
    (h : exec .fdlRead s = .next t) :
    ∃ f, s.fdl = some f ∧ f.index < f.N ∧ t = { s with r0 := f.buf.get f.index } := by
  rw [exec_eq_perform] at h
  rcases perform_eq_next h with ⟨r, hr, -⟩ | ⟨-, hbody⟩ | ⟨-, c, hbody, -⟩
  · rw [hready] at hr; cases hr
  · obtain ⟨f, out, hf, hp, rfl⟩ := fdlReadBody_done hbody
    obtain ⟨hi, rfl⟩ := bufRead_eq_some.mp hp
    exact ⟨f, hf, hi, rfl⟩
  · exact absurd (fdlReadBody_raise hbody) hc

/-- Settles O19: both answer the slot at the cursor, which FDL.READ and an operand write leave. -/
theorem fdlReadLooksForward : Obligations.FdlReadLooksForward := by
  intro s t x hready hc h
  obtain ⟨f, hf, hi, rfl⟩ := exec_fdlRead_eq_next hready hc h
  exact ⟨_, exec_of_body_done (i := .fdlTick) hready (fdlTickBody_of_lt hf hi), rfl⟩

/-! ### Samples and the slots they are stored in (R93) -/

/-- A sample at least one before the `k`-th does not depend on the `k`-th or a later one. -/
theorem before_append {xs : List Word} {k d : Nat} (hk : k ≤ xs.length) (hd : 1 ≤ d) (ys : List Word) :
    before (xs ++ ys) k d = before xs k d := by
  unfold before
  split
  · exact List.getD_append _ _ _ _ (by omega)
  · rfl

/-- The slot `d` behind the next one to be written holds the sample `d` before the next. -/
theorem slotAfter_behind (xs : List Word) {N d : Nat} (h1 : 1 ≤ d) (hd : d ≤ N) :
    slotAfter xs N ((xs.length + N - d) % N) = before xs xs.length d := by
  unfold slotAfter before
  by_cases hdL : d ≤ xs.length
  · have hslot : (xs.length + N - d) % N = (xs.length - d) % N := by
      rw [show xs.length + N - d = xs.length - d + N by omega, Nat.add_mod_right]
    have hle : (xs.length - d) % N ≤ xs.length - d := Nat.mod_le _ _
    have hage : (xs.length - 1 - (xs.length - d) % N) % N = d - 1 := by
      have hdm := Nat.div_add_mod (xs.length - d) N
      rw [show xs.length - 1 - (xs.length - d) % N = d - 1 + N * ((xs.length - d) / N) by omega,
        Nat.add_mul_mod_self_left, Nat.mod_eq_of_lt (by omega)]
    rw [hslot, if_pos (by omega), if_pos hdL, hage, show xs.length - 1 - (d - 1) = xs.length - d by omega]
  · rw [Nat.mod_eq_of_lt (by omega), if_neg (by omega), if_neg hdL]

/-- The slot just written holds the sample written. -/
theorem slotAfter_append_same (xs : List Word) (x : Word) (N : Nat) :
    slotAfter (xs ++ [x]) N (xs.length % N) = x := by
  have hage : (xs.length - xs.length % N) % N = 0 := Nat.sub_mod_eq_zero_of_mod_eq (Nat.mod_mod _ _).symm
  have hle : xs.length % N ≤ xs.length := Nat.mod_le _ _
  simp [slotAfter, hage, Nat.lt_succ_of_le hle]

/-- Every other slot holds what it held. -/
theorem slotAfter_append_other (xs : List Word) (x : Word) {N j : Nat} (hj : j < N) (hne : j ≠ xs.length % N) :
    slotAfter (xs ++ [x]) N j = slotAfter xs N j := by
  have hjL : j ≠ xs.length := fun h => hne (by rw [← h, Nat.mod_eq_of_lt hj])
  unfold slotAfter
  rw [List.length_append, List.length_singleton]
  by_cases hlt : j < xs.length
  · have hpos : (xs.length - j) % N ≠ 0 := fun h => hne <| by
      rw [show xs.length = xs.length - j + j by omega, Nat.add_mod, h, Nat.zero_add, Nat.mod_mod, Nat.mod_eq_of_lt hj]
    have hmod : (xs.length - j) % N < N := Nat.mod_lt _ (by omega)
    have hle : (xs.length - j) % N ≤ xs.length - j := Nat.mod_le _ _
    have hage : (xs.length - 1 - j) % N = (xs.length - j) % N - 1 := by
      have hdm := Nat.div_add_mod (xs.length - j) N
      rw [show xs.length - 1 - j = (xs.length - j) % N - 1 + N * ((xs.length - j) / N) by omega,
        Nat.add_mul_mod_self_left, Nat.mod_eq_of_lt (by omega)]
    rw [if_pos (by omega), if_pos hlt, Nat.add_sub_cancel, hage,
      show xs.length - 1 - ((xs.length - j) % N - 1) = xs.length - (xs.length - j) % N by omega]
    exact List.getD_append _ _ _ _ (by omega)
  · rw [if_neg (by omega), if_neg hlt]

/-- What a fixed delay line is after the samples `xs` have been ticked in, from a fresh one (R93). -/
structure FDLState.Follows (xs : List Word) (f : FDLState) : Prop where
  index : f.index = xs.length % f.N
  slots : ∀ j, j < f.N → f.buf.get j = slotAfter xs f.N j

theorem FDLState.Follows.new (N : Nat) : (FDLState.new N).Follows [] := ⟨(Nat.zero_mod N).symm, fun _ _ => rfl⟩

/-- The delay law of one tick: it answers the sample `N` before. -/
theorem FDLState.Follows.tick {xs : List Word} {f g : FDLState} {x out : Word} (hfol : f.Follows xs) (hinv : f.Inv)
    (h : f.tick x = some (out, g)) :
    out = before xs xs.length f.N ∧ g.N = f.N ∧ g.Follows (xs ++ [x]) := by
  obtain ⟨h1, -, hlt, hwf, -⟩ := hinv
  obtain ⟨-, rfl, rfl⟩ := FDLState.tick_eq_some h
  refine ⟨?_, rfl, ?_, fun j hj => ?_⟩
  · have hbehind := slotAfter_behind xs h1 le_rfl
    rwa [Nat.add_sub_cancel, ← hfol.index, ← hfol.slots _ hlt] at hbehind
  · simp only [hfol.index, Nat.mod_add_mod, List.length_append, List.length_singleton]
  · by_cases hji : j = f.index
    · subst hji
      exact (Memory.get_set_same _ _ _ hwf).trans (hfol.index ▸ (slotAfter_append_same xs x f.N).symm)
    · calc (f.buf.set f.index x).get j = f.buf.get j := Memory.get_set_other _ _ _ _ hji
        _ = slotAfter xs f.N j := hfol.slots j hj
        _ = slotAfter (xs ++ [x]) f.N j := (slotAfter_append_other xs x hj (hfol.index ▸ hji)).symm

/-! ### A program of commands (R16, R93) -/

/-- From a state that meets the invariants a command answers a next state, which meets them. -/
theorem exec_answers {s : State} (hs : s.Inv) (i : Instr) : ∃ t, exec i s = .next t := by
  rw [exec_eq_perform]; exact perform_answers (bodyOf_ne_stop hs i) _

theorem exec_keeps_inv {i : Instr} {s t : State} (hs : s.Inv) (h : exec i s = .next t) : t.Inv := by
  rcases exec_eq_next h with ⟨_, rfl⟩ | ⟨-, hbody⟩
  · exact hs
  · exact bodyOf_done_inv hs hbody

theorem ticksOf_cons (i : Instr) (r : Ran) (h : List Ran) : ticksOf i (r :: h) = ticksOf i [r] ++ ticksOf i h :=
  List.filter_append (l₁ := [r]) ..

/-- A command that takes the fault, or another command, is no tick. -/
theorem ticksOf_not_tick {i : Instr} {r : Ran} (h : r.instr = i → r.post.faulted = true) : ticksOf i [r] = [] := by
  by_cases hi : r.instr = i
  · simp [ticksOf, h hi]
  · simp [ticksOf, hi]

theorem ticksOf_completed {i : Instr} {r : Ran} (hi : r.instr = i) (hok : r.post.fault = none) : ticksOf i [r] = [r] := by
  simp [ticksOf, hi, State.faulted, hok]

theorem history_cons {j : Instr} {a : OperandRegs} {s t : State} (h : exec j { s with a := a } = .next t)
    (cs : List (Instr × OperandRegs)) :
    history ((j, a) :: cs) s = (history cs t).map fun p => (⟨j, { s with a := a }, t⟩ :: p.1, p.2) := by
  rw [history, h]

/-- What every operand write and every command keep, as a claim about the ticks of `i` completed so far and the state, a
program keeps: it runs to its end, and the claim holds there of all its ticks. -/
theorem history_induction {i : Instr} {P : List Ran → State → Prop}
    (hops : ∀ ks a s, P ks s → P ks { s with a := a })
    (hcmd : ∀ ks j s t, s.Inv → P ks s → exec j s = .next t → P (ks ++ ticksOf i [⟨j, s, t⟩]) t)
    (cs : List (Instr × OperandRegs)) {ks : List Ran} {s : State} (hs : s.Inv) (hP : P ks s) :
    ∃ h t, history cs s = some (h, t) ∧ P (ks ++ ticksOf i h) t := by
  induction cs generalizing ks s with
  | nil => exact ⟨[], s, rfl, (List.append_nil ks).symm ▸ hP⟩
  | cons c cs ih =>
    obtain ⟨j, a⟩ := c
    have hs' : State.Inv { s with a := a } := hs
    obtain ⟨t, ht⟩ := exec_answers hs' j
    obtain ⟨h, u, hrun, hu⟩ := ih (exec_keeps_inv hs' ht) (hcmd _ _ _ _ hs' (hops _ _ _ hP) ht)
    refine ⟨⟨j, { s with a := a }, t⟩ :: h, u, by rw [history_cons ht, hrun]; rfl, ?_⟩
    rwa [ticksOf_cons, ← List.append_assoc]

/-! ### The delay law of the fixed delay line (R93) -/

/-- Everything a command can do to a constructed fixed delay line: leave it, and then it is no completed FDL.TICK, or tick
it. -/
theorem exec_next_fdl {i : Instr} {s t : State} {f : FDLState} (hf : s.fdl = some f) (h : exec i s = .next t) :
    (t.fdl = some f ∧ ticksOf .fdlTick [⟨i, s, t⟩] = []) ∨
      ∃ g, f.tick s.a.a0 = some (t.r0, g) ∧ t.fdl = some g ∧ ticksOf .fdlTick [⟨i, s, t⟩] = [⟨i, s, t⟩] := by
  rcases exec_eq_next h with ⟨r, rfl⟩ | ⟨hok, hbody⟩
  · exact .inl ⟨hf, ticksOf_not_tick fun _ => rfl⟩
  · by_cases hu : i.unit = .fdl
    · cases i with
      | fdlNew => obtain ⟨hn, -⟩ := fdlNewBody_done hbody; rw [hf] at hn; cases hn
      | fdlTick =>
        obtain ⟨f₀, out, g, hf₀, ht, rfl⟩ := fdlTickBody_done hbody
        obtain rfl : f = f₀ := Option.some.inj (hf.symm.trans hf₀)
        exact .inr ⟨g, ht, rfl, ticksOf_completed rfl hok⟩
      | fdlRead => obtain ⟨_, _, -, -, rfl⟩ := fdlReadBody_done hbody; exact .inl ⟨hf, ticksOf_not_tick nofun⟩
      | _ => cases hu
    · obtain ⟨hother, -⟩ := bodyOf_done_units hbody
      exact .inl ⟨(hother hu).trans hf, ticksOf_not_tick fun hi => absurd (congrArg Instr.unit hi) hu⟩

/-- The delay law after these ticks: their results, and the line they leave. -/
structure FdlLaw (N : Nat) (ks : List Ran) (s : State) : Prop where
  line : ∃ f, s.fdl = some f ∧ f.N = N ∧ f.Follows (samples ks)
  results : ∀ k r, ks[k]? = some r → r.post.r0 = before (samples ks) k N

theorem samples_append (ks : List Ran) (r : Ran) : samples (ks ++ [r]) = samples ks ++ [r.pre.a.a0] := List.map_append

theorem samples_length (ks : List Ran) : (samples ks).length = ks.length := List.length_map _

/-- One more tick that answers the sample `N` before it keeps the results right. -/
theorem results_append {N : Nat} {ks : List Ran} {r : Ran} (h1 : 1 ≤ N)
    (h : ∀ k q, ks[k]? = some q → q.post.r0 = before (samples ks) k N) (hr : r.post.r0 = before (samples ks) ks.length N) :
    ∀ k q, (ks ++ [r])[k]? = some q → q.post.r0 = before (samples (ks ++ [r])) k N := by
  intro k q hq
  have hk : k < ks.length + 1 := by simpa using (List.getElem?_eq_some_iff.mp hq).1
  rw [samples_append, before_append (by rw [samples_length]; omega) h1]
  rcases Nat.lt_succ_iff_lt_or_eq.mp hk with hlt | rfl
  · exact h k q (by rwa [List.getElem?_append_left hlt] at hq)
  · rw [List.getElem?_concat_length] at hq
    cases hq; exact hr

theorem FdlLaw.new (s : State) :
    FdlLaw s.a.a0.toNat [] { s with fdl := some (FDLState.new s.a.a0.toNat) } :=
  ⟨⟨_, rfl, rfl, .new _⟩, fun _ _ h => by cases h⟩

/-- Every command keeps the delay law. -/
theorem FdlLaw.command {N : Nat} {ks : List Ran} {i : Instr} {s t : State} (hs : s.Inv) (hlaw : FdlLaw N ks s)
    (h : exec i s = .next t) : FdlLaw N (ks ++ ticksOf .fdlTick [⟨i, s, t⟩]) t := by
  obtain ⟨⟨f, hf, rfl, hfol⟩, hres⟩ := hlaw
  obtain ⟨hfdl, -⟩ := hs
  rcases exec_next_fdl hf h with ⟨hkeep, hno⟩ | ⟨g, htick, hg, hone⟩
  · rw [hno, List.append_nil]; exact ⟨⟨f, hkeep, rfl, hfol⟩, hres⟩
  · obtain ⟨hout, hN, hfol'⟩ := hfol.tick (hfdl f hf) htick
    rw [hone]
    refine ⟨⟨g, hg, hN, by rwa [samples_append]⟩, results_append (hfdl f hf).1 hres ?_⟩
    rwa [samples_length] at hout

/-- Every program keeps the delay law. -/
theorem FdlLaw.program {N : Nat} {ks : List Ran} {s : State} (hlaw : FdlLaw N ks s) (hs : s.Inv)
    (cs : List (Instr × OperandRegs)) :
    ∃ h t, history cs s = some (h, t) ∧ FdlLaw N (ks ++ ticksOf .fdlTick h) t :=
  history_induction (fun _ _ _ hk => ⟨hk.line, hk.results⟩) (fun _ _ _ _ => FdlLaw.command) cs hs hlaw

/-- Settles O20: a fresh line follows no samples, and every command keeps the law. -/
theorem fdlDelayLaw : Obligations.FdlDelayLaw := by
  intro s₀ s cs hs₀ hready hn hnew hok
  have hs := exec_keeps_inv hs₀ hnew
  rcases exec_eq_next hnew with ⟨r, rfl⟩ | ⟨-, hbody⟩
  · cases hok
  obtain ⟨-, -, -, rfl⟩ := fdlNewBody_done hbody
  obtain ⟨h, t, hrun, ⟨f, hf, hN, hfol⟩, hres⟩ := (FdlLaw.new s₀).program hs cs
  exact ⟨h, t, f, hrun, hf, hN, hN ▸ hres, hfol.index.trans (by rw [samples_length]; rfl), hfol.slots⟩

end Sys2Proof.Machine
end

section
/-! PROOFS. The statements about the variable delay line (R24, R100 to R104): what one command comes to, where a tick reads,
and what a program of commands leaves. -/

namespace Sys2Proof.Machine

/-! ### VDL.NEW (R100) -/

theorem vdlNewBody_of_constructed {s : State} (h : s.vdl ≠ none) : vdlNewBody s = .raise .alreadyConstructed := by
  obtain ⟨v, hv⟩ := Option.ne_none_iff_exists'.mp h
  rw [vdlNewBody, hv]

theorem vdlNewBody_of_not_constructed {s : State} (h : s.vdl = none) :
    vdlNewBody s = if badCapacity s.a.a0.toNat then .raise .badCapacity
      else if s.a.a0.toNat ≤ s.a.a1.toNat then .raise .badOffset
      else .done { s with vdl := some (VDLState.new s.a.a0.toNat s.a.a1.toNat) } := by
  rw [vdlNewBody, h]; rfl

/-- With a capacity in range only the check of the offset is left. -/
theorem vdlNewBody_of_capacity {s : State} (h : s.vdl = none) (h1 : 1 ≤ s.a.a0.toNat)
    (hcap : s.a.a0.toNat ≤ Config.capMax) :
    vdlNewBody s = if s.a.a0.toNat ≤ s.a.a1.toNat then .raise .badOffset
      else .done { s with vdl := some (VDLState.new s.a.a0.toNat s.a.a1.toNat) } :=
  (vdlNewBody_of_not_constructed h).trans (if_neg (by simp [badCapacity_eq_false.mpr ⟨h1, hcap⟩]))

/-- Settles O21: the body of VDL.NEW looks at the unit, then at the capacity, then at the offset. -/
theorem vdlNewConstructs : Obligations.VdlNewConstructs := by
  intro s hready
  refine ⟨fun hc => raises_of_body hready (vdlNewBody_of_constructed hc), fun hn hbad => ?_, fun hn h1 hcap ho => ?_,
    fun hn h1 hcap ho => ?_⟩
  · refine raises_of_body hready ((vdlNewBody_of_not_constructed hn).trans (if_pos ?_))
    exact badCapacity_eq_true.mpr hbad
  · exact raises_of_body hready ((vdlNewBody_of_capacity hn h1 hcap).trans (if_pos ho))
  · refine ⟨VDLState.new s.a.a0.toNat s.a.a1.toNat, exec_of_body_done hready ?_, rfl, rfl, rfl, ?_,
      fun j hj => bufRead_of_lt _ hj⟩
    · exact (vdlNewBody_of_capacity hn h1 hcap).trans (if_neg (Nat.not_le.mpr ho))
    · simp only [VDLState.new, readIndex, Nat.zero_add]

/-! ### VDL.TICK, VDL.READ and VDL.SETOFF (R101 to R103) -/

theorem vdlTickBody_of_lt {s : State} {v : VDLState} (hv : s.vdl = some v) (hw : v.widx < v.N) :
    vdlTickBody s = .done
      (State.setR0 { s with vdl := some { v with buf := v.buf.set v.widx s.a.a0, ridx := readIndex v.N v.widx v.offset,
                                                 widx := (v.widx + 1) % v.N } }
        ((v.buf.set v.widx s.a.a0).get (readIndex v.N v.widx v.offset))) := by
  simp only [vdlTickBody, hv, State.opF_0, VDLState.tick_of_lt v _ hw]

theorem vdlTickBody_raise {s : State} {c : Cause} (h : vdlTickBody s = .raise c) : s.vdl = none := by
  unfold vdlTickBody at h
  split at h
  · assumption
  · split at h <;> cases h

theorem vdlReadBody_of_lt {s : State} {v : VDLState} (hv : s.vdl = some v) (hr : v.ridx < v.N) :
    vdlReadBody s = .done (s.setR0 (v.buf.get v.ridx)) := by
  simp only [vdlReadBody, hv, VDLState.peek_of_lt v hr]

theorem vdlSetoffBody_of_not_constructed {s : State} (h : s.vdl = none) : vdlSetoffBody s = .raise .notConstructed := by
  rw [vdlSetoffBody, h]

theorem vdlSetoffBody_of_constructed {s : State} {v : VDLState} (h : s.vdl = some v) :
    vdlSetoffBody s = if v.N ≤ s.a.a0.toNat then .raise .badOffset
      else .done { s with vdl := some (v.setOffset s.a.a0.toNat) } := by
  rw [vdlSetoffBody, h]; rfl

theorem State.not_constructed_vdl {s : State} (h : s.vdl = none) : ¬s.constructed .vdl = true := by
  simp [State.constructed, h]

/-- Settles O22: R23 puts the write index in the buffer, where the tick writes one slot and then reads. -/
theorem vdlTickWritesThenReads : Obligations.VdlTickWritesThenReads := by
  intro s hready
  refine ⟨fun hn => raises_of_body hready (bodyOf_notConstructed rfl (State.not_constructed_vdl hn)), fun v hv hinv => ?_⟩
  obtain ⟨-, -, hw, -, -, hwf, -⟩ := hinv
  exact ⟨v.buf.set v.widx s.a.a0, exec_of_body_done hready (vdlTickBody_of_lt hv hw), Memory.get_set_same _ _ _ hwf,
    fun j hj => Memory.get_set_other _ _ _ _ hj⟩

/-- Settles O23: a read index in the buffer peeks its slot. -/
theorem vdlReadPeeks : Obligations.VdlReadPeeks := fun _ hready =>
  ⟨fun hn => raises_of_body hready (bodyOf_notConstructed rfl (State.not_constructed_vdl hn)),
    fun _ hv hr => exec_of_body_done hready (vdlReadBody_of_lt hv hr)⟩

/-- Settles O26: the body of VDL.SETOFF looks at the unit, then at the offset. -/
theorem vdlSetoffRetunes : Obligations.VdlSetoffRetunes := fun _ hready =>
  ⟨fun hn => raises_of_body hready (vdlSetoffBody_of_not_constructed hn), fun _ hv =>
    ⟨fun ho => raises_of_body hready ((vdlSetoffBody_of_constructed hv).trans (if_pos ho)),
      fun ho => exec_of_body_done hready ((vdlSetoffBody_of_constructed hv).trans (if_neg (Nat.not_le.mpr ho)))⟩⟩

/-! ### Where a tick reads (R24, R102) -/

/-- A tick answers the word at the read index it leaves. -/
theorem VDLState.tick_answers_ridx {v u : VDLState} {x out : Word} (h : v.tick x = some (out, u)) :
    u.ridx < u.N ∧ out = u.buf.get u.ridx := by
  obtain ⟨hw, rfl, rfl⟩ := VDLState.tick_eq_some h
  exact ⟨readIndex_lt _ _ (Nat.zero_lt_of_lt hw), rfl⟩

/-- The read index may be counted from a write index that has not wrapped. -/
theorem readIndex_mod {N offset : Nat} (widx : Nat) (h : offset ≤ N) :
    readIndex N (widx % N) offset = readIndex N widx offset := by
  rw [readIndex, readIndex, Nat.add_sub_assoc h, Nat.add_sub_assoc h, Nat.mod_add_mod]

/-- Seen from the write index a tick leaves, it read one slot further behind than its offset. -/
theorem VDLState.tick_ridx {v u : VDLState} {x out : Word} (ho : v.offset < v.N) (h : v.tick x = some (out, u)) :
    u.ridx = readIndex v.N u.widx (v.offset + 1) := by
  obtain ⟨-, -, rfl⟩ := VDLState.tick_eq_some h
  rw [readIndex_mod _ ho, readIndex, readIndex, Nat.add_right_comm, Nat.add_sub_add_right]

/-- VDL.TICK of a constructed unit that answers a next state ticked the line. -/
theorem exec_vdlTick_eq_next {s t : State} {v : VDLState} (hready : s.fault = none) (hv : s.vdl = some v)
    (h : exec .vdlTick s = .next t) :
    ∃ u, v.tick s.a.a0 = some (t.r0, u) ∧ t.vdl = some u ∧ t.fault = none := by
  rw [exec_eq_perform] at h
  rcases perform_eq_next h with ⟨r, hr, -⟩ | ⟨-, hbody⟩ | ⟨-, c, hbody, -⟩
  · rw [hready] at hr; cases hr
  · obtain ⟨v₀, out, u, hv₀, htick, rfl⟩ := vdlTickBody_done hbody
    obtain rfl : v = v₀ := Option.some.inj (hv.symm.trans hv₀)
    exact ⟨u, htick, rfl, hready⟩
  · rw [vdlTickBody_raise hbody] at hv; cases hv

/-! ### What a command does to a constructed variable delay line (R24) -/

/-- Everything a command can do to a constructed variable delay line: leave all of it but the offset, and then it is no
completed VDL.TICK, or tick it. -/
theorem exec_next_vdl {i : Instr} {s t : State} {v : VDLState} (hv : s.vdl = some v) (h : exec i s = .next t) :
    ((∃ o, t.vdl = some (v.setOffset o)) ∧ ticksOf .vdlTick [⟨i, s, t⟩] = []) ∨
      ∃ u, v.tick s.a.a0 = some (t.r0, u) ∧ t.vdl = some u ∧ ticksOf .vdlTick [⟨i, s, t⟩] = [⟨i, s, t⟩] := by
  rcases exec_eq_next h with ⟨r, rfl⟩ | ⟨hok, hbody⟩
  · exact .inl ⟨⟨v.offset, hv⟩, ticksOf_not_tick fun _ => rfl⟩
  · by_cases hu : i.unit = .vdl
    · cases i with
      | vdlNew => obtain ⟨hn, -⟩ := vdlNewBody_done hbody; rw [hv] at hn; cases hn
      | vdlTick =>
        obtain ⟨v₀, out, u, hv₀, ht, rfl⟩ := vdlTickBody_done hbody
        obtain rfl : v = v₀ := Option.some.inj (hv.symm.trans hv₀)
        exact .inr ⟨u, ht, rfl, ticksOf_completed rfl hok⟩
      | vdlRead =>
        obtain ⟨_, _, -, -, rfl⟩ := vdlReadBody_done hbody
        exact .inl ⟨⟨v.offset, hv⟩, ticksOf_not_tick nofun⟩
      | vdlSetoff =>
        obtain ⟨v₀, hv₀, -, rfl⟩ := vdlSetoffBody_done hbody
        obtain rfl : v = v₀ := Option.some.inj (hv.symm.trans hv₀)
        exact .inl ⟨⟨_, rfl⟩, ticksOf_not_tick nofun⟩
      | _ => cases hu
    · obtain ⟨-, hother, -⟩ := bodyOf_done_units hbody
      exact .inl ⟨⟨v.offset, (hother hu).trans hv⟩, ticksOf_not_tick fun hi => absurd (congrArg Instr.unit hi) hu⟩

/-- Every command but VDL.TICK leaves all of a constructed variable delay line but its offset. -/
theorem exec_keeps_vdl {i : Instr} {s t : State} {v : VDLState} (h : exec i s = .next t) (hi : i ≠ .vdlTick)
    (hv : s.vdl = some v) : ∃ o, t.vdl = some (v.setOffset o) := by
  rcases exec_next_vdl hv h with ⟨hkeep, -⟩ | ⟨_, -, -, hone⟩
  · exact hkeep
  · rw [ticksOf_not_tick fun e => absurd e hi] at hone; cases hone

/-- Settles O24: a completed tick leaves the read index it computed, and every other command leaves all but the offset. -/
theorem readIndexBetweenCommands : Obligations.ReadIndexBetweenCommands := by
  intro i s t v v' hv hinv h hv'
  obtain ⟨-, -, -, -, ho, -⟩ := hinv
  refine ⟨fun ⟨hi, hok⟩ => ?_, fun hi => ?_⟩
  · rcases exec_next_vdl hv h with ⟨-, hno⟩ | ⟨u, htick, hu, -⟩
    · rw [ticksOf_completed hi hok] at hno; cases hno
    · obtain rfl := Option.some.inj (hv'.symm.trans hu)
      rw [VDLState.tick_ridx ho htick, readIndex, Nat.add_comm v.offset, ← Nat.sub_sub]
  · obtain ⟨o, hkeep⟩ := exec_keeps_vdl h hi hv
    obtain rfl := Option.some.inj (hv'.symm.trans hkeep)
    exact ⟨rfl, rfl⟩

/-- Settles O25: VDL.READ answers the slot at the read index the tick left, and VDL.SETOFF moves neither. -/
theorem vdlReadLooksBack : Obligations.VdlReadLooksBack := by
  intro s t u w hready hc htick hset hok
  obtain ⟨v, hv⟩ := Option.ne_none_iff_exists'.mp hc
  obtain ⟨g, hg, ht, htok⟩ := exec_vdlTick_eq_next hready hv htick
  obtain ⟨hr, hout⟩ := VDLState.tick_answers_ridx hg
  obtain ⟨o, hu⟩ := exec_keeps_vdl hset nofun ht
  exact ⟨⟨_, exec_of_body_done (i := .vdlRead) htok (vdlReadBody_of_lt ht hr), hout.symm⟩,
    ⟨_, exec_of_body_done (i := .vdlRead) hok (vdlReadBody_of_lt hu hr), hout.symm⟩⟩

/-! ### The delay law of the variable delay line (R104) -/

theorem before_succ (xs : List Word) (k d : Nat) : before xs (k + 1) (d + 1) = before xs k d := by
  simp [before]

/-- A sample at or before a given one does not depend on those that are given later. -/
theorem before_append_of_lt {xs : List Word} {k : Nat} (hk : k < xs.length) (d : Nat) (ys : List Word) :
    before (xs ++ ys) k d = before xs k d := by
  rw [← before_succ, before_append hk (Nat.le_add_left 1 d), before_succ]

/-- The write side of a variable delay line, which is that of a fixed one: write at the index, then advance. -/
def VDLState.writeSide (v : VDLState) : FDLState := { N := v.N, buf := v.buf, index := v.widx }

theorem VDLState.writeSide_inv {v : VDLState} (h : v.Inv) : v.writeSide.Inv := by
  obtain ⟨h1, hcap, hw, -, -, hbuf⟩ := h
  exact ⟨h1, hcap, hw, hbuf⟩

/-- A variable tick leaves the write side as a fixed tick does. -/
theorem VDLState.writeSide_tick {v u : VDLState} {x out : Word} (h : v.tick x = some (out, u)) :
    v.writeSide.tick x = some (v.buf.get v.widx, u.writeSide) := by
  obtain ⟨hw, -, rfl⟩ := VDLState.tick_eq_some h
  exact FDLState.tick_of_lt v.writeSide x hw

/-- The delay law of one tick: it answers the sample that lies its offset before its own. -/
theorem VDLState.tick_delays {v u : VDLState} {xs : List Word} {x out : Word} (hfol : v.writeSide.Follows xs)
    (hinv : v.Inv) (h : v.tick x = some (out, u)) :
    out = before (xs ++ [x]) xs.length v.offset ∧ u.N = v.N ∧ u.writeSide.Follows (xs ++ [x]) := by
  obtain ⟨-, (hN : u.N = v.N), hfol'⟩ := hfol.tick (VDLState.writeSide_inv hinv) (VDLState.writeSide_tick h)
  obtain ⟨hr, rfl⟩ := VDLState.tick_answers_ridx h
  obtain ⟨-, -, -, -, ho, -⟩ := hinv
  have ho' : v.offset + 1 ≤ u.N := hN ▸ ho
  refine ⟨?_, hN, hfol'⟩
  calc u.buf.get u.ridx
    _ = slotAfter (xs ++ [x]) u.N u.ridx := hfol'.slots _ hr
    _ = slotAfter (xs ++ [x]) u.N (((xs ++ [x]).length + u.N - (v.offset + 1)) % u.N) := by
        rw [VDLState.tick_ridx ho h, ← hN, show u.widx = _ from hfol'.index]; exact congrArg _ (readIndex_mod _ ho')
    _ = before (xs ++ [x]) (xs ++ [x]).length (v.offset + 1) := slotAfter_behind _ (Nat.le_add_left 1 _) ho'
    _ = before (xs ++ [x]) xs.length v.offset := by rw [List.length_append]; exact before_succ _ _ _

/-- The delay law after these ticks: their results, each by the offset in force, and the line they leave. -/
structure VdlLaw (N : Nat) (ks : List Ran) (s : State) : Prop where
  line : ∃ v, s.vdl = some v ∧ v.N = N ∧ v.writeSide.Follows (samples ks)
  results : ∀ k r, ks[k]? = some r → ∃ u, r.pre.vdl = some u ∧ r.post.r0 = before (samples ks) k u.offset

theorem VdlLaw.new (s : State) :
    VdlLaw s.a.a0.toNat [] { s with vdl := some (VDLState.new s.a.a0.toNat s.a.a1.toNat) } :=
  ⟨⟨_, rfl, rfl, .new _⟩, fun _ _ h => by cases h⟩

/-- One more tick that answers the sample its offset before it keeps the law. -/
theorem VdlLaw.tick {N : Nat} {ks : List Ran} {r : Ran} {v u : VDLState} (hlaw : VdlLaw N ks r.pre)
    (hpre : r.pre.vdl = some v) (hpost : r.post.vdl = some u) (hN : u.N = N)
    (hout : r.post.r0 = before (samples (ks ++ [r])) ks.length v.offset)
    (hfol : u.writeSide.Follows (samples (ks ++ [r]))) : VdlLaw N (ks ++ [r]) r.post := by
  refine ⟨⟨u, hpost, hN, hfol⟩, fun k q hq => ?_⟩
  have hk : k < ks.length + 1 := by simpa using (List.getElem?_eq_some_iff.mp hq).1
  rcases Nat.lt_succ_iff_lt_or_eq.mp hk with hlt | rfl
  · rw [List.getElem?_append_left hlt] at hq
    obtain ⟨w, hw, hq₀⟩ := hlaw.results k q hq
    exact ⟨w, hw, by rw [samples_append, before_append_of_lt (by rwa [samples_length]), hq₀]⟩
  · rw [List.getElem?_concat_length] at hq
    cases hq; exact ⟨v, hpre, hout⟩

/-- Every command keeps the delay law. -/
theorem VdlLaw.command {N : Nat} {ks : List Ran} {i : Instr} {s t : State} (hs : s.Inv) (hlaw : VdlLaw N ks s)
    (h : exec i s = .next t) : VdlLaw N (ks ++ ticksOf .vdlTick [⟨i, s, t⟩]) t := by
  obtain ⟨v, hv, rfl, hfol⟩ := hlaw.line
  obtain ⟨-, hvdl, -⟩ := hs
  rcases exec_next_vdl hv h with ⟨⟨o, hkeep⟩, hno⟩ | ⟨u, htick, hu, hone⟩
  · rw [hno, List.append_nil]; exact ⟨⟨_, hkeep, rfl, hfol⟩, hlaw.results⟩
  · obtain ⟨hout, hN, hfol'⟩ := VDLState.tick_delays hfol (hvdl v hv) htick
    rw [hone]
    rw [samples_length] at hout
    exact hlaw.tick hv hu hN (by rwa [samples_append]) (by rwa [samples_append])

/-- Every program keeps the delay law. -/
theorem VdlLaw.program {N : Nat} {ks : List Ran} {s : State} (hlaw : VdlLaw N ks s) (hs : s.Inv)
    (cs : List (Instr × OperandRegs)) :
    ∃ h t, history cs s = some (h, t) ∧ VdlLaw N (ks ++ ticksOf .vdlTick h) t :=
  history_induction (fun _ _ _ hk => ⟨hk.line, hk.results⟩) (fun _ _ _ _ => VdlLaw.command) cs hs hlaw

/-- Settles O27: a fresh line follows no samples, and every command keeps the law. -/
theorem vdlDelayLaw : Obligations.VdlDelayLaw := by
  intro s₀ s cs hs₀ hready hn hnew hok
  have hs := exec_keeps_inv hs₀ hnew
  rcases exec_eq_next hnew with ⟨r, rfl⟩ | ⟨-, hbody⟩
  · cases hok
  obtain ⟨-, -, -, -, rfl⟩ := vdlNewBody_done hbody
  obtain ⟨h, t, hrun, ⟨v, hv, hN, hfol⟩, hres⟩ := (VdlLaw.new s₀).program hs cs
  exact ⟨h, t, v, hrun, hv, hN, hres, hfol.index.trans (by rw [samples_length]; rfl), hfol.slots⟩

end Sys2Proof.Machine
end

section
/-! PROOFS. The statements about the feedback echo (R115 to R124): what its commands come to, what one tick
computes over either backing, and what a program of commands leaves. -/

namespace Sys2Proof.Machine

/-! ### ECHO.NEWF and ECHO.NEWV (R115, R116) -/

theorem newEcho_of_constructed {backing : Nat → DelayLine} {s : State} (h : s.echo ≠ none) :
    newEcho backing s = .raise .alreadyConstructed := by
  obtain ⟨e, he⟩ := Option.ne_none_iff_exists'.mp h
  rw [newEcho, he]

theorem newEcho_of_not_constructed {backing : Nat → DelayLine} {s : State} (h : s.echo = none) :
    newEcho backing s = if badCapacity s.a.a0.toNat then .raise .badCapacity
      else if !inUnit s.a.a1 then .raise .badFeedback
      else if !mixOK s.a.a2 s.a.a3 then .raise .badMix
      else .done { s with echo := some { delay := backing s.a.a0.toNat, feedback := s.a.a1, dry := s.a.a2,
                                         wet := s.a.a3 } } := by
  rw [newEcho, h]; rfl

/-- With a capacity in range only the checks of the coefficients are left. -/
theorem newEcho_of_capacity {backing : Nat → DelayLine} {s : State} (h : s.echo = none) (h1 : 1 ≤ s.a.a0.toNat)
    (hcap : s.a.a0.toNat ≤ Config.capMax) :
    newEcho backing s = if !inUnit s.a.a1 then .raise .badFeedback
      else if !mixOK s.a.a2 s.a.a3 then .raise .badMix
      else .done { s with echo := some { delay := backing s.a.a0.toNat, feedback := s.a.a1, dry := s.a.a2,
                                         wet := s.a.a3 } } :=
  (newEcho_of_not_constructed h).trans (if_neg (by simp [badCapacity_eq_false.mpr ⟨h1, hcap⟩]))

/-- The four faults of the two commands that construct an echo, in the order of their checks, and the echo they build. -/
theorem newEcho_outcomes {i : Instr} {backing : Nat → DelayLine} (hi : bodyOf i = newEcho backing) {s : State}
    (hready : s.fault = none) :
    (s.echo ≠ none → raises i .alreadyConstructed s) ∧
    (s.echo = none → s.a.a0.toNat = 0 ∨ Config.capMax < s.a.a0.toNat → raises i .badCapacity s) ∧
    (s.echo = none → 1 ≤ s.a.a0.toNat → s.a.a0.toNat ≤ Config.capMax → inUnit s.a.a1 = false →
      raises i .badFeedback s) ∧
    (s.echo = none → 1 ≤ s.a.a0.toNat → s.a.a0.toNat ≤ Config.capMax → inUnit s.a.a1 = true →
      mixOK s.a.a2 s.a.a3 = false → raises i .badMix s) ∧
    (s.echo = none → 1 ≤ s.a.a0.toNat → s.a.a0.toNat ≤ Config.capMax → inUnit s.a.a1 = true →
      mixOK s.a.a2 s.a.a3 = true →
        exec i s = .next { s with echo := some { delay := backing s.a.a0.toNat, feedback := s.a.a1, dry := s.a.a2,
                                                 wet := s.a.a3 } }) := by
  have hraise : ∀ {c}, newEcho backing s = .raise c → raises i c s :=
    fun h => raises_of_body hready ((congrFun hi s).trans h)
  refine ⟨fun hc => hraise (newEcho_of_constructed hc), fun hn hbad => ?_, fun hn h1 hcap hu => ?_,
    fun hn h1 hcap hu hm => ?_, fun hn h1 hcap hu hm => ?_⟩
  · exact hraise ((newEcho_of_not_constructed hn).trans (if_pos (badCapacity_eq_true.mpr hbad)))
  · exact hraise ((newEcho_of_capacity hn h1 hcap).trans (by simp [hu]))
  · exact hraise ((newEcho_of_capacity hn h1 hcap).trans (by simp [hu, hm]))
  · exact exec_of_body_done hready ((congrFun hi s).trans ((newEcho_of_capacity hn h1 hcap).trans (by simp [hu, hm])))

/-- Settles O28: the body of ECHO.NEWF looks at the unit, the capacity, the feedback and the mix, in this order. -/
theorem echoNewfConstructs : Obligations.EchoNewfConstructs := by
  intro s hready
  obtain ⟨hcon, hcap, hfb, hmix, hnew⟩ :=
    newEcho_outcomes (i := .echoNewf) (backing := fun N => .fixedLine (FDLState.new N)) rfl hready
  exact ⟨hcon, hcap, hfb, hmix, fun hn h1 h2 hu hm =>
    ⟨FDLState.new s.a.a0.toNat, hnew hn h1 h2 hu hm, rfl, rfl, fun j hj => bufRead_of_lt _ hj⟩⟩

/-- Settles O29: as O28, and a read index one slot ahead of the write index looks the offset N - 1 back. -/
theorem echoNewvConstructs : Obligations.EchoNewvConstructs := by
  intro s hready
  obtain ⟨hcon, hcap, hfb, hmix, hnew⟩ :=
    newEcho_outcomes (i := .echoNewv) (backing := fun N => .variableLine (VDLState.new N (N - 1))) rfl hready
  refine ⟨hcon, hcap, hfb, hmix, fun hn h1 h2 hu hm =>
    ⟨VDLState.new s.a.a0.toNat (s.a.a0.toNat - 1), hnew hn h1 h2 hu hm, rfl, rfl, rfl, ?_,
      fun j hj => bufRead_of_lt _ hj⟩⟩
  simp only [VDLState.new, readIndex, Nat.zero_add, Nat.sub_sub_self h1]

/-! ### ECHO.TICK (R117, R121) -/

theorem echoTickBody_of_tick {s : State} {e e' : EchoState} {out : Word} (he : s.echo = some e)
    (h : e.tick (nanDraw s.draws) s.a.a0 = some (out, e')) :
    echoTickBody s = .done ((State.setR0 { s with echo := some e' } out).nextDraw) := by
  simp only [echoTickBody, he, State.opF_0, h]

theorem State.not_constructed_echo {s : State} (h : s.echo = none) : ¬s.constructed .echo = true := by
  simp [State.constructed, h]

/-- Settles O30: R22 and R23 put the indices in the buffer, where each backing peeks one slot and writes one. -/
theorem echoTickFeedsBackAndMixes : Obligations.EchoTickFeedsBackAndMixes := by
  intro s hready
  refine ⟨fun hn => raises_of_body hready (bodyOf_notConstructed rfl (State.not_constructed_echo hn)),
    fun e f he hd hinv => ?_, fun e v he hd hinv => ?_⟩
  · obtain ⟨-, -, hi, hwf, -⟩ := hinv
    have htick := EchoState.tick_fixed (nanDraw s.draws) s.a.a0 hd hi
    exact ⟨nanDraw s.draws, _, _, isQuietNaN_nanDraw _, exec_of_body_done hready (echoTickBody_of_tick he htick),
      Memory.get_set_same _ _ _ hwf, fun j hj => Memory.get_set_other _ _ _ _ hj⟩
  · obtain ⟨-, -, hw, hr, -, hwf, -⟩ := hinv
    have htick := EchoState.tick_variable (nanDraw s.draws) s.a.a0 hd hw hr
    exact ⟨nanDraw s.draws, _, _, _, isQuietNaN_nanDraw _, rfl, exec_of_body_done hready (echoTickBody_of_tick he htick),
      Memory.get_set_same _ _ _ hwf, fun j hj => Memory.get_set_other _ _ _ _ hj⟩

/-! ### ECHO.SETDLY, ECHO.SETFB and ECHO.SETMIX (R118 to R120) -/

theorem echoSetdlyBody_of_not_constructed {s : State} (h : s.echo = none) : echoSetdlyBody s = .raise .notConstructed := by
  rw [echoSetdlyBody, h]

theorem echoSetdlyBody_of_fixed {s : State} {e : EchoState} {f : FDLState} (he : s.echo = some e)
    (hd : e.delay = .fixedLine f) : echoSetdlyBody s = .raise .delayNotResizable := by
  simp only [echoSetdlyBody, he, hd]

theorem echoSetdlyBody_of_variable {s : State} {e : EchoState} {v : VDLState} (he : s.echo = some e)
    (hd : e.delay = .variableLine v) :
    echoSetdlyBody s = if v.N ≤ s.a.a0.toNat then .raise .badOffset
      else .done { s with echo := some { e with delay := .variableLine (v.setOffset s.a.a0.toNat) } } := by
  simp only [echoSetdlyBody, he, hd]; rfl

theorem echoSetfbBody_of_not_constructed {s : State} (h : s.echo = none) : echoSetfbBody s = .raise .notConstructed := by
  rw [echoSetfbBody, h]

theorem echoSetfbBody_of_constructed {s : State} {e : EchoState} (h : s.echo = some e) :
    echoSetfbBody s = if !inUnit s.a.a0 then .raise .badFeedback
      else .done { s with echo := some { e with feedback := s.a.a0 } } := by
  rw [echoSetfbBody, h]; rfl

theorem echoSetmixBody_of_not_constructed {s : State} (h : s.echo = none) : echoSetmixBody s = .raise .notConstructed := by
  rw [echoSetmixBody, h]

theorem echoSetmixBody_of_constructed {s : State} {e : EchoState} (h : s.echo = some e) :
    echoSetmixBody s = if !mixOK s.a.a0 s.a.a1 then .raise .badMix
      else .done { s with echo := some { e with dry := s.a.a0, wet := s.a.a1 } } := by
  rw [echoSetmixBody, h]; rfl

/-- Settles O31: the body of ECHO.SETDLY looks at the unit, then at the backing, then at the length. -/
theorem echoSetdlyRetunes : Obligations.EchoSetdlyRetunes := fun _ hready =>
  ⟨fun hn => raises_of_body hready (echoSetdlyBody_of_not_constructed hn),
    fun _ _ he hd => raises_of_body hready (echoSetdlyBody_of_fixed he hd),
    fun _ _ he hd ho => raises_of_body hready ((echoSetdlyBody_of_variable he hd).trans (if_pos ho)),
    fun _ _ he hd ho =>
      exec_of_body_done hready ((echoSetdlyBody_of_variable he hd).trans (if_neg (Nat.not_le.mpr ho)))⟩

/-- Settles O32: each setter's body looks at the unit, then at the words it stores. -/
theorem echoCoefficientSetters : Obligations.EchoCoefficientSetters := by
  intro s hready
  refine ⟨fun hn => ⟨raises_of_body hready (echoSetfbBody_of_not_constructed hn),
    raises_of_body hready (echoSetmixBody_of_not_constructed hn)⟩, fun e he => ?_⟩
  have hfb := echoSetfbBody_of_constructed he
  have hmix := echoSetmixBody_of_constructed he
  exact ⟨fun h => raises_of_body hready (hfb.trans (by simp [h])),
    fun h => exec_of_body_done hready (hfb.trans (by simp [h])),
    fun h => raises_of_body hready (hmix.trans (by simp [h])),
    fun h => exec_of_body_done hready (hmix.trans (by simp [h]))⟩

/-! ### The delay line an echo owns (R121) -/

/-- A tick of an owned delay line is a tick of its backing. -/
theorem DelayLine.tick_eq_some {d d' : DelayLine} {x out : Word} (h : d.tick x = some (out, d')) :
    (∃ f g, d = .fixedLine f ∧ d' = .fixedLine g ∧ f.tick x = some (out, g)) ∨
      ∃ v u, d = .variableLine v ∧ d' = .variableLine u ∧ v.tick x = some (out, u) := by
  cases d with
  | fixedLine f =>
    obtain ⟨⟨_, g⟩, ht, heq⟩ := Option.map_eq_some_iff.mp h
    cases heq; exact .inl ⟨f, g, rfl, rfl, ht⟩
  | variableLine v =>
    obtain ⟨⟨_, u⟩, ht, heq⟩ := Option.map_eq_some_iff.mp h
    cases heq; exact .inr ⟨v, u, rfl, rfl, ht⟩

/-! ### The identity setting (R124) -/

theorem fmul_comm (nan a b : Word) : fmul nan a b = fmul nan b a := by
  unfold fmul
  simp only [Bool.or_comm (isNaN a), Bool.or_comm (isInf a), or_comm (a := fMag a = 0), bne_comm (a := fSign a),
    Nat.mul_comm (magValue (fMag a))]

theorem scaled_pack_zero (neg : Bool) : scaled (pack neg 0) = 0 := scaled_of_fMag_zero (fMag_pack neg (by decide))

/-- Adding a zero of either sign leaves the number, and the word where the number is not zero. -/
theorem fadd_zero_number {a z : Word} (nan : Word) (ha : isFinite a = true) (hz : fMag z = 0) :
    isFinite (fadd nan a z) = true ∧ scaled (fadd nan a z) = scaled a ∧ (fMag a ≠ 0 → fadd nan a z = a) := by
  by_cases h0 : fMag a = 0
  · have hsum : scaled a + scaled z = 0 := by rw [scaled_of_fMag_zero h0, scaled_of_fMag_zero hz]; rfl
    rw [fadd_of_isFinite ha (isFinite_of_fMag_zero hz), if_pos hsum, scaled_pack_zero, scaled_of_fMag_zero h0]
    exact ⟨isFinite_of_fMag_zero (fMag_pack _ (by decide)), rfl, fun hne => absurd h0 hne⟩
  · rw [fadd_zero_right nan ha h0 hz]
    exact ⟨ha, rfl, fun _ => rfl⟩

/-- With a zero feedback the word fed to the delay line is finite with the input. -/
theorem EchoState.isFinite_fed {e : EchoState} {x r : Word} (nan : Nat → Word) (hfb : fMag e.feedback = 0)
    (hx : isFinite x = true) (hr : isFinite r = true) : isFinite (e.fed nan x r) = true := by
  have hz : fMag (fmul (nan 0) e.feedback r) = 0 := by rw [fmul_comm, fMag_fmul_zero_right _ hr hfb]
  exact (fadd_zero_number (nan 1) hx hz).1

/-- With dry 1 and a zero wet the mix is the input but for the sign of a zero. -/
theorem EchoState.mix_identity {e : EchoState} {x delayed : Word} (nan : Nat → Word) (hdry : e.dry = ONE)
    (hwet : fMag e.wet = 0) (hx : isFinite x = true) (hd : isFinite delayed = true) :
    isFinite (e.mix nan x delayed) = true ∧ scaled (e.mix nan x delayed) = scaled x ∧
      (fMag x ≠ 0 → e.mix nan x delayed = x) := by
  have hz : fMag (fmul (nan 3) e.wet delayed) = 0 := by rw [fmul_comm, fMag_fmul_zero_right _ hd hwet]
  rw [EchoState.mix, hdry, fmul_comm, fmul_ONE_right _ hx]
  exact fadd_zero_number _ hx hz

theorem DelayLine.peek_eq_slot {d : DelayLine} {r : Word} (h : d.peek = some r) : ∃ j, r = d.buf.get j := by
  cases d with
  | fixedLine f => exact ⟨f.index, (bufRead_eq_some.mp h).2.symm⟩
  | variableLine v => exact ⟨v.ridx, (bufRead_eq_some.mp h).2.symm⟩

/-- A slot holds after a write what it held or the word written. -/
theorem Memory.get_set_eq_or (m : Memory) (i j : Nat) (v : Word) (h : m.wf = true) :
    (m.set i v).get j = v ∨ (m.set i v).get j = m.get j := by
  by_cases hj : j = i
  · exact .inl (hj ▸ m.get_set_same i v h)
  · exact .inr (m.get_set_other i j v hj)

/-- A tick of a well-formed delay line leaves in each slot what it held or the word ticked in. -/
theorem DelayLine.tick_slot {d d' : DelayLine} {x out : Word} (hinv : d.Inv) (h : d.tick x = some (out, d')) (j : Nat) :
    d'.buf.get j = x ∨ d'.buf.get j = d.buf.get j := by
  rcases DelayLine.tick_eq_some h with ⟨f, g, rfl, rfl, ht⟩ | ⟨v, u, rfl, rfl, ht⟩
  · obtain ⟨-, -, -, hwf, -⟩ := DelayLine.inv_fixed.mp hinv
    obtain ⟨-, -, rfl⟩ := FDLState.tick_eq_some ht
    exact Memory.get_set_eq_or _ _ _ _ hwf
  · obtain ⟨-, -, -, -, -, hwf, -⟩ := DelayLine.inv_variable.mp hinv
    obtain ⟨-, -, rfl⟩ := VDLState.tick_eq_some ht
    exact Memory.get_set_eq_or _ _ _ _ hwf

/-- The word a tick answers is in a slot, before it or after it. -/
theorem DelayLine.tick_answers_slot {d d' : DelayLine} {x out : Word} (h : d.tick x = some (out, d')) :
    ∃ j, out = d.buf.get j ∨ out = d'.buf.get j := by
  rcases DelayLine.tick_eq_some h with ⟨f, g, rfl, rfl, ht⟩ | ⟨v, u, rfl, rfl, ht⟩
  · exact ⟨f.index, .inl (FDLState.tick_eq_some ht).2.1⟩
  · exact ⟨u.ridx, .inr (VDLState.tick_answers_ridx ht).2⟩

/-- A finite word ticked into a well-formed delay line of finite words: the answer is finite, and so is every slot after. -/
theorem DelayLine.tick_isFinite {d d' : DelayLine} {x out : Word} (hinv : d.Inv) (h : d.tick x = some (out, d'))
    (hx : isFinite x = true) (hd : ∀ j, isFinite (d.buf.get j) = true) :
    isFinite out = true ∧ ∀ j, isFinite (d'.buf.get j) = true := by
  have hslots : ∀ j, isFinite (d'.buf.get j) = true := fun j => by
    rcases DelayLine.tick_slot hinv h j with hj | hj
    · rw [hj, hx]
    · rw [hj, hd]
  obtain ⟨j, hj | hj⟩ := DelayLine.tick_answers_slot h
  · exact ⟨by rw [hj, hd], hslots⟩
  · exact ⟨by rw [hj, hslots], hslots⟩

/-- Settles O35: every product but `1 * x` is a zero, and the words stored and answered are finite. -/
theorem echoIdentitySetting : Obligations.EchoIdentitySetting := by
  intro s e hready he hinv hfb hdry hwet hx hbuf
  obtain ⟨out, e', htick, -⟩ := EchoState.tick_of_inv (nanDraw s.draws) s.a.a0 hinv
  refine ⟨_, e', exec_of_body_done (i := .echoTick) hready (echoTickBody_of_tick he htick), rfl, ?_⟩
  obtain ⟨r, delayed, d, hpeek, hline, rfl, rfl⟩ := EchoState.tick_eq_some htick
  obtain ⟨j, rfl⟩ := DelayLine.peek_eq_slot hpeek
  have hfed := EchoState.isFinite_fed (nanDraw s.draws) hfb hx (hbuf j)
  obtain ⟨hdelayed, hbuf'⟩ := DelayLine.tick_isFinite hinv.1 hline hfed hbuf
  obtain ⟨hfin, hnum, hword⟩ := EchoState.mix_identity (nanDraw s.draws) hdry hwet hx hdelayed
  exact ⟨hfin, hnum, hword, hbuf'⟩

/-! ### An echo's delay line after the words fed to it (R122, R123) -/

/-- The side of an owned delay line that is written: that of a fixed line, whatever the backing. -/
def DelayLine.writeSide : DelayLine → FDLState
  | .fixedLine f => f
  | .variableLine v => v.writeSide

/-- What an echo's `k`-th tick peeks (R117 step 1), in terms of the words fed so far and the delayed samples so far. -/
def DelayLine.peekAt (fed delayed : List Word) (k : Nat) : DelayLine → Word
  | .fixedLine f => before fed k f.N
  | .variableLine _ => before delayed k 1

/-- The delayed sample of an echo's `k`-th tick (R117 step 3), in terms of the words fed up to it. -/
def DelayLine.delayedAt (fed : List Word) (k : Nat) : DelayLine → Word
  | .fixedLine f => before fed k f.N
  | .variableLine v => before fed k v.offset

/-- What an owned delay line is after the words `fed` have been ticked in and `delayed` have been answered. -/
structure DelayLine.Follows (fed delayed : List Word) (d : DelayLine) : Prop where
  count : delayed.length = fed.length
  written : d.writeSide.Follows fed
  peek : d.peek = some (d.peekAt fed delayed fed.length)

theorem DelayLine.Follows.newFixed {N : Nat} (h : 1 ≤ N) : (DelayLine.fixedLine (FDLState.new N)).Follows [] [] where
  count := rfl
  written := .new N
  peek := (FDLState.peek_of_lt (.new N) h).trans (by simp [DelayLine.peekAt, before, FDLState.new])

theorem DelayLine.Follows.newVariable {N : Nat} (o : Nat) (h : 1 ≤ N) :
    (DelayLine.variableLine (VDLState.new N o)).Follows [] [] where
  count := rfl
  written := .new N
  peek := (VDLState.peek_of_lt (.new N o) (readIndex_lt 0 o h)).trans (by simp [DelayLine.peekAt, before, VDLState.new])

/-- The peek of a fixed line looks forward: it is what the next tick answers. -/
theorem FDLState.Follows.peek {xs : List Word} {f : FDLState} (hfol : f.Follows xs) (hinv : f.Inv) :
    f.peek = some (before xs xs.length f.N) := by
  have ⟨_, _, hlt, _⟩ := hinv
  obtain ⟨hout, -⟩ := hfol.tick hinv (FDLState.tick_of_lt f 0 hlt)
  rw [FDLState.peek_of_lt f hlt, hout]

theorem before_append_last (xs : List Word) (x : Word) {n : Nat} (h : xs.length = n) :
    before (xs ++ [x]) (n + 1) 1 = x := by
  subst h; simp [before]

/-- One tick of an owned delay line: it answers the delayed sample, and follows the longer sequences. -/
theorem DelayLine.Follows.tick {fed delayed : List Word} {d d' : DelayLine} {w out : Word} (hfol : d.Follows fed delayed)
    (hinv : d.Inv) (h : d.tick w = some (out, d')) :
    out = d.delayedAt (fed ++ [w]) fed.length ∧ d'.Follows (fed ++ [w]) (delayed ++ [out]) := by
  obtain ⟨hcount, hwritten, -⟩ := hfol
  have hcount' : (delayed ++ [out]).length = (fed ++ [w]).length := by simp [hcount]
  rcases DelayLine.tick_eq_some h with ⟨f, g, rfl, rfl, ht⟩ | ⟨v, u, rfl, rfl, ht⟩
  · have hf := DelayLine.inv_fixed.mp hinv
    obtain ⟨hout, -, hg⟩ := FDLState.Follows.tick hwritten hf ht
    exact ⟨hout.trans (before_append le_rfl hf.1 _).symm, hcount', hg, hg.peek (FDLState.tick_inv hf ht)⟩
  · obtain ⟨hout, -, hu⟩ := VDLState.tick_delays hwritten (DelayLine.inv_variable.mp hinv) ht
    obtain ⟨hr, hslot⟩ := VDLState.tick_answers_ridx ht
    refine ⟨hout, hcount', hu, (VDLState.peek_of_lt u hr).trans (congrArg some ?_)⟩
    rw [← hslot, DelayLine.peekAt, List.length_append, List.length_singleton, before_append_last _ _ hcount]

/-- One tick of an echo (R117): what it feeds, what it delays, what it answers, and the line it leaves. -/
theorem EchoState.tick_follows {nan : Nat → Word} {fed delayed : List Word} {e e' : EchoState} {x out : Word}
    (hfol : e.delay.Follows fed delayed) (hinv : e.delay.Inv) (h : e.tick nan x = some (out, e')) :
    ∃ w y, w = e.fed nan x (e.delay.peekAt fed delayed fed.length) ∧ y = e.delay.delayedAt (fed ++ [w]) fed.length ∧
      out = e.mix nan x y ∧ e'.delay.Follows (fed ++ [w]) (delayed ++ [y]) := by
  obtain ⟨r, y, d, hpeek, hline, rfl, rfl⟩ := EchoState.tick_eq_some h
  obtain rfl : r = _ := Option.some.inj (hpeek.symm.trans hfol.peek)
  obtain ⟨hy, hfol'⟩ := hfol.tick hinv hline
  exact ⟨_, y, rfl, hy, rfl, hfol'⟩

/-- The offset of an owned delay line set; a fixed one has none. -/
def DelayLine.setOffset (o : Nat) : DelayLine → DelayLine
  | .fixedLine f => .fixedLine f
  | .variableLine v => .variableLine (v.setOffset o)

@[simp] theorem DelayLine.isVariable_setOffset (o : Nat) (d : DelayLine) : (d.setOffset o).isVariable = d.isVariable := by
  cases d <;> rfl

@[simp] theorem DelayLine.capacity_setOffset (o : Nat) (d : DelayLine) : (d.setOffset o).capacity = d.capacity := by
  cases d <;> rfl

theorem DelayLine.exists_setOffset_eq (d : DelayLine) : ∃ o, d = d.setOffset o := by
  cases d with
  | fixedLine f => exact ⟨0, rfl⟩
  | variableLine v => exact ⟨v.offset, rfl⟩

/-- Setting the offset leaves what was written and what is peeked. -/
theorem DelayLine.Follows.setOffset {fed delayed : List Word} {d : DelayLine} (h : d.Follows fed delayed) (o : Nat) :
    (d.setOffset o).Follows fed delayed := by
  cases d with
  | fixedLine f => exact h
  | variableLine v => exact ⟨h.count, ⟨h.written.index, h.written.slots⟩, h.peek⟩

/-! ### What a command does to a constructed echo -/

/-- Everything a command can do to a constructed echo: leave its delay line but for the offset, and then it is no completed
ECHO.TICK, or tick it. -/
theorem exec_next_echo {i : Instr} {s t : State} {e : EchoState} (he : s.echo = some e) (h : exec i s = .next t) :
    ((∃ e' o, t.echo = some e' ∧ e'.delay = e.delay.setOffset o) ∧ ticksOf .echoTick [⟨i, s, t⟩] = []) ∨
      ∃ e', e.tick (nanDraw s.draws) s.a.a0 = some (t.r0, e') ∧ t.echo = some e' ∧
        ticksOf .echoTick [⟨i, s, t⟩] = [⟨i, s, t⟩] := by
  obtain ⟨o, ho⟩ := e.delay.exists_setOffset_eq
  rcases exec_eq_next h with ⟨r, rfl⟩ | ⟨hok, hbody⟩
  · exact .inl ⟨⟨e, o, he, ho⟩, ticksOf_not_tick fun _ => rfl⟩
  by_cases hu : i.unit = .echo
  · cases i with
    | echoNewf => obtain ⟨hn, -⟩ := echoNewfBody_done hbody; rw [he] at hn; cases hn
    | echoNewv => obtain ⟨hn, -⟩ := echoNewvBody_done hbody; rw [he] at hn; cases hn
    | echoTick =>
      obtain ⟨e₀, out, e', he₀, ht, rfl⟩ := echoTickBody_done hbody
      obtain rfl : e = e₀ := Option.some.inj (he.symm.trans he₀)
      exact .inr ⟨e', ht, rfl, ticksOf_completed rfl hok⟩
    | echoSetdly =>
      obtain ⟨e₀, v, he₀, hv, -, rfl⟩ := echoSetdlyBody_done hbody
      obtain rfl : e = e₀ := Option.some.inj (he.symm.trans he₀)
      exact .inl ⟨⟨_, s.a.a0.toNat, rfl, by rw [hv]; rfl⟩, ticksOf_not_tick nofun⟩
    | echoSetfb =>
      obtain ⟨e₀, he₀, -, rfl⟩ := echoSetfbBody_done hbody
      obtain rfl : e = e₀ := Option.some.inj (he.symm.trans he₀)
      exact .inl ⟨⟨_, o, rfl, ho⟩, ticksOf_not_tick nofun⟩
    | echoSetmix =>
      obtain ⟨e₀, he₀, -, rfl⟩ := echoSetmixBody_done hbody
      obtain rfl : e = e₀ := Option.some.inj (he.symm.trans he₀)
      exact .inl ⟨⟨_, o, rfl, ho⟩, ticksOf_not_tick nofun⟩
    | _ => cases hu
  · obtain ⟨-, -, hother, -⟩ := bodyOf_done_units hbody
    exact .inl ⟨⟨e, o, (hother hu).trans he, ho⟩, ticksOf_not_tick fun hi => absurd (congrArg Instr.unit hi) hu⟩

/-! ### The recurrence of an echo over either backing (R122, R123) -/

/-- The echo unit, with the backing and the capacity that last until reset. -/
structure State.HasEcho (var : Bool) (N : Nat) (s : State) (e : EchoState) : Prop where
  unit : s.echo = some e
  backing : e.delay.isVariable = var
  capacity : e.delay.capacity = N

theorem State.HasEcho.fixed {N : Nat} {s : State} {e : EchoState} (h : s.HasEcho false N e) :
    ∃ f, e.delay = .fixedLine f ∧ f.N = N := by
  obtain ⟨-, hback, hcap⟩ := h
  cases hd : e.delay with
  | fixedLine f => rw [hd] at hcap; exact ⟨f, rfl, hcap⟩
  | variableLine v => rw [hd] at hback; cases hback

theorem State.HasEcho.variableLine {N : Nat} {s : State} {e : EchoState} (h : s.HasEcho true N e) :
    ∃ v, e.delay = .variableLine v := by
  obtain ⟨-, hback, -⟩ := h
  cases hd : e.delay with
  | fixedLine f => rw [hd] at hback; cases hback
  | variableLine v => exact ⟨v, rfl⟩

/-- The recurrence at the `k`-th tick, of echo `e`. -/
structure EchoRecurs (fed delayed : List Word) (k : Nat) (r : Ran) (e : EchoState) : Prop where
  fed_eq : fed.getD k 0 = e.fed (nanDraw r.pre.draws) r.pre.a.a0 (e.delay.peekAt fed delayed k)
  delayed_eq : delayed.getD k 0 = e.delay.delayedAt fed k
  result : r.post.r0 = e.mix (nanDraw r.pre.draws) r.pre.a.a0 (delayed.getD k 0)

theorem DelayLine.delayedAt_append {fed : List Word} {k : Nat} (hk : k < fed.length) (ys : List Word) (d : DelayLine) :
    d.delayedAt (fed ++ ys) k = d.delayedAt fed k := by
  cases d <;> exact before_append_of_lt hk _ ys

theorem DelayLine.peekAt_append {fed delayed : List Word} {k : Nat} (hfed : k ≤ fed.length)
    (hdelayed : k ≤ delayed.length) {d : DelayLine} (h : 1 ≤ d.capacity) (ws ys : List Word) :
    d.peekAt (fed ++ ws) (delayed ++ ys) k = d.peekAt fed delayed k := by
  cases d with
  | fixedLine f => exact before_append hfed h ws
  | variableLine v => exact before_append hdelayed le_rfl ys

/-- The recurrence at a tick does not depend on later ticks. -/
theorem EchoRecurs.append {fed delayed : List Word} {k : Nat} {r : Ran} {e : EchoState} (h : EchoRecurs fed delayed k r e)
    (hfed : k < fed.length) (hdelayed : k < delayed.length) (hcap : 1 ≤ e.delay.capacity) (w y : Word) :
    EchoRecurs (fed ++ [w]) (delayed ++ [y]) k r e := by
  refine ⟨?_, ?_, ?_⟩
  · rw [List.getD_append _ _ _ _ hfed, DelayLine.peekAt_append hfed.le hdelayed.le hcap, h.fed_eq]
  · rw [List.getD_append _ _ _ _ hdelayed, DelayLine.delayedAt_append hfed, h.delayed_eq]
  · rw [List.getD_append _ _ _ _ hdelayed, h.result]

/-- The recurrence after these ticks: the words fed and the samples delayed at each, and the line they leave. -/
structure EchoLaw (var : Bool) (N : Nat) (ks : List Ran) (s : State) (fed delayed : List Word) : Prop where
  count : fed.length = ks.length
  line : ∃ e, s.HasEcho var N e ∧ e.delay.Follows fed delayed
  recurs : ∀ k r, ks[k]? = some r → ∃ e, r.pre.HasEcho var N e ∧ EchoRecurs fed delayed k r e

theorem DelayLine.one_le_capacity {d : DelayLine} (h : d.Inv) : 1 ≤ d.capacity := by
  cases d with
  | fixedLine f => exact (DelayLine.inv_fixed.mp h).1
  | variableLine v => exact (DelayLine.inv_variable.mp h).1

theorem EchoLaw.new {var : Bool} {N : Nat} {s : State} {e : EchoState} (he : s.HasEcho var N e)
    (h : e.delay.Follows [] []) : EchoLaw var N [] s [] [] :=
  ⟨rfl, ⟨e, he, h⟩, fun _ _ h => by cases h⟩

/-- An entry of a list with one more at its end. -/
theorem getElem?_concat_eq_some {α : Type} {l : List α} {a b : α} {k : Nat} (h : (l ++ [a])[k]? = some b) :
    (k < l.length ∧ l[k]? = some b) ∨ (k = l.length ∧ b = a) := by
  have hk : k < l.length + 1 := by simpa using (List.getElem?_eq_some_iff.mp h).1
  rcases Nat.lt_succ_iff_lt_or_eq.mp hk with hlt | rfl
  · exact .inl ⟨hlt, by rwa [List.getElem?_append_left hlt] at h⟩
  · rw [List.getElem?_concat_length] at h
    cases h; exact .inr ⟨rfl, rfl⟩

/-- One more tick keeps the recurrence. -/
theorem EchoLaw.tick {var : Bool} {N : Nat} {ks : List Ran} {r : Ran} {fed delayed : List Word} {e e' : EchoState}
    (hlaw : EchoLaw var N ks r.pre fed delayed) (hs : r.pre.Inv) (hpre : r.pre.echo = some e)
    (htick : e.tick (nanDraw r.pre.draws) r.pre.a.a0 = some (r.post.r0, e')) (hpost : r.post.echo = some e') :
    ∃ w y, EchoLaw var N (ks ++ [r]) r.post (fed ++ [w]) (delayed ++ [y]) := by
  obtain ⟨hcount, ⟨e₀, he, hfol⟩, hrecurs⟩ := hlaw
  obtain rfl : e = e₀ := Option.some.inj (hpre.symm.trans he.unit)
  obtain ⟨-, -, hecho, -⟩ := hs
  obtain ⟨hinv, -⟩ := hecho e hpre
  have h1 := DelayLine.one_le_capacity hinv
  obtain ⟨w, y, hw, hy, hout, hfol'⟩ := EchoState.tick_follows hfol hinv htick
  obtain ⟨-, -, -, hback, hcap, -⟩ := EchoState.tick_keeps htick
  refine ⟨w, y, by simp [hcount], ⟨e', ⟨hpost, hback.trans he.backing, hcap.trans he.capacity⟩, hfol'⟩,
    fun k q hq => ?_⟩
  rcases getElem?_concat_eq_some hq with ⟨hk, hq⟩ | ⟨rfl, rfl⟩
  · obtain ⟨e₁, he₁, hrec⟩ := hrecurs k q hq
    exact ⟨e₁, he₁, hrec.append (hcount ▸ hk) (by rwa [hfol.count, hcount]) (by rwa [he₁.capacity, ← he.capacity]) w y⟩
  · have hlast : (delayed ++ [y]).getD ks.length 0 = y := by simp [← hcount, ← hfol.count]
    refine ⟨e, he, ?_, ?_, ?_⟩
    · rw [← hcount, DelayLine.peekAt_append le_rfl hfol.count.ge h1, ← hw]; simp
    · rw [hlast, hy, hcount]
    · rw [hlast, hout]

/-- Every command keeps the recurrence. -/
theorem EchoLaw.command {var : Bool} {N : Nat} {ks : List Ran} {i : Instr} {s t : State} (hs : s.Inv)
    (hlaw : ∃ fed delayed, EchoLaw var N ks s fed delayed) (h : exec i s = .next t) :
    ∃ fed delayed, EchoLaw var N (ks ++ ticksOf .echoTick [⟨i, s, t⟩]) t fed delayed := by
  obtain ⟨fed, delayed, hlaw⟩ := hlaw
  obtain ⟨e, he, hfol⟩ := hlaw.line
  rcases exec_next_echo he.unit h with ⟨⟨e', o, he', hd⟩, hno⟩ | ⟨e', htick, he', hone⟩
  · rw [hno, List.append_nil]
    refine ⟨fed, delayed, hlaw.count, ⟨e', ⟨he', ?_, ?_⟩, hd ▸ hfol.setOffset o⟩, hlaw.recurs⟩
    · rw [hd, DelayLine.isVariable_setOffset, he.backing]
    · rw [hd, DelayLine.capacity_setOffset, he.capacity]
  · rw [hone]
    obtain ⟨w, y, hlaw'⟩ := EchoLaw.tick (r := ⟨i, s, t⟩) hlaw hs he.unit htick he'
    exact ⟨_, _, hlaw'⟩

/-- An operand write does not touch the recurrence. -/
theorem EchoLaw.operands {var : Bool} {N : Nat} {ks : List Ran} {s : State} {fed delayed : List Word}
    (hlaw : EchoLaw var N ks s fed delayed) (a : OperandRegs) : EchoLaw var N ks { s with a := a } fed delayed := by
  obtain ⟨hcount, ⟨e, ⟨hunit, hback, hcap⟩, hfol⟩, hrecurs⟩ := hlaw
  exact ⟨hcount, ⟨e, ⟨hunit, hback, hcap⟩, hfol⟩, hrecurs⟩

/-- Every program keeps the recurrence. -/
theorem EchoLaw.program {var : Bool} {N : Nat} {s : State} (hlaw : EchoLaw var N [] s [] []) (hs : s.Inv)
    (cs : List (Instr × OperandRegs)) :
    ∃ h t fed delayed, history cs s = some (h, t) ∧ EchoLaw var N (ticksOf .echoTick h) t fed delayed := by
  obtain ⟨h, t, hrun, fed, delayed, hlaw'⟩ :=
    history_induction (i := .echoTick) (P := fun ks s => ∃ fed delayed, EchoLaw var N ks s fed delayed)
      (fun _ a _ ⟨fed, delayed, hk⟩ => ⟨fed, delayed, hk.operands a⟩) (fun _ _ _ _ => EchoLaw.command) cs hs
      ⟨[], [], hlaw⟩
  exact ⟨h, t, fed, delayed, hrun, hlaw'⟩

/-- The words the `k`-th of these ticks draws for NaN results (U1). -/
def tickNans (ks : List Ran) (k : Nat) : Nat → Word := nanDraw ((ks[k]?.map fun r => r.pre.draws).getD 0)

theorem tickNans_of_getElem? {ks : List Ran} {k : Nat} {r : Ran} (h : ks[k]? = some r) :
    tickNans ks k = nanDraw r.pre.draws := by
  rw [tickNans, h]; rfl

/-- Settles O33: over a fixed backing peek and delayed sample are one, the word fed the capacity before. -/
theorem echoFixedRecurrence : Obligations.EchoFixedRecurrence := by
  intro s₀ s cs hs₀ hready hn hnew hok
  have hs := exec_keeps_inv hs₀ hnew
  rcases exec_eq_next hnew with ⟨r, rfl⟩ | ⟨-, hbody⟩
  · cases hok
  obtain ⟨-, h1, -, -, -, rfl⟩ := echoNewfBody_done hbody
  obtain ⟨h, t, fed, delayed, hrun, hlaw⟩ :=
    (EchoLaw.new ⟨rfl, rfl, rfl⟩ (DelayLine.Follows.newFixed h1)).program hs cs
  refine ⟨h, t, fed, tickNans (ticksOf .echoTick h), hrun, hlaw.count, fun _ _ => isQuietNaN_nanDraw _ _,
    fun k r hr => ?_⟩
  obtain ⟨e, he, hfed, hdelayed, hout⟩ := hlaw.recurs k r hr
  obtain ⟨f, hd, hN⟩ := he.fixed
  rw [hd, DelayLine.peekAt, hN] at hfed
  rw [hdelayed, hd, DelayLine.delayedAt, hN] at hout
  rw [tickNans_of_getElem? hr]
  exact ⟨e, he.unit, hfed, hout⟩

/-- Settles O34: a variable line peeks what its last tick delayed, and delays by its offset. -/
theorem echoVariableRecurrence : Obligations.EchoVariableRecurrence := by
  intro s₀ s cs hs₀ hready hn hnew hok
  have hs := exec_keeps_inv hs₀ hnew
  rcases exec_eq_next hnew with ⟨r, rfl⟩ | ⟨-, hbody⟩
  · cases hok
  obtain ⟨-, h1, -, -, -, rfl⟩ := echoNewvBody_done hbody
  obtain ⟨h, t, fed, delayed, hrun, hlaw⟩ :=
    (EchoLaw.new ⟨rfl, rfl, rfl⟩ (DelayLine.Follows.newVariable _ h1)).program hs cs
  obtain ⟨_, -, hfol⟩ := hlaw.line
  refine ⟨h, t, fed, delayed, tickNans (ticksOf .echoTick h), hrun, hlaw.count, hfol.count.trans hlaw.count,
    fun _ _ => isQuietNaN_nanDraw _ _, fun k r hr => ?_⟩
  obtain ⟨e, he, hfed, hdelayed, hout⟩ := hlaw.recurs k r hr
  obtain ⟨v, hd⟩ := he.variableLine
  rw [hd, DelayLine.peekAt] at hfed
  rw [hd, DelayLine.delayedAt] at hdelayed
  rw [tickNans_of_getElem? hr]
  exact ⟨e, v, he.unit, hd, hfed, hdelayed, hout⟩

end Sys2Proof.Machine
end

section
/-! PROOFS. The statements about the modulated delay effect (R135 to R137, R140): what its commands come to, when the
oscillator is exchanged with, and what a program of commands leaves. -/

namespace Sys2Proof.Machine

/-! ### MDE.NEW (R135) -/

theorem mdeNewBody_of_constructed {s : State} (h : s.mde ≠ none) : mdeNewBody s = .raise .alreadyConstructed := by
  obtain ⟨m, hm⟩ := Option.ne_none_iff_exists'.mp h
  rw [mdeNewBody, hm]

/-- The effect MDE.NEW builds from the operands of a state. -/
def State.newMde (s : State) : MDEState where
  base := s.a.a0.toNat
  lfoIndex := s.a.a1
  depth := s.a.a2
  echo := { delay := .variableLine (VDLState.new (s.a.a0.toNat + 1) s.a.a0.toNat), feedback := s.a.a3, dry := s.a.a4,
            wet := s.a.a5 }

theorem mdeNewBody_of_not_constructed {s : State} (h : s.mde = none) :
    mdeNewBody s = if Config.capMax < s.a.a0.toNat + 1 then .raise .badCapacity
      else if !inUnit s.a.a3 then .raise .badFeedback
      else if !mixOK s.a.a4 s.a.a5 then .raise .badMix
      else .done { s with mde := some s.newMde } := by
  have hcap : Config.capMax - 1 < s.a.a0.toNat ↔ Config.capMax < s.a.a0.toNat + 1 :=
    Nat.sub_lt_iff_lt_add (show 1 ≤ Config.capMax by decide)
  simp only [mdeNewBody, h, State.opU_0, hcap]; rfl

/-- Settles O36: the body of MDE.NEW looks at the unit, the capacity, the feedback and the mix, in this order. -/
theorem mdeNewConstructs : Obligations.MdeNewConstructs := by
  intro s hready
  refine ⟨fun hc => raises_of_body hready (mdeNewBody_of_constructed hc), fun hn hbad => ?_, fun hn hcap hu => ?_,
    fun hn hcap hu hm => ?_, fun hn hcap hu hm => ?_⟩
  · exact raises_of_body hready ((mdeNewBody_of_not_constructed hn).trans (if_pos hbad))
  · exact raises_of_body hready ((mdeNewBody_of_not_constructed hn).trans (by simp [hcap.not_gt, hu]))
  · exact raises_of_body hready ((mdeNewBody_of_not_constructed hn).trans (by simp [hcap.not_gt, hu, hm]))
  · refine ⟨VDLState.new (s.a.a0.toNat + 1) s.a.a0.toNat, exec_of_body_done (i := .mdeNew) hready ?_, rfl, rfl, rfl, ?_,
      fun j hj => bufRead_of_lt _ hj⟩
    · exact (mdeNewBody_of_not_constructed hn).trans (by simp [hcap.not_gt, hu, hm, State.newMde])
    · simp only [VDLState.new, readIndex, Nat.zero_add, Nat.add_sub_cancel_left]

/-! ### MDE.TICK (R136, R137) -/

/-- The state after an exchange with the oscillator: an answer is taken, the sample is presented. -/
theorem oscExchange_snd (x : Word) (s : State) :
    (oscExchange x s).2 = { s with oscIn := s.oscIn.tail, oscOut := x :: s.oscOut } := by
  unfold oscExchange; cases s.oscIn <;> rfl

theorem mdeTickBody_of_tick {s : State} {m m' : MDEState} {out : Word} (hm : s.mde = some m)
    (hvar : m.echo.delay.isVariable = true)
    (h : m.tick (nanDraw s.draws) (oscExchange s.a.a0 s).1 s.a.a0 = some (out, m')) :
    mdeTickBody s = .done { s with mde := some m', oscIn := s.oscIn.tail, oscOut := s.a.a0 :: s.oscOut, r0 := out,
                                   draws := s.draws + 1 } := by
  simp only [mdeTickBody, hm, hvar, State.opF_0, h, oscExchange_snd]; rfl

theorem State.not_constructed_mde {s : State} (h : s.mde = none) : ¬s.constructed .mde = true := by
  simp [State.constructed, h]

/-- Settles O37: R23 puts the indices of the inner line in its buffer, where the tick peeks one slot and writes one. -/
theorem mdeTickModulates : Obligations.MdeTickModulates := by
  intro s hready
  refine ⟨fun hn => raises_of_body hready (bodyOf_notConstructed rfl (State.not_constructed_mde hn)),
    fun m v hm ⟨_, ⟨hinv, _⟩, hvar, _⟩ hd => ?_⟩
  obtain ⟨-, -, hw, hr, -, hwf, -⟩ := DelayLine.inv_variable.mp (hd ▸ hinv)
  have htick := MDEState.tick_variable (nanDraw s.draws) (oscExchange s.a.a0 s).1 s.a.a0 hd hw hr
  exact ⟨(oscExchange s.a.a0 s).1, nanDraw s.draws, _, _, _, _, isQuietNaN_nanDraw _,
    fun o rest ho => oscExchange_listed _ o rest s ho, rfl, rfl,
    exec_of_body_done (i := .mdeTick) hready (mdeTickBody_of_tick hm hvar htick), Memory.get_set_same _ _ _ hwf,
    fun j hj => Memory.get_set_other _ _ _ _ hj⟩

/-- The body of MDE.TICK exchanges with the oscillator once. -/
theorem mdeTickBody_done_osc {s t : State} (h : mdeTickBody s = .done t) :
    t.oscOut = s.a.a0 :: s.oscOut ∧ t.oscIn = s.oscIn.tail := by
  obtain ⟨_, _, _, -, -, rfl⟩ := mdeTickBody_done h
  exact ⟨oscExchange_oscOut _ _, oscExchange_oscIn _ _⟩

/-- Every other body leaves the oscillator alone. -/
theorem bodyOf_done_osc {i : Instr} {s t : State} (h : bodyOf i s = .done t) (hi : i ≠ .mdeTick) :
    t.oscOut = s.oscOut ∧ t.oscIn = s.oscIn := by
  cases i with
  | fdlNew => obtain ⟨-, -, -, rfl⟩ := fdlNewBody_done h; exact ⟨rfl, rfl⟩
  | fdlTick => obtain ⟨_, _, _, -, -, rfl⟩ := fdlTickBody_done h; exact ⟨rfl, rfl⟩
  | fdlRead => obtain ⟨_, _, -, -, rfl⟩ := fdlReadBody_done h; exact ⟨rfl, rfl⟩
  | vdlNew => obtain ⟨-, -, -, -, rfl⟩ := vdlNewBody_done h; exact ⟨rfl, rfl⟩
  | vdlTick => obtain ⟨_, _, _, -, -, rfl⟩ := vdlTickBody_done h; exact ⟨rfl, rfl⟩
  | vdlRead => obtain ⟨_, _, -, -, rfl⟩ := vdlReadBody_done h; exact ⟨rfl, rfl⟩
  | vdlSetoff => obtain ⟨_, -, -, rfl⟩ := vdlSetoffBody_done h; exact ⟨rfl, rfl⟩
  | echoNewf => obtain ⟨-, -, -, -, -, rfl⟩ := echoNewfBody_done h; exact ⟨rfl, rfl⟩
  | echoTick => obtain ⟨_, _, _, -, -, rfl⟩ := echoTickBody_done h; exact ⟨rfl, rfl⟩
  | echoSetdly => obtain ⟨_, _, -, -, -, rfl⟩ := echoSetdlyBody_done h; exact ⟨rfl, rfl⟩
  | echoSetfb => obtain ⟨_, -, -, rfl⟩ := echoSetfbBody_done h; exact ⟨rfl, rfl⟩
  | echoSetmix => obtain ⟨_, -, -, rfl⟩ := echoSetmixBody_done h; exact ⟨rfl, rfl⟩
  | echoNewv => obtain ⟨-, -, -, -, -, rfl⟩ := echoNewvBody_done h; exact ⟨rfl, rfl⟩
  | mdeNew => obtain ⟨-, -, -, -, rfl⟩ := mdeNewBody_done h; exact ⟨rfl, rfl⟩
  | mdeTick => exact absurd rfl hi

/-- Settles O38: a command that only records a fault exchanges nothing, and one that completes does as its body. -/
theorem oneOscillatorExchangePerTick : Obligations.OneOscillatorExchangePerTick := by
  intro i s t h
  rcases exec_eq_next h with ⟨r, rfl⟩ | ⟨hok, hbody⟩
  · exact ⟨nofun, fun _ => ⟨rfl, rfl⟩⟩
  · exact ⟨fun ⟨hi, _⟩ => mdeTickBody_done_osc (by rwa [hi] at hbody),
      fun hi => bodyOf_done_osc hbody (hi.resolve_right (absurd hok))⟩

/-! ### What a command does to a constructed effect -/

/-- Everything a command can do to a constructed effect: leave it, and then it is no completed MDE.TICK, or tick it. -/
theorem exec_next_mde {i : Instr} {s t : State} {m : MDEState} (hm : s.mde = some m) (h : exec i s = .next t) :
    (t.mde = some m ∧ ticksOf .mdeTick [⟨i, s, t⟩] = []) ∨
      ∃ m', m.tick (nanDraw s.draws) (oscExchange s.a.a0 s).1 s.a.a0 = some (t.r0, m') ∧ t.mde = some m' ∧
        ticksOf .mdeTick [⟨i, s, t⟩] = [⟨i, s, t⟩] := by
  rcases exec_eq_next h with ⟨r, rfl⟩ | ⟨hok, hbody⟩
  · exact .inl ⟨hm, ticksOf_not_tick fun _ => rfl⟩
  by_cases hu : i.unit = .mde
  · cases i with
    | mdeNew => obtain ⟨hn, -⟩ := mdeNewBody_done hbody; rw [hm] at hn; cases hn
    | mdeTick =>
      obtain ⟨m₀, out, m', hm₀, ht, rfl⟩ := mdeTickBody_done hbody
      obtain rfl : m = m₀ := Option.some.inj (hm.symm.trans hm₀)
      exact .inr ⟨m', ht, rfl, ticksOf_completed rfl hok⟩
    | _ => cases hu
  · obtain ⟨-, -, -, hother⟩ := bodyOf_done_units hbody
    exact .inl ⟨(hother hu).trans hm, ticksOf_not_tick fun hi => absurd (congrArg Instr.unit hi) hu⟩

/-! ### The recurrence of the modulated effect (R140) -/

/-- The effect with another delay line in its echo: all that its ticks change. -/
def MDEState.withLine (m : MDEState) (d : DelayLine) : MDEState := { m with echo := { m.echo with delay := d } }

/-- One tick of an effect (R136): what it feeds, what it delays, what it answers, and the line it leaves. -/
theorem MDEState.tick_follows {nan : Nat → Word} {fed delayed : List Word} {m m' : MDEState} {d : DelayLine}
    {osc x out : Word} (hfol : d.Follows fed delayed) (hinv : (m.withLine d).Inv)
    (h : (m.withLine d).tick nan osc x = some (out, m')) :
    ∃ w y d', w = m.echo.fed (fun k => nan (k + 5)) x (before delayed fed.length 1) ∧
      y = before (fed ++ [w]) fed.length (m.length nan osc) ∧
      out = fmul (nan 10) (m.echo.mix (fun k => nan (k + 5)) x y) m.depth ∧ m' = m.withLine d' ∧
      d'.Follows (fed ++ [w]) (delayed ++ [y]) := by
  obtain ⟨v, hv, hvinv, hN⟩ := MDEState.variable_of_inv hinv
  obtain rfl : d = .variableLine v := hv
  have hlen : m.length nan osc < v.N := hN ▸ MDEState.length_lt (m := m) nan osc hinv.1
  obtain ⟨v₀, z, e, hv₀, he, rfl, rfl⟩ := MDEState.tick_eq_some h
  obtain rfl : v = v₀ := DelayLine.variableLine.inj hv₀
  obtain ⟨w, y, hw, hy, rfl, hfol'⟩ :=
    EchoState.tick_follows (hfol.setOffset _) (DelayLine.inv_variable.mpr (VDLState.setOffset_inv hvinv hlen)) he
  obtain ⟨_, _, _, -, -, -, rfl⟩ := EchoState.tick_eq_some he
  exact ⟨w, y, _, hw, hy, rfl, rfl, hfol'⟩

/-- The delay length of a completed MDE.TICK (R136 step 2), from the answer it was given. -/
def MDEState.lengthAt (m : MDEState) (r : Ran) : Nat :=
  m.length (nanDraw r.pre.draws) (oscExchange r.pre.a.a0 r.pre).1

/-- The words the inner echo of a completed MDE.TICK draws for NaN results: after the five of R136 steps 1 and 2 (U1). -/
def Ran.echoNans (r : Ran) (k : Nat) : Word := nanDraw r.pre.draws (k + 5)

/-- The recurrence at the `k`-th tick, of an effect with the parameters of `m`. -/
structure MdeRecurs (m : MDEState) (fed delayed : List Word) (k : Nat) (r : Ran) : Prop where
  fed_eq : fed.getD k 0 = m.echo.fed r.echoNans r.pre.a.a0 (before delayed k 1)
  delayed_eq : delayed.getD k 0 = before fed k (m.lengthAt r)
  result : r.post.r0 = fmul (nanDraw r.pre.draws 10) (m.echo.mix r.echoNans r.pre.a.a0 (delayed.getD k 0)) m.depth

/-- The recurrence at a tick does not depend on later ticks. -/
theorem MdeRecurs.append {m : MDEState} {fed delayed : List Word} {k : Nat} {r : Ran} (h : MdeRecurs m fed delayed k r)
    (hfed : k < fed.length) (hdelayed : k < delayed.length) (w y : Word) :
    MdeRecurs m (fed ++ [w]) (delayed ++ [y]) k r := by
  refine ⟨?_, ?_, ?_⟩
  · rw [List.getD_append _ _ _ _ hfed, before_append hdelayed.le le_rfl, h.fed_eq]
  · rw [List.getD_append _ _ _ _ hdelayed, before_append_of_lt hfed, h.delayed_eq]
  · rw [List.getD_append _ _ _ _ hdelayed, h.result]

/-- The recurrence after these ticks of an effect built as `m`: the words fed and the samples delayed at each, and the
line they leave, in an effect that is otherwise still `m`. -/
structure MdeLaw (m : MDEState) (ks : List Ran) (s : State) (fed delayed : List Word) : Prop where
  count : fed.length = ks.length
  line : ∃ d, s.mde = some (m.withLine d) ∧ d.Follows fed delayed
  recurs : ∀ k r, ks[k]? = some r → MdeRecurs m fed delayed k r

theorem MdeLaw.new {m : MDEState} {s : State} (hm : s.mde = some m) (h : m.echo.delay.Follows [] []) :
    MdeLaw m [] s [] [] :=
  ⟨rfl, ⟨m.echo.delay, hm, h⟩, fun _ _ h => by cases h⟩

/-- One more tick keeps the recurrence. -/
theorem MdeLaw.tick {m m' : MDEState} {d : DelayLine} {ks : List Ran} {r : Ran} {fed delayed : List Word}
    (hlaw : MdeLaw m ks r.pre fed delayed) (hfol : d.Follows fed delayed) (hinv : (m.withLine d).Inv)
    (htick : (m.withLine d).tick (nanDraw r.pre.draws) (oscExchange r.pre.a.a0 r.pre).1 r.pre.a.a0 =
      some (r.post.r0, m')) (hpost : r.post.mde = some m') :
    ∃ w y, MdeLaw m (ks ++ [r]) r.post (fed ++ [w]) (delayed ++ [y]) := by
  obtain ⟨hcount, -, hrecurs⟩ := hlaw
  obtain ⟨w, y, d', hw, hy, hout, rfl, hfol'⟩ := MDEState.tick_follows hfol hinv htick
  refine ⟨w, y, by simp [hcount], ⟨d', hpost, hfol'⟩, fun k q hq => ?_⟩
  rcases getElem?_concat_eq_some hq with ⟨hk, hq⟩ | ⟨rfl, rfl⟩
  · exact (hrecurs k q hq).append (hcount ▸ hk) (by rwa [hfol.count, hcount]) w y
  · have hlast : (delayed ++ [y]).getD ks.length 0 = y := by simp [← hcount, ← hfol.count]
    refine ⟨?_, ?_, ?_⟩
    · rw [← hcount, before_append hfol.count.ge le_rfl]
      exact (show (fed ++ [w]).getD fed.length 0 = w by simp).trans hw
    · rw [hlast, ← hcount]; exact hy
    · rw [hlast]; exact hout

/-- Every command keeps the recurrence. -/
theorem MdeLaw.command {m : MDEState} {ks : List Ran} {i : Instr} {s t : State} (hs : s.Inv)
    (hlaw : ∃ fed delayed, MdeLaw m ks s fed delayed) (h : exec i s = .next t) :
    ∃ fed delayed, MdeLaw m (ks ++ ticksOf .mdeTick [⟨i, s, t⟩]) t fed delayed := by
  obtain ⟨fed, delayed, hlaw⟩ := hlaw
  obtain ⟨d, hm, hfol⟩ := hlaw.line
  rcases exec_next_mde hm h with ⟨hkeep, hno⟩ | ⟨m', htick, hm', hone⟩
  · rw [hno, List.append_nil]
    exact ⟨fed, delayed, hlaw.count, ⟨d, hkeep, hfol⟩, hlaw.recurs⟩
  · rw [hone]
    obtain ⟨-, -, -, hmde⟩ := hs
    obtain ⟨w, y, hlaw'⟩ := MdeLaw.tick (r := ⟨i, s, t⟩) hlaw hfol (hmde _ hm) htick hm'
    exact ⟨_, _, hlaw'⟩

/-- Every program keeps the recurrence. -/
theorem MdeLaw.program {m : MDEState} {s : State} (hlaw : MdeLaw m [] s [] []) (hs : s.Inv)
    (cs : List (Instr × OperandRegs)) :
    ∃ h t fed delayed, history cs s = some (h, t) ∧ MdeLaw m (ticksOf .mdeTick h) t fed delayed := by
  obtain ⟨h, t, hrun, fed, delayed, hlaw'⟩ :=
    history_induction (i := .mdeTick) (P := fun ks s => ∃ fed delayed, MdeLaw m ks s fed delayed)
      (fun _ _ _ ⟨fed, delayed, hk⟩ => ⟨fed, delayed, hk.count, hk.line, hk.recurs⟩) (fun _ _ _ _ => MdeLaw.command)
      cs hs ⟨[], [], hlaw⟩
  exact ⟨h, t, fed, delayed, hrun, hlaw'⟩

/-- Settles O40: a variable line peeks what its last tick delayed, and delays by the length just computed. -/
theorem mdeRecurrence : Obligations.MdeRecurrence := by
  intro s₀ s cs hs₀ hready hn hnew hok
  have hs := exec_keeps_inv hs₀ hnew
  rcases exec_eq_next hnew with ⟨r, rfl⟩ | ⟨-, hbody⟩
  · cases hok
  obtain ⟨-, hbase, -, -, rfl⟩ := mdeNewBody_done hbody
  obtain ⟨h, t, fed, delayed, hrun, hlaw⟩ :=
    (MdeLaw.new (m := s₀.newMde) rfl (DelayLine.Follows.newVariable _ (Nat.le_add_left 1 _))).program hs cs
  obtain ⟨_, -, hfol⟩ := hlaw.line
  refine ⟨h, t, fed, delayed, (ticksOf .mdeTick h).map s₀.newMde.lengthAt, tickNans (ticksOf .mdeTick h), hrun,
    hlaw.count, hfol.count.trans hlaw.count, List.length_map _, fun _ _ => isQuietNaN_nanDraw _ _, fun k r hr => ?_⟩
  have hlen : ((ticksOf .mdeTick h).map s₀.newMde.lengthAt).getD k 0 = s₀.newMde.lengthAt r := by
    rw [List.getD_eq_getElem?_getD, List.getElem?_map, hr, Option.map_some, Option.getD_some]
  obtain ⟨hfed, hdelayed, hout⟩ := hlaw.recurs k r hr
  rw [hlen, tickNans_of_getElem? hr]
  exact ⟨rfl, Nat.le_of_lt_succ (MDEState.length_lt _ _ hbase), hfed, hdelayed, hout⟩

end Sys2Proof.Machine
end

section
/-! PROOFS. The statements about the configuration fault (R151 to R156): what a recorded fault leaves of a step, and which
of its checks a command reports. -/

namespace Sys2Proof.Machine

/-! ### While a fault is recorded (R154, R155) -/

/-- Any word written to CMD, legal or not, is ignored. -/
theorem issue_faulted {s : State} {r : FaultRecord} (h : s.fault = some r) (w : Word) : issue w s = .next s := by
  unfold issue
  split
  · exact perform_faulted h
  · rw [exec_eq_perform]; exact perform_faulted h

theorem ofNumber_operand (k : Fin 6) : HostReg.ofNumber (8 + k.val) = .operand k := by fin_cases k <;> rfl

/-- A register write changes the operand registers at most. -/
theorem writeReg_faulted {s : State} {r : FaultRecord} (h : s.fault = some r) (reg : HostReg) (w : Word) :
    ∃ a, writeReg reg w s = .next { s with a := a } := by
  cases reg with
  | cmd => exact ⟨s.a, issue_faulted h w⟩
  | operand k => exact ⟨s.a.set k w, rfl⟩
  | status | faultCmd | r0 | reserved => exact ⟨s.a, rfl⟩

/-- A host action that is no reset changes the operand registers and what the host has read at most. -/
theorem performAction_faulted {act : HostAction} {s t : State} {r : FaultRecord} (hfault : s.fault = some r)
    (hact : act ≠ .reset) (h : performAction act s = .next t) : ∃ a rs, t = { s with a := a, reads := rs } := by
  have hwrite {reg : HostReg} {w : Word} (h : writeReg reg w s = .next t) :
      ∃ a rs, t = { s with a := a, reads := rs } := by
    obtain ⟨a, ha⟩ := writeReg_faulted hfault reg w
    exact ⟨a, s.reads, Host.Outcome.next.inj (h.symm.trans ha)⟩
  cases act with
  | write k w => exact hwrite h
  | read k => cases h; exact ⟨_, _, rfl⟩
  | busWrite addr bytes =>
    cases hreg : busReg addr bytes.length with
    | ok reg => exact hwrite ((performAction_busWrite hreg s).symm.trans h)
    | error e => rw [performAction_busWrite_refused hreg] at h; cases h
  | busRead addr size =>
    cases hreg : busReg addr size with
    | ok reg => rw [performAction_busRead hreg] at h; cases h; exact ⟨_, _, rfl⟩
    | error e => rw [performAction_busRead_refused hreg] at h; cases h
  | reset => exact absurd rfl hact

/-- Settles O12: a command of any word is ignored, and the register file answers as it does without a fault. -/
theorem faultedIgnoresCommands : Obligations.FaultedIgnoresCommands := by
  intro s r hfault
  refine ⟨fun i => ?_, fun w rest hhost => ?_, fun k w rest hhost => ⟨s.a.set k w, ?_, ?_, fun j hj => ?_⟩,
    fun k rest hhost => ⟨_, step_cons hhost, ?_, ?_, ?_, ?_⟩⟩
  · rw [exec_eq_perform]; exact perform_faulted hfault
  · exact (step_cons hhost).trans (issue_faulted (s := { s with host := rest }) hfault w)
  · rw [step_cons hhost, performAction, ofNumber_operand, writeReg]
  · exact OperandRegs.get_set_same s.a k w
  · exact OperandRegs.get_set_other s.a j k w hj
  · rintro rfl; rfl
  · rintro rfl; simp only [HostReg.ofNumber, State.readReg, State.faultCmd, hfault]
  · rintro rfl; rfl
  · rintro j rfl; rw [ofNumber_operand, State.readReg]

/-- Settles O13: a step that is no reset consumes an action and changes the operand registers and the replies at most. -/
theorem faultIsPermanentUntilReset : Obligations.FaultIsPermanentUntilReset := by
  intro s t r hfault hreset h
  cases hhost : s.host with
  | nil =>
    rw [step_nil hhost] at h; cases h
    exact ⟨hfault, rfl, rfl, rfl, rfl, rfl, rfl, rfl⟩
  | cons act rest =>
    have hact : act ≠ .reset := by rintro rfl; exact hreset (by rw [hhost, List.head?_cons])
    rw [step_cons hhost] at h
    obtain ⟨_, _, rfl⟩ := performAction_faulted (s := { s with host := rest }) hfault hact h
    exact ⟨hfault, rfl, rfl, rfl, rfl, rfl, rfl, rfl⟩

/-! ### The first check that fails (R151, R152) -/

/-- The cause a body raises, where it raises one. -/
def Effect.raised : Effect → Option Cause
  | .done _ => none
  | .raise c => some c
  | .stop _ => none

@[simp] theorem Effect.raised_done (s : State) : (Effect.done s).raised = none := rfl
@[simp] theorem Effect.raised_raise (c : Cause) : (Effect.raise c).raised = some c := rfl

theorem Effect.raised_ite (p : Prop) [Decidable p] (x y : Effect) :
    (if p then x else y).raised = if p then x.raised else y.raised := apply_ite ..

theorem Effect.raised_eq_some {e : Effect} {c : Cause} : e.raised = some c ↔ e = .raise c := by
  cases e <;> simp [Effect.raised]

theorem firstCause_cons (c : Cause) (fails : Bool) (rest : List (Cause × Bool)) :
    (((c, fails) :: rest).find? Prod.snd).map Prod.fst =
      if fails then some c else (rest.find? Prod.snd).map Prod.fst := by cases fails <;> rfl

/-- Of a unit in the state the command asks for, the checks that are left are those of the backing and of the operands. -/
theorem State.firstFailing_of_applicable {i : Instr} {s : State} (h : s.constructed i.unit = !i.constructs) :
    s.firstFailing i =
      if decide (i = .echoSetdly) && s.echo.any fun e => !e.delay.isVariable then some .delayNotResizable
      else if (s.askedCapacity i).any badCapacity then some .badCapacity
      else if (s.askedDelay i).any fun p => decide (p.2 ≤ p.1) then some .badOffset
      else if (s.givenFeedback i).any fun v => !inUnit v then some .badFeedback
      else if (s.givenMix i).any fun p => !mixOK p.1 p.2 then some .badMix
      else none := by
  simp only [State.firstFailing, State.checks, firstCause_cons, h, Bool.not_not, Bool.not_and_self, Bool.and_not_self]
  rfl

/-- A TICK or READ of a constructed unit has no check left. -/
theorem State.firstFailing_of_writesR0 {i : Instr} {s : State} (hw : i.writesR0 = true)
    (hc : s.constructed i.unit = true) : s.firstFailing i = none := by
  cases i with
  | fdlTick | fdlRead | vdlTick | vdlRead | echoTick | mdeTick => exact State.firstFailing_of_applicable hc
  | fdlNew | vdlNew | vdlSetoff | echoNewf | echoSetdly | echoSetfb | echoSetmix | echoNewv | mdeNew => cases hw

/-- A NEW command of a constructed unit reports that first. -/
theorem bodyOf_of_constructed {i : Instr} {s : State} (hi : i.constructs = true) (hc : s.constructed i.unit = true) :
    bodyOf i s = .raise .alreadyConstructed := by
  cases i with
  | fdlNew => exact fdlNewBody_of_constructed (Option.isSome_iff_ne_none.mp hc)
  | vdlNew => exact vdlNewBody_of_constructed (Option.isSome_iff_ne_none.mp hc)
  | echoNewf | echoNewv =>
    rw [bodyOf]
    exact newEcho_of_constructed (Option.isSome_iff_ne_none.mp hc)
  | mdeNew => exact mdeNewBody_of_constructed (Option.isSome_iff_ne_none.mp hc)
  | fdlTick | fdlRead | vdlTick | vdlRead | vdlSetoff | echoTick | echoSetdly | echoSetfb | echoSetmix | mdeTick => cases hi

/-- Any other command of an unconstructed unit reports that first. -/
theorem bodyOf_of_not_constructed {i : Instr} {s : State} (hi : i.constructs = false)
    (hc : ¬s.constructed i.unit = true) : bodyOf i s = .raise .notConstructed := by
  cases i with
  | fdlTick | fdlRead | vdlTick | vdlRead | echoTick | mdeTick => exact bodyOf_notConstructed rfl hc
  | vdlSetoff => exact vdlSetoffBody_of_not_constructed (Option.not_isSome_iff_eq_none.mp hc)
  | echoSetdly => exact echoSetdlyBody_of_not_constructed (Option.not_isSome_iff_eq_none.mp hc)
  | echoSetfb => exact echoSetfbBody_of_not_constructed (Option.not_isSome_iff_eq_none.mp hc)
  | echoSetmix => exact echoSetmixBody_of_not_constructed (Option.not_isSome_iff_eq_none.mp hc)
  | fdlNew | vdlNew | echoNewf | echoNewv | mdeNew => cases hi

/-- A NEW command of an unconstructed unit looks at the operands in the order of the checks: its body is a chain of the same
conditions, by the tables of what the command asks for. -/
theorem raised_bodyOf_new {i : Instr} {s : State} (hi : i.constructs = true) (hc : ¬s.constructed i.unit = true) :
    (bodyOf i s).raised = s.firstFailing i := by
  rw [State.firstFailing_of_applicable (by rw [hi]; exact Bool.eq_false_iff.mpr hc)]
  cases i with
  | fdlNew =>
    have hn : s.fdl = none := Option.not_isSome_iff_eq_none.mp hc
    simp only [bodyOf, fdlNewBody_of_not_constructed hn, Effect.raised_ite]; rfl
  | vdlNew =>
    have hn : s.vdl = none := Option.not_isSome_iff_eq_none.mp hc
    simp [bodyOf, vdlNewBody_of_not_constructed hn, Effect.raised_ite, State.askedCapacity, State.askedDelay,
      State.givenFeedback, State.givenMix]
  | echoNewf | echoNewv =>
    have hn : s.echo = none := Option.not_isSome_iff_eq_none.mp hc
    simp only [bodyOf, echoNewfBody, echoNewvBody, newEcho_of_not_constructed hn, Effect.raised_ite]; rfl
  | mdeNew =>
    have hn : s.mde = none := Option.not_isSome_iff_eq_none.mp hc
    have hcap : badCapacity (s.a.a0.toNat + 1) = true ↔ Config.capMax < s.a.a0.toNat + 1 := by
      simp [badCapacity_eq_true]
    simp only [bodyOf, mdeNewBody_of_not_constructed hn, ← hcap, Effect.raised_ite]; rfl
  | fdlTick | fdlRead | vdlTick | vdlRead | vdlSetoff | echoTick | echoSetdly | echoSetfb | echoSetmix | mdeTick => cases hi

/-- A setter of a constructed unit looks at the backing and at the operands in the order of the checks. -/
theorem raised_bodyOf_setter {i : Instr} {s : State} (hi : i.constructs = false) (hw : i.writesR0 = false)
    (hc : s.constructed i.unit = true) : (bodyOf i s).raised = s.firstFailing i := by
  rw [State.firstFailing_of_applicable (by rw [hi]; exact hc)]
  cases i with
  | vdlSetoff =>
    obtain ⟨v, hv⟩ := Option.isSome_iff_exists.mp hc
    simp [bodyOf, vdlSetoffBody_of_constructed hv, hv, Effect.raised_ite, State.askedCapacity, State.askedDelay,
      State.givenFeedback, State.givenMix]
  | echoSetdly =>
    obtain ⟨e, he⟩ := Option.isSome_iff_exists.mp hc
    cases hd : e.delay with
    | fixedLine f => simp [bodyOf, echoSetdlyBody_of_fixed he hd, he, hd]
    | variableLine v =>
      simp [bodyOf, echoSetdlyBody_of_variable he hd, he, hd, Effect.raised_ite, State.askedCapacity, State.askedDelay,
        State.givenFeedback, State.givenMix]
  | echoSetfb =>
    obtain ⟨e, he⟩ := Option.isSome_iff_exists.mp hc
    simp only [bodyOf, echoSetfbBody_of_constructed he, Effect.raised_ite]; rfl
  | echoSetmix =>
    obtain ⟨e, he⟩ := Option.isSome_iff_exists.mp hc
    simp only [bodyOf, echoSetmixBody_of_constructed he, Effect.raised_ite]; rfl
  | fdlTick | fdlRead | vdlTick | vdlRead | echoTick | mdeTick => cases hw
  | fdlNew | vdlNew | echoNewf | echoNewv | mdeNew => cases hi

/-- From a state that meets the invariants a command raises the first of its checks that fails, if one does: the check of
the unit decides, unless the unit is in the state the command asks for. -/
theorem raised_bodyOf {s : State} (hs : s.Inv) (i : Instr) : (bodyOf i s).raised = s.firstFailing i := by
  by_cases hc : s.constructed i.unit = true
  · cases hi : i.constructs with
    | true => simp [bodyOf_of_constructed hi hc, State.firstFailing, State.checks, hi, hc]
    | false =>
      cases hw : i.writesR0 with
      | true =>
        obtain ⟨t, ht⟩ := bodyOf_completes hs hw hc
        rw [ht, State.firstFailing_of_writesR0 hw hc, Effect.raised_done]
      | false => exact raised_bodyOf_setter hi hw hc
  · cases hi : i.constructs with
    | true => exact raised_bodyOf_new hi hc
    | false => simp [bodyOf_of_not_constructed hi hc, State.firstFailing, State.checks, hi, hc]

/-- Settles O15: the step performs the body of the decoded command, which raises the first check that fails. -/
theorem firstFailingCheckIsReported : Obligations.FirstFailingCheckIsReported := by
  intro s rest w hhost hs
  have hs' : State.Inv { s with host := rest } := hs
  refine ⟨fun hfault => ?_, fun hready hw => illegalWordFaults s rest w hhost hready hw, fun i hready hw => ?_⟩
  · obtain ⟨r, hr⟩ := Option.ne_none_iff_exists'.mp hfault
    exact (step_cons hhost).trans (issue_faulted (s := { s with host := rest }) hr w)
  subst hw
  rw [step_writeCmd hhost]
  have hraised : (bodyOf i { s with host := rest }).raised = s.firstFailing i := raised_bodyOf hs' i
  refine ⟨fun c hcheck => ?_, fun hnone => ?_⟩
  · exact raises_of_body hready (Effect.raised_eq_some.mp (hraised.trans hcheck))
  · cases hbody : bodyOf i { s with host := rest } with
    | done t => exact ⟨t, exec_of_body_done hready hbody, (bodyOf_done_fault hbody).trans hready⟩
    | raise c => rw [hbody, hnone] at hraised; cases hraised
    | stop f => exact absurd hbody (bodyOf_ne_stop hs' i f)

/-- Settles O49: the body of a TICK or READ of a constructed unit completes, and completing records no fault. -/
theorem ticksAndReadsNeverFault : Obligations.TicksAndReadsNeverFault := by
  intro i s hw hready hc hs
  obtain ⟨t, ht⟩ := bodyOf_completes hs hw hc
  exact ⟨t, exec_of_body_done hready ht, (bodyOf_done_fault ht).trans hready⟩

end Sys2Proof.Machine
end

section
/-! PROOFS. The statement about the reset pin (R170). -/

namespace Sys2Proof.Machine

/-! ### Asserting reset (R35, R170) -/

/-- STATUS reads nothing of what reset leaves as it was. -/
@[simp] theorem resetPin_status (s : State) : (resetPin s).status = State.reset.status := rfl
@[simp] theorem resetPin_faultCmd (s : State) : (resetPin s).faultCmd = State.reset.faultCmd := rfl

/-- Settles O11: the step is `resetPin`, after which STATUS and FAULTCMD are those of the reset state (O10). -/
theorem resetPinClearsEverything : Obligations.ResetPinClearsEverything := by
  intro s rest hhost
  obtain ⟨-, -, -, -, -, hstatus, hfaultCmd⟩ := resetLeaves
  exact ⟨resetPin { s with host := rest }, step_cons hhost, resetPin_fdl _, resetPin_vdl _, resetPin_echo _,
    resetPin_mde _, resetPin_fault _, (resetPin_status _).trans hstatus, (resetPin_faultCmd _).trans hfaultCmd⟩

end Sys2Proof.Machine
end

section
/-! PROOFS. The statement about a step with no host action pending (log entry 2). -/

namespace Sys2Proof.Machine

/-- Settles O4: it is the step's equation for an empty list of host actions. -/
theorem stepWaitsForHost : Obligations.StepWaitsForHost := by
  intro s hhost
  exact step_nil hhost

end Sys2Proof.Machine
end
